-- ==== Sys2Proof/Word.lean ====
section
/-!
DEFINITION. The words of tr1-codec: bits, bytes, 32-bit register words and samples.

A bit sequence is a list of `Bit`, index 0 first in transmission order (spec 00_scope.md R8, 20_memory.md R70).
A sample sequence is a list of `Sample`. The arithmetic of samples is in Machine/Sample.lean.
-/

namespace Sys2Proof

/-- A bit is 0 or 1 (R8): `false` is 0, `true` is 1. -/
abbrev Bit := Bool

/-- An 8-bit word: a command word, a register number, an 8-bit register (R35, R110). -/
abbrev Byte := BitVec 8

/-- A 32-bit register value (R35, 92_eei_decisions.md D49). -/
abbrev Word32 := BitVec 32

/-- A sample: the name of a number, as plain data. Which number it names, and what the operations of R11 make of it, is
the parameter `Sample` of R7 (`Params.samples`, Machine/Arith.lean).
The rational number `r` is named by the one term `(0, r)` in every arithmetic. In the exact arithmetic of
Machine/Sample.lean a list of terms `(q, c)` names the real number `sum c · COS(2·PI·q)`; in another arithmetic the lists
are that arithmetic's names, and there are countably many (DESIGN CHOICE, log 3). -/
structure Sample where
  terms : List (Rat × Rat)
  deriving DecidableEq, Repr, Inhabited

end Sys2Proof
end

