-- ==== Sys2Proof/Syntax.lean ====
section
/-!
DEFINITION. The 34 commands of tr1-codec (spec 30_encoding.md R111, spec/opcode_table.json).

No command has an operand field, a register specifier or an immediate (R112): every constructor is a name.
The operands of a command are the working buffer and the configuration fields it reads (10_state.md R48).
-/

namespace Sys2Proof

/-- One constructor per row of spec/opcode_table.json. -/
inductive Instr where
  | nop      -- NOP      0x00  R350
  | clrf     -- CLRF     0x01  R351
  | clrs     -- CLRS     0x02  R352
  | srst     -- SRST     0x03  R353
  | hamEnc   -- HAM.ENC  0x10  R156
  | hamDec   -- HAM.DEC  0x11  R157
  | hamEnc1  -- HAM.ENC1 0x12  R154
  | hamDec1  -- HAM.DEC1 0x13  R155
  | parAdd   -- PAR.ADD  0x20  R181
  | parChk   -- PAR.CHK  0x21  R182
  | cksAdd   -- CKS.ADD  0x30  R187
  | cksChk   -- CKS.CHK  0x31  R188
  | crcAdd   -- CRC.ADD  0x40  R198
  | crcChk   -- CRC.CHK  0x41  R199
  | bcfFrm   -- BCF.FRM  0x50  R231
  | bcfUnf   -- BCF.UNF  0x51  R232
  | bsfFrm   -- BSF.FRM  0x60  R235
  | bsfUnf   -- BSF.UNF  0x61  R237
  | ysfFrm   -- YSF.FRM  0x70  R239
  | ysfUnf   -- YSF.UNF  0x71  R241
  | nrzMod   -- NRZ.MOD  0x80  R271
  | nrzDem   -- NRZ.DEM  0x81  R272
  | manMod   -- MAN.MOD  0x90  R276
  | manDem   -- MAN.DEM  0x91  R277
  | amiMod   -- AMI.MOD  0xA0  R283
  | amiDem   -- AMI.DEM  0xA1  R284
  | askMod   -- ASK.MOD  0xB0  R301
  | askDem   -- ASK.DEM  0xB1  R302
  | fskMod   -- FSK.MOD  0xC0  R305
  | fskDem   -- FSK.DEM  0xC1  R306
  | qpskMod  -- QPSK.MOD 0xD0  R311
  | qpskDem  -- QPSK.DEM 0xD1  R312
  | qamMod   -- QAM.MOD  0xE0  R321
  | qamDem   -- QAM.DEM  0xE1  R331
  deriving DecidableEq, Repr

end Sys2Proof
end

