-- ==== Sys2Proof/Decode.lean ====
section
/-!
DEFINITION. The command word: decoder and encoder (spec 30_encoding.md R110 to R114).

The decoder looks the whole 8-bit word up in the opcode map of R111 (R110); every other word is reserved and is
rejected by name (R113). A command is exactly one word (R114).
-/

namespace Sys2Proof

/-- Why a word is not a command. -/
inductive DecodeError where
  /-- The word is not in the opcode map (R113). -/
  | reservedWord (word : Byte)
  deriving DecidableEq, Repr

/-- The opcode map of R111, row by row. -/
def opcodeMap : List (Byte × Instr) :=
  [(0x00, .nop), (0x01, .clrf), (0x02, .clrs), (0x03, .srst)]
  ++ [(0x10, .hamEnc), (0x11, .hamDec), (0x12, .hamEnc1), (0x13, .hamDec1)]
  ++ [(0x20, .parAdd), (0x21, .parChk), (0x30, .cksAdd), (0x31, .cksChk), (0x40, .crcAdd), (0x41, .crcChk)]
  ++ [(0x50, .bcfFrm), (0x51, .bcfUnf), (0x60, .bsfFrm), (0x61, .bsfUnf), (0x70, .ysfFrm), (0x71, .ysfUnf)]
  ++ [(0x80, .nrzMod), (0x81, .nrzDem), (0x90, .manMod), (0x91, .manDem), (0xA0, .amiMod), (0xA1, .amiDem)]
  ++ [(0xB0, .askMod), (0xB1, .askDem), (0xC0, .fskMod), (0xC1, .fskDem)]
  ++ [(0xD0, .qpskMod), (0xD1, .qpskDem), (0xE0, .qamMod), (0xE1, .qamDem)]

/-- The command a word selects, or its rejection (R110, R113). -/
def decode (c : Byte) : Except DecodeError Instr :=
  match opcodeMap.lookup c with
  | some i => .ok i
  | none => .error (.reservedWord c)

/-- UNIT, bits 7:4 of the word, of each command (R111). -/
def Instr.unit : Instr → BitVec 4
  | .nop | .clrf | .clrs | .srst => 0
  | .hamEnc | .hamDec | .hamEnc1 | .hamDec1 => 1
  | .parAdd | .parChk => 2
  | .cksAdd | .cksChk => 3
  | .crcAdd | .crcChk => 4
  | .bcfFrm | .bcfUnf => 5
  | .bsfFrm | .bsfUnf => 6
  | .ysfFrm | .ysfUnf => 7
  | .nrzMod | .nrzDem => 8
  | .manMod | .manDem => 9
  | .amiMod | .amiDem => 10
  | .askMod | .askDem => 11
  | .fskMod | .fskDem => 12
  | .qpskMod | .qpskDem => 13
  | .qamMod | .qamDem => 14

/-- OP, bits 3:0 of the word, of each command (R111). -/
def Instr.op : Instr → BitVec 4
  | .nop => 0
  | .clrf => 1
  | .clrs => 2
  | .srst => 3
  | .hamEnc1 => 2
  | .hamDec1 => 3
  | .hamEnc | .parAdd | .cksAdd | .crcAdd | .bcfFrm | .bsfFrm | .ysfFrm => 0
  | .nrzMod | .manMod | .amiMod | .askMod | .fskMod | .qpskMod | .qamMod => 0
  | .hamDec | .parChk | .cksChk | .crcChk | .bcfUnf | .bsfUnf | .ysfUnf => 1
  | .nrzDem | .manDem | .amiDem | .askDem | .fskDem | .qpskDem | .qamDem => 1

/-- The word of a command: UNIT in bits 7:4, OP in bits 3:0 (R110). -/
def encode (i : Instr) : Byte := i.unit ++ i.op

/-- The command read from an instruction whose bits are `w`, numbered as spec/opcode_table.json numbers them.
Every row has 8 bits: the command is the one byte `w`, and a row of another length is no command (R114). -/
def decodeTableWord (nbits w : Nat) : Option Instr :=
  if nbits = 8 ∧ w < 2 ^ 8 then
    match decode (BitVec.ofNat 8 w) with
    | .ok i => some i
    | .error _ => none
  else none

end Sys2Proof
end

