-- ==== Sys2Proof/Machine/Bits.lean ====
section
/-!
DEFINITION. Sequences, blocks, and the conversions between numbers, bytes and bits
(spec 00_scope.md R9, 20_memory.md R70 to R72, R75).
-/

namespace Sys2Proof.Machine

/-- `s[a..b)`, clipped to the sequence (R9). -/
def slice {α : Type} (s : List α) (a b : Nat) : List α := (s.drop a).take (b - a)

/-- `s[p·i .. p·i+p)` for `i < len(s) div p`: the complete blocks of `p` elements, from index 0 (R75). -/
def blocks {α : Type} (p : Nat) (s : List α) : List (List α) :=
  (List.range (s.length / p)).map fun i => slice s (p * i) (p * i + p)

/-- `bits_of_nat(v, w) = [v[w-1], ..., v[0]]`: `w` bits, most significant first (R71). -/
def bitsOfNat (v w : Nat) : List Bit := (List.range w).map fun i => v.testBit (w - 1 - i)

/-- `nat_of_bits(s) = sum_{i<len(s)} s[i] · 2^(len(s)-1-i)`, 0 for the empty sequence (R71). -/
def natOfBits (s : List Bit) : Nat := s.foldl (fun n b => 2 * n + b.toNat) 0

/-- `bytes_of(s)`: the complete bytes of `s`; the trailing `len(s) mod 8` bits are dropped (R72). -/
def bytesOf (s : List Bit) : List Nat := (blocks 8 s).map natOfBits

/-- `bits_of_bytes(b)` (R72). -/
def bitsOfBytes (b : List Nat) : List Bit := b.flatMap fun v => bitsOfNat v 8

/-- `tail(s)`: the 0 to 7 bits after the last complete byte (R72). -/
def tailBits (s : List Bit) : List Bit := slice s (8 * (s.length / 8)) s.length

/-- `s` with zero bits appended up to a multiple of `p` bits. -/
def padZeros (p : Nat) (s : List Bit) : List Bit :=
  if s.length % p = 0 then s else s ++ List.replicate (p - s.length % p) false

end Sys2Proof.Machine
end

