-- ==== Sys2Proof/Config.lean ====
section
/-!
DEFINITION. The OPEN parameters of tr1-codec (spec 00_scope.md R7): what an implementation fixes.

A parameter is not state and no reset changes it (70_reset_and_hazards.md R470). The model carries the record
below in `State.params`, so that every statement over all states holds for every value of every parameter
(DESIGN CHOICE, log 1). The operations of an implementation's own sample type are the opaque constants below: nothing is
known of them, so a statement holds whatever they are (log 3).
-/

namespace Sys2Proof

/-- `EDC_TAIL`: how the checksum and the CRC treat the bits after the last complete byte (R7, 41_edc.md R185). -/
inductive EdcTail where
  | exclude
  | zeropad
  deriving DecidableEq, Repr

/-- `MAN_DECIDE`: the Manchester decision (R7, 43_baseband.md R277). -/
inductive ManDecide where
  | compare
  | signs
  deriving DecidableEq, Repr

/-- The parameters `Sample`, `SIN`, `COS`, `PI` (R7): the exact reals the spec recommends, on the set of numbers on which
they can be computed, or any other sample type, whose operations are the constants `Config.sample…`. -/
inductive SampleType where
  | exactReals
  | given
  deriving DecidableEq, Repr

/-! ### The operations of R11 in a given sample type: free values, with no body -/

/-- `x + y`. -/
opaque Config.sampleAdd : Sample → Sample → Sample
/-- `x − y`. -/
opaque Config.sampleSub : Sample → Sample → Sample
/-- `x · y`. -/
opaque Config.sampleMul : Sample → Sample → Sample
/-- `x / y`. -/
opaque Config.sampleDiv : Sample → Sample → Sample
/-- `−x`. -/
opaque Config.sampleNeg : Sample → Sample
/-- `abs x`. -/
opaque Config.sampleAbs : Sample → Sample
/-- `x < y`. -/
opaque Config.sampleLt : Sample → Sample → Bool
/-- `x ≤ y`. -/
opaque Config.sampleLe : Sample → Sample → Bool
/-- `x = y`, as numbers. -/
opaque Config.sampleEq : Sample → Sample → Bool
/-- `PI`. -/
opaque Config.samplePi : Sample
/-- `SIN x`. -/
opaque Config.sampleSin : Sample → Sample
/-- `COS x`. -/
opaque Config.sampleCos : Sample → Sample

/-- The parameters a model takes as arguments (R7). `bufCap = none` is "unbounded". -/
structure Params where
  samples   : SampleType
  bufCap    : Option Nat
  crcInit   : Nat
  crcXorOut : Nat
  edcTail   : EdcTail
  manDecide : ManDecide
  qamScale  : Sample
  deriving DecidableEq, Repr

/-- The spec's default of each OPEN parameter (R7, 92_eei_decisions.md D13, D15, D28, D35, D45). -/
def Params.default : Params where
  samples   := .exactReals
  bufCap    := none
  crcInit   := 0
  crcXorOut := 0
  edcTail   := .exclude
  manDecide := .compare
  qamScale  := ⟨[(0, 1)]⟩

end Sys2Proof
end

