-- ==== Sys2Proof/Machine/Sample.lean ====
section
/-!
DEFINITION. The exact arithmetic of samples, the real numbers that spec 00_scope.md R7 recommends (R11): `+`, `−`, `·`,
`abs`, `<`, and the functions SIN and COS on the carrier phases.

Here a sample is a sum of terms `(q, c)`, each `c · COS(2·PI·q)`. Sums of such sums are such sums, and so are products,
because `COS a · COS b = (COS (a+b) + COS (a−b)) / 2`. PI enters the rules only as a factor of an angle
(44_carrier.md R300, R310), so an angle is held in turns, as the rational `q` of `2·PI·q`.
The comparison is decided exactly, by `Sample.sign`. Laws/SampleSign.lean proves that every operation here is the
operation of the same name on the real numbers (log 3).
-/

namespace Sys2Proof

/-- The real 0. -/
def Sample.zero : Sample := ⟨[]⟩

/-- A rational number as a sample; naturals are converted exactly (R11). -/
def Sample.ofRat (r : Rat) : Sample := if r = 0 then ⟨[]⟩ else ⟨[(0, r)]⟩

/-- Adds the term `(q, c)` to a list of terms with rising angles, keeping it so and free of zero coefficients. -/
def Sample.insertTerm (q c : Rat) : List (Rat × Rat) → List (Rat × Rat)
  | [] => if c = 0 then [] else [(q, c)]
  | (q', c') :: ts =>
    if q < q' then (if c = 0 then (q', c') :: ts else (q, c) :: (q', c') :: ts)
    else if q = q' then (if c' + c = 0 then ts else (q', c' + c) :: ts)
    else (q', c') :: Sample.insertTerm q c ts

/-- The angle in [0, 1/2] turns that has the same cosine: `COS` has period 1 turn and is even. -/
def Sample.foldTurns (q : Rat) : Rat :=
  let f := q - q.floor
  if f ≤ 1 / 2 then f else 1 - f

/-- `x + c · COS(2·PI·q)`: the angle is brought into [0, 1/4) turns, where `COS(PI/2) = 0` and
`COS(PI − a) = −COS a`. -/
def Sample.addTerm (x : Sample) (t : Rat × Rat) : Sample :=
  let q := Sample.foldTurns t.1
  if q < 1 / 4 then ⟨Sample.insertTerm q t.2 x.terms⟩
  else if q = 1 / 4 then x
  else ⟨Sample.insertTerm (1 / 2 - q) (-t.2) x.terms⟩

/-- `x + y`. -/
def Sample.add (x y : Sample) : Sample := y.terms.foldl Sample.addTerm x

/-- `r · x` for a rational `r`. -/
def Sample.smul (r : Rat) (x : Sample) : Sample :=
  if r = 0 then Sample.zero else ⟨x.terms.map fun t => (t.1, r * t.2)⟩

/-- `−x`. -/
def Sample.neg (x : Sample) : Sample := Sample.smul (-1) x

/-- `x − y`. -/
def Sample.sub (x y : Sample) : Sample := Sample.add x (Sample.neg y)

/-- The two terms that the product of two terms is. -/
def Sample.mulTerm (acc : Sample) (s t : Rat × Rat) : Sample :=
  Sample.addTerm (Sample.addTerm acc (s.1 + t.1, s.2 * t.2 / 2)) (s.1 - t.1, s.2 * t.2 / 2)

/-- `x · y`. -/
def Sample.mul (x y : Sample) : Sample :=
  x.terms.foldl (fun acc s => y.terms.foldl (fun acc t => Sample.mulTerm acc s t) acc) Sample.zero

/-- `COS(2·PI·q)`. -/
def Sample.cosTurn (q : Rat) : Sample := Sample.addTerm Sample.zero (q, 1)

/-- `SIN(2·PI·q) = COS(2·PI·(q − 1/4))`. -/
def Sample.sinTurn (q : Rat) : Sample := Sample.cosTurn (q - 1 / 4)

/-! ### Exact comparison

`COS` is approximated to any precision with a proved error bound. A sum of terms that is not 0 cannot be closer to 0
than a bound computed from its denominators and coefficients (the norm of a nonzero algebraic integer is at least 1 in
absolute value), so an approximation finer than that bound gives the sign, 0 included. -/

/-- `r` rounded down to a multiple of `2^(-p)`. -/
def Sample.roundDown (p : Nat) (r : Rat) : Rat := ((r * ((2 ^ p : Nat) : Rat)).floor : Rat) / ((2 ^ p : Nat) : Rat)

/-- The first `n` terms of `arctan(1/x) = sum_i (−1)^i / ((2i+1)·x^(2i+1))`. -/
def Sample.atanInv (x : Nat) : Nat → Rat
  | 0 => 0
  | n + 1 => Sample.atanInv x n
      + (if n % 2 = 0 then 1 else -1) / (((2 * n + 1) * x ^ (2 * n + 1) : Nat) : Rat)

/-- PI from `n` terms of Machin's formula `PI = 16·arctan(1/5) − 4·arctan(1/239)`. -/
def Sample.piApprox (n : Nat) : Rat := 16 * Sample.atanInv 5 n - 4 * Sample.atanInv 239 n

/-- `k` terms of the cosine series in `y = x²` from term `m` on, `t` that term's absolute value, each rounded. -/
def Sample.cosSeries (p : Nat) (y : Rat) : Nat → Nat → Rat → Rat
  | 0, _, _ => 0
  | k + 1, m, t =>
    t - Sample.cosSeries p y k (m + 1)
      (Sample.roundDown p (t * y / (((2 * m + 1) * (2 * m + 2) : Nat) : Rat)))

/-- `COS(2·PI·q)` for `0 ≤ q ≤ 1/4`, with an error of at most `2^(-b)`. -/
def Sample.cosApprox (b : Nat) (q : Rat) : Rat :=
  if q = 0 then 1 else
  let n := b / 4 + 4
  let p := b + n + 4
  let x := Sample.roundDown p (2 * Sample.piApprox n * q)
  Sample.cosSeries p (x * x) n 0 1

/-- The same real with its terms in the form the operations above keep. -/
def Sample.canon (x : Sample) : Sample := x.terms.foldl Sample.addTerm Sample.zero

/-- A common denominator of the angles. -/
def Sample.order (x : Sample) : Nat := x.terms.foldl (fun n t => Nat.lcm n t.1.den) 1

/-- A common denominator of the coefficients. -/
def Sample.scale (x : Sample) : Nat := x.terms.foldl (fun n t => Nat.lcm n t.2.den) 1

/-- `2 · scale · sum |c|`: a bound on every conjugate of the algebraic integer `2 · scale · x`. -/
def Sample.height (x : Sample) : Nat :=
  x.terms.foldl (fun h t => h + 2 * (t.2.num.natAbs * (x.scale / t.2.den))) 0

/-- `x` with each cosine approximated to `b` bits. -/
def Sample.approx (b : Nat) (x : Sample) : Rat :=
  x.terms.foldl (fun a t => a + t.2 * Sample.cosApprox b t.1) 0

/-- `x` compared with 0 when it is known to be 0 or at least `2·e` away from 0 and `v` is within `e` of it. -/
def Sample.signFrom (v e : Rat) : Ordering :=
  if v < -e then .lt else if e < v then .gt else .eq

/-- `x` compared with 0, exactly. A first look at 40 bits settles most cases; the second uses the precision at
which no nonzero value can be taken for 0. -/
def Sample.sign (x : Sample) : Ordering :=
  let y := x.canon
  if y.terms = [] then .eq else
  let e := (y.height : Rat) / ((2 ^ 40 : Nat) : Rat)
  match Sample.signFrom (Sample.approx 40 y) e with
  | .lt => .lt
  | .gt => .gt
  | .eq =>
    let g := y.height ^ Nat.totient y.order
    let b := Nat.log2 (4 * y.height * g) + 1
    Sample.signFrom (Sample.approx b y) (1 / ((4 * y.scale * g : Nat) : Rat))

/-- `x < y`. -/
def Sample.lt (x y : Sample) : Bool := Sample.sign (Sample.sub x y) == .lt

/-- `x ≤ y`. -/
def Sample.le (x y : Sample) : Bool := !Sample.lt y x

/-- `x < 0`. -/
def Sample.isNeg (x : Sample) : Bool := Sample.sign x == .lt

/-- `x = 0`, as a real. -/
def Sample.isZero (x : Sample) : Bool := Sample.sign x == .eq

/-- `abs x`. -/
def Sample.abs (x : Sample) : Sample := if x.isNeg then x.neg else x

end Sys2Proof
end

