-- ==== Sys2Proof/Machine/Arith.lean ====
section
/-!
DEFINITION. The sample arithmetic of the rules as an argument (spec 00_scope.md R7, R11): one record of the operations the
rules use, with two values. `Arith.exact` is Machine/Sample.lean's. `Arith.given` is any other sample type: each of its
operations is the rule's own expression over the constants `Config.sample…`, left to right as the rule writes it.
-/

namespace Sys2Proof

/-- The operations the rules make on samples. -/
structure Arith where
  add : Sample → Sample → Sample
  sub : Sample → Sample → Sample
  mul : Sample → Sample → Sample
  neg : Sample → Sample
  abs : Sample → Sample
  lt  : Sample → Sample → Bool
  le  : Sample → Sample → Bool
  eq  : Sample → Sample → Bool
  /-- `x / n` for a natural `n` (the mean of R11, `A/2` of 43_baseband.md R284). -/
  divNat : Sample → Nat → Sample
  /-- `x / y < b` for `y > 0` (44_carrier.md R330, R331). -/
  ltQuot : Sample → Sample → Sample → Bool
  /-- `SIN(θ(f, k))` at SAMPLING_RATE `fs` (44_carrier.md R300). -/
  sinAt : (fs f k : Nat) → Sample
  /-- `COS(θ(f, k))`. -/
  cosAt : (fs f k : Nat) → Sample
  /-- `COS(θ(f, k) + e·PI/4)` (44_carrier.md R310, R311). -/
  cosShiftAt : (fs f k e : Nat) → Sample

/-- A natural number as a sample, exactly (R11). -/
def Sample.ofNat (n : Nat) : Sample := Sample.ofRat (n : Rat)

/-- The carrier phase `2·PI·f·k / SAMPLING_RATE` in turns (44_carrier.md R300). -/
def phaseTurns (fs f k : Nat) : Rat := ((f * k : Nat) : Rat) / (fs : Rat)

/-- The exact reals: a quotient is compared by its numerator with the bound times the denominator (log 8). -/
def Arith.exact : Arith where
  add := Sample.add
  sub := Sample.sub
  mul := Sample.mul
  neg := Sample.neg
  abs := Sample.abs
  lt := Sample.lt
  le := Sample.le
  eq := fun x y => (Sample.sub x y).isZero
  divNat := fun x n => Sample.smul (1 / (n : Rat)) x
  ltQuot := fun x y b => Sample.lt x (Sample.mul b y)
  sinAt := fun fs f k => Sample.sinTurn (phaseTurns fs f k)
  cosAt := fun fs f k => Sample.cosTurn (phaseTurns fs f k)
  cosShiftAt := fun fs f k e => Sample.cosTurn (phaseTurns fs f k + (e : Rat) / 8)

/-- `θ(f, k) = 2 · PI · f · k / SAMPLING_RATE` in a given sample type (44_carrier.md R300). -/
def givenTheta (fs f k : Nat) : Sample :=
  Config.sampleDiv
    (Config.sampleMul (Config.sampleMul (Config.sampleMul (Sample.ofNat 2) Config.samplePi) (Sample.ofNat f))
      (Sample.ofNat k))
    (Sample.ofNat fs)

/-- The phase `e·PI/4` in a given sample type, for `e` = 1, 3, 5, 7; R310 writes the first of them `PI/4`, without a product
(44_carrier.md R310). -/
def givenPhase (e : Nat) : Sample :=
  Config.sampleDiv (if e = 1 then Config.samplePi else Config.sampleMul (Sample.ofNat e) Config.samplePi) (Sample.ofNat 4)

/-- A given sample type. -/
def Arith.given : Arith where
  add := Config.sampleAdd
  sub := Config.sampleSub
  mul := Config.sampleMul
  neg := Config.sampleNeg
  abs := Config.sampleAbs
  lt := Config.sampleLt
  le := Config.sampleLe
  eq := Config.sampleEq
  divNat := fun x n => Config.sampleDiv x (Sample.ofNat n)
  ltQuot := fun x y b => Config.sampleLt (Config.sampleDiv x y) b
  sinAt := fun fs f k => Config.sampleSin (givenTheta fs f k)
  cosAt := fun fs f k => Config.sampleCos (givenTheta fs f k)
  cosShiftAt := fun fs f k e => Config.sampleCos (Config.sampleAdd (givenTheta fs f k) (givenPhase e))

/-- The sample arithmetic a model is given (R7). -/
def Params.arith (p : Params) : Arith :=
  match p.samples with
  | .exactReals => Arith.exact
  | .given => Arith.given

/-- `x > 0`. -/
def Arith.isPos (ar : Arith) (x : Sample) : Bool := ar.lt Sample.zero x

/-- `x < 0`. -/
def Arith.isNeg (ar : Arith) (x : Sample) : Bool := ar.lt x Sample.zero

/-- `x = 0`. -/
def Arith.isZero (ar : Arith) (x : Sample) : Bool := ar.eq x Sample.zero

/-- `x + y + …` over the rest of a sum whose first summands make `acc`. -/
def Arith.sumFrom (ar : Arith) (acc : Sample) (xs : List Sample) : Sample := xs.foldl ar.add acc

/-- `sum_{k<len(xs)} xs[k] = xs[0] + … + xs[len(xs)−1]`, 0 for the empty sequence (R9). -/
def Arith.sum (ar : Arith) : List Sample → Sample
  | [] => Sample.zero
  | x :: xs => ar.sumFrom x xs

/-- `sum_{k<p} x[k] · y[k]`. -/
def Arith.dot (ar : Arith) (xs ys : List Sample) : Sample := ar.sum (List.zipWith ar.mul xs ys)

/-- `mean(w) = sum_{k<len(w)} w[k] / len(w)`, used only with `len(w) ≥ 1` (R11). That the sum is divided once, and not each
`w[k]` before it is added, is a DESIGN CHOICE: R11 writes no parentheses (log 3). In the exact reals the two are one number. -/
def Arith.mean (ar : Arith) (xs : List Sample) : Sample := ar.divNat (ar.sum xs) xs.length

end Sys2Proof
end

