-- ==== Sys2Proof/Machine/State.lean ====
section
/-!
DEFINITION. The state of one tr1-codec instance, its reset value, and the reasons a step can stop.

The architectural state is exactly W, CFG and ST (spec 10_state.md R30). The model adds three fields of its own: the
OPEN parameters (log 1), the host program still to run and the values read by the host (log 2). There is no addressed
memory, no program counter and no general register (R31, R34; 20_memory.md R79).
-/

namespace Sys2Proof.Machine

/-- The working buffer's tagged value (R32). -/
inductive Buffer where
  | bits (s : List Bit)
  | samples (s : List Sample)
  deriving DecidableEq, Repr

/-- `CRC_POLY` holds `STD` or a value (R46). -/
inductive CrcPoly where
  | std
  | poly (v : Word32)
  deriving DecidableEq, Repr

/-- The fault codes `ST.FAULT` can hold (60_exceptions.md R420). -/
inductive FaultCode where
  | none           -- 0x00
  | badOpcode      -- 0x01
  | cfgUnset       -- 0x02
  | cfgInvalid     -- 0x03
  | badKind        -- 0x04
  | badLength      -- 0x05
  | frameTooLarge  -- 0x06
  | overflow       -- 0x07
  deriving DecidableEq, Repr

/-- The configuration fields, registers 0x10 to 0x17 (R35). `none` is `unset` (R37); only the fields whose reset
value is `unset` can hold it. -/
structure Cfg where
  samplingRate  : Option Word32
  bitRate       : Option Word32
  carrierFreq   : Option Word32
  amplitude     : Sample
  maxFrameBytes : Option Word32
  edcWidth      : Option Word32
  crcPoly       : CrcPoly
  hamM          : Word32
  deriving DecidableEq, Repr

/-- The status fields (R51 to R54). -/
structure Status where
  err    : Bool
  corr   : Nat
  synd   : Byte
  fault  : FaultCode
  finfo0 : Word32
  finfo1 : Word32
  deriving DecidableEq, Repr

/-- The draw of a `chan` step (46_host_interface.md R380, 30_encoding.md R120): the all-zero draw or a sequence. -/
inductive Draw where
  | zero
  | seq (e : List Sample)
  deriving DecidableEq, Repr

/-- The steps of a host program (46_host_interface.md R370, R376, R380). A write of a sample is possible to the one
register of sample width, AMPLITUDE; every other register write carries a 32-bit value (R35; log 7). -/
inductive HostAction where
  | loadw (v : Buffer)                 -- LOADW      R371
  | readw                              -- READW      R372
  | wrreg (n : Byte) (v : Word32)      -- WRREG      R373
  | wrAmplitude (a : Sample)           -- WRREG(0x13, a)
  | rdreg (n : Byte)                   -- RDREG      R374
  | exec (c : Byte)                    -- EXEC(c) = WRREG(0x00, c)   R375
  | chan (d : Draw)                    -- chan       R380
  deriving DecidableEq, Repr

/-- A value returned to the host by READW or RDREG (R372, R374). -/
inductive HostValue where
  | buffer (w : Buffer)
  | nat (v : Nat)
  | sample (a : Sample)
  deriving DecidableEq, Repr

structure State where
  /-- The working buffer W (R32). -/
  w        : Buffer
  /-- The configuration registers (R40 to R47). -/
  cfg      : Cfg
  /-- The status registers (R51 to R54). -/
  st       : Status
  /-- The OPEN parameters (00_scope.md R7); the model's own field, constant in every run (log 1). -/
  params   : Params
  /-- The host actions still to come, oldest first (R376); the model's own field (log 2). -/
  program  : List HostAction
  /-- The values returned so far, oldest first (R376); the model's own field (log 2). -/
  returned : List HostValue
  deriving DecidableEq, Repr

/-- The configuration after reset (70_reset_and_hazards.md R471). -/
def Cfg.reset : Cfg where
  samplingRate  := none
  bitRate       := none
  carrierFreq   := none
  amplitude     := ⟨[(0, 5)]⟩
  maxFrameBytes := none
  edcWidth      := none
  crcPoly       := .std
  hamM          := 4

/-- The status after reset (R471). -/
def Status.reset : Status where
  err    := false
  corr   := 0
  synd   := 0
  fault  := .none
  finfo0 := 0
  finfo1 := 0

/-- The machine right after reset (R471), with the default parameters and no host program yet. -/
def State.reset : State where
  w        := .bits []
  cfg      := Cfg.reset
  st       := Status.reset
  params   := Params.default
  program  := []
  returned := []

/-- Why a step stops with a fault: never. A fault of the spec is a next state with `ST.FAULT` written
(60_exceptions.md R425), and no command suspends (20_memory.md R80), so no constructor is needed (log 6). -/
inductive Fault where
  deriving DecidableEq, Repr

/-- Why a step is refused: host actions that the spec places outside the host's legal set, which a model refuses. -/
inductive Refusal where
  /-- An instruction without a meaning, raised by an arm of `exec`: safe. No arm of this model raises it. -/
  | notModelled (mnemonic : String)
  /-- Raised by LOADW of more than `BUF_CAP` elements, which R371 has a model refuse (93 I19): safe. -/
  | loadwOverCapacity
  /-- Raised by `chan` on W = Bits, which R380 has refused (93 I20): safe. -/
  | chanOnBits
  /-- Raised by `chan` with a draw whose length is not that of W; R380 defines no such draw: safe. -/
  | chanDrawLength
  /-- Raised by a write to the 8-bit register CMD of a value of more than 8 bits; R56 defines none: safe. -/
  | commandTooWide
  deriving DecidableEq, Repr

end Sys2Proof.Machine
end

