-- ==== Sys2Proof/Machine/Flags.lean ====
section
/-!
DEFINITION. The status registers: what STATUS reads as, the fault codes as bytes, and the writes to the status
fields (spec 10_state.md R51 to R55, 60_exceptions.md R420).
-/

namespace Sys2Proof.Machine

/-- The byte FAULT reads as (R420). -/
def FaultCode.toByte : FaultCode → Byte
  | .none => 0x00
  | .badOpcode => 0x01
  | .cfgUnset => 0x02
  | .cfgInvalid => 0x03
  | .badKind => 0x04
  | .badLength => 0x05
  | .frameTooLarge => 0x06
  | .overflow => 0x07

/-- `FP`: a fault is pending (R55). -/
def State.pending (s : State) : Bool := s.st.fault != .none

/-- `STATUS = (FP << 1) OR ST.ERR`; bits 7:2 read 0 (R55). -/
def State.statusByte (s : State) : Byte :=
  (BitVec.ofNat 8 s.pending.toNat <<< 1) ||| BitVec.ofNat 8 s.st.err.toNat

/-- `ST.ERR <- e` (R51). -/
def State.setErr (s : State) (e : Bool) : State := { s with st := { s.st with err := e } }

/-- `ST.CORR <- n` (R52). -/
def State.setCorr (s : State) (n : Nat) : State := { s with st := { s.st with corr := n } }

/-- `ST.SYND <- v` (R53); 10_state.md R47 keeps every syndrome below 256. -/
def State.setSynd (s : State) (v : Nat) : State := { s with st := { s.st with synd := BitVec.ofNat 8 v } }

/-- `ST.ERR <- 0; ST.CORR <- 0; ST.SYND <- 0` (45_system.md R352). -/
def State.clearStats (s : State) : State := { s with st := { s.st with err := false, corr := 0, synd := 0 } }

/-- `ST.FAULT <- 0; ST.FINFO0 <- 0; ST.FINFO1 <- 0` (45_system.md R351). -/
def State.clearFault (s : State) : State :=
  { s with st := { s.st with fault := .none, finfo0 := 0, finfo1 := 0 } }

end Sys2Proof.Machine
end

