-- ==== Sys2Proof/Machine/Ops.lean ====
section
/-!
DEFINITION. The operations every command shares: fault entry, the execution sequence's gate, the buffer write with its
capacity check, and the reset (spec 60_exceptions.md R422 to R426, 10_state.md R33, 70_reset_and_hazards.md R470).
-/

namespace Sys2Proof.Machine

/-- `Fault(code, i0, i1)`: what a command raises (00_scope.md R12). -/
structure CmdFault where
  code  : FaultCode
  info0 : Nat
  info1 : Nat
  deriving DecidableEq, Repr

/-- The result of a command's pseudocode: it reaches its end, or it raises a fault (R422). -/
abbrev CmdResult (α : Type) := Except CmdFault α

/-- A step's outcome on this machine. -/
abbrev Result := Host.Outcome State Fault Refusal

/-- Fault entry (R425): the code and the two information words, modulo 2^32 (R424), and nothing else. -/
def State.raise (s : State) (f : CmdFault) : State :=
  { s with st := { s.st with
      fault := f.code, finfo0 := BitVec.ofNat 32 f.info0, finfo1 := BitVec.ofNat 32 f.info1 } }

/-- Execution of a command other than CLRF and SRST (R422): while a fault is pending it is ignored (R426); otherwise its
pseudocode runs, and its writes take effect only if it reaches its end (R425). -/
def runCommand (s : State) (body : CmdResult State) : Result :=
  if s.pending then .next s
  else match body with
    | .ok t => .next t
    | .error f => .next (s.raise f)

/-- Execution of a reserved word (30_encoding.md R113): F_BAD_OPCODE, unless a fault is pending. -/
def execReserved (c : Byte) (s : State) : Result := runCommand s (.error ⟨.badOpcode, c.toNat, 0⟩)

/-- The number of elements of W (R33). -/
def Buffer.length : Buffer → Nat
  | .bits b => b.length
  | .samples x => x.length

/-- A sequence of `n` elements fits W (R33); `none` is an unbounded capacity. -/
def bufFits (p : Params) (n : Nat) : Bool :=
  match p.bufCap with
  | none => true
  | some cap => decide (n ≤ cap)

/-- `BufWrite(v)` (R33): W ← v, or F_OVERFLOW(len, BUF_CAP). -/
def bufWrite (s : State) (v : Buffer) : CmdResult State :=
  match s.params.bufCap with
  | none => .ok { s with w := v }
  | some cap => if cap < v.length then .error ⟨.overflow, v.length, cap⟩ else .ok { s with w := v }

/-- The reset event (70_reset_and_hazards.md R470, R471): every piece of architectural state at its reset value, whatever
it held. Parameters are not state (R470), and what the host has still to do and has read is the host's. -/
def State.resetCore (s : State) : State :=
  { s with w := State.reset.w, cfg := State.reset.cfg, st := State.reset.st }

end Sys2Proof.Machine
end

