-- ==== Sys2Proof/Machine/Operands.lean ====
section
/-!
DEFINITION. The operands of a command: W with its kind (spec 60_exceptions.md R421), and the configuration fields it
reads with their checks (10_state.md R38 to R50, 00_scope.md R12, R13).
-/

namespace Sys2Proof.Machine

/-- `require kind(W) = bits` and `BufRead()`; kinds are numbered 0 = bits, 1 = samples (R420, R421). -/
def needBits (s : State) : CmdResult (List Bit) :=
  match s.w with
  | .bits b => .ok b
  | .samples _ => .error ⟨.badKind, 1, 0⟩

/-- `require kind(W) = samples` and `BufRead()` (R421). -/
def needSamples (s : State) : CmdResult (List Sample) :=
  match s.w with
  | .samples x => .ok x
  | .bits _ => .error ⟨.badKind, 0, 1⟩

/-- The configuration fields. -/
inductive CfgField where
  | samplingRate
  | bitRate
  | carrierFreq
  | amplitude
  | maxFrameBytes
  | edcWidth
  | crcPoly
  | hamM
  deriving DecidableEq, Repr

/-- The field's register number (R35). -/
def CfgField.number : CfgField → Nat
  | .samplingRate => 0x10
  | .bitRate => 0x11
  | .carrierFreq => 0x12
  | .amplitude => 0x13
  | .maxFrameBytes => 0x14
  | .edcWidth => 0x15
  | .crcPoly => 0x16
  | .hamM => 0x17

/-- The fields each command reads, in increasing register number (R48). -/
def fieldsRead : Instr → List CfgField
  | .nop | .clrf | .clrs | .srst => []
  | .hamEnc | .hamDec | .hamEnc1 | .hamDec1 => [.hamM]
  | .parAdd | .parChk => []
  | .cksAdd | .cksChk => [.edcWidth]
  | .crcAdd | .crcChk => [.edcWidth, .crcPoly]
  | .bcfFrm | .bsfFrm | .ysfFrm => [.maxFrameBytes]
  | .bcfUnf | .bsfUnf | .ysfUnf => []
  | .nrzMod | .manMod | .amiMod => [.samplingRate, .bitRate, .amplitude]
  | .nrzDem | .manDem => [.samplingRate, .bitRate]
  | .amiDem | .askDem => [.samplingRate, .bitRate, .amplitude]
  | .fskDem | .qpskDem => [.samplingRate, .bitRate, .carrierFreq]
  | .askMod | .fskMod | .qpskMod | .qamMod | .qamDem => [.samplingRate, .bitRate, .carrierFreq, .amplitude]

/-- The value of a 32-bit field that may be `unset`, which reads as 0 (46_host_interface.md R374). -/
def regNat (o : Option Word32) : Nat :=
  match o with
  | some v => v.toNat
  | none => 0

/-- The field holds `unset` (R37). -/
def Cfg.isUnset (c : Cfg) : CfgField → Bool
  | .samplingRate => c.samplingRate.isNone
  | .bitRate => c.bitRate.isNone
  | .carrierFreq => c.carrierFreq.isNone
  | .amplitude => false
  | .maxFrameBytes => c.maxFrameBytes.isNone
  | .edcWidth => c.edcWidth.isNone
  | .crcPoly => false
  | .hamM => false

/-- The least samples per bit a command accepts: 2 for the Manchester commands, else 1 (R41). -/
def minSpb : Instr → Nat
  | .manMod | .manDem => 2
  | _ => 1

/-- The field's value is legal for the command (R40 to R47); AMPLITUDE is compared with 0 in the given arithmetic. -/
def Cfg.isLegal (ar : Arith) (i : Instr) (c : Cfg) : CfgField → Bool
  | .samplingRate => decide (100 ≤ regNat c.samplingRate ∧ regNat c.samplingRate ≤ 10000)
  | .bitRate =>
    decide (1 ≤ regNat c.bitRate ∧ regNat c.bitRate ≤ 1000
      ∧ regNat c.samplingRate % regNat c.bitRate = 0
      ∧ minSpb i ≤ regNat c.samplingRate / regNat c.bitRate)
  | .carrierFreq => decide (10 ≤ regNat c.carrierFreq ∧ regNat c.carrierFreq ≤ 1000)
  | .amplitude => ar.isPos c.amplitude
  | .maxFrameBytes => decide (64 ≤ regNat c.maxFrameBytes ∧ regNat c.maxFrameBytes ≤ 1024)
  | .edcWidth => [8, 16, 24, 32].contains (regNat c.edcWidth)
  | .crcPoly =>
    match c.crcPoly with
    | .std => true
    | .poly v => decide (1 ≤ v.toNat ∧ v.toNat < 2 ^ regNat c.edcWidth)
  | .hamM => decide (1 ≤ c.hamM.toNat ∧ c.hamM.toNat ≤ 247)

/-- The configuration check (R49): the first `unset` field, then the first illegal one, by register number. -/
def configCheck (i : Instr) (s : State) : CmdResult Unit :=
  match (fieldsRead i).find? (fun f => s.cfg.isUnset f) with
  | some f => .error ⟨.cfgUnset, f.number, 0⟩
  | none =>
    match (fieldsRead i).find? (fun f => !s.cfg.isLegal s.params.arith i f) with
    | some f => .error ⟨.cfgInvalid, f.number, 0⟩
    | none => .ok ()

/-- `CfgRead(f)` of a field that may be `unset` (R39); after the configuration check it never faults (R422). -/
def cfgRead (f : CfgField) (o : Option Word32) : CmdResult Nat :=
  match o with
  | some v => .ok v.toNat
  | none => .error ⟨.cfgUnset, f.number, 0⟩

/-- `CfgRead(SAMPLING_RATE)` (R40). -/
def readSamplingRate (s : State) : CmdResult Nat := cfgRead .samplingRate s.cfg.samplingRate

/-- `CfgRead(CARRIER_FREQ)` (R42). -/
def readCarrierFreq (s : State) : CmdResult Nat := cfgRead .carrierFreq s.cfg.carrierFreq

/-- `CfgRead(MAX_FRAME_BYTES)` (R44). -/
def readMaxFrameBytes (s : State) : CmdResult Nat := cfgRead .maxFrameBytes s.cfg.maxFrameBytes

/-- `CfgRead(EDC_WIDTH)` (R45). -/
def readEdcWidth (s : State) : CmdResult Nat := cfgRead .edcWidth s.cfg.edcWidth

/-- `CfgRead(HAM_M)` (R47); the field always holds a value. -/
def readHamM (s : State) : CmdResult Nat := .ok s.cfg.hamM.toNat

/-- `CfgRead(AMPLITUDE)` (R43); the field always holds a value. -/
def readAmplitude (s : State) : CmdResult Sample := .ok s.cfg.amplitude

/-- `SPB = SAMPLING_RATE div BIT_RATE` (00_scope.md R13). -/
def readSpb (s : State) : CmdResult Nat := do
  let fs ← cfgRead .samplingRate s.cfg.samplingRate
  let br ← cfgRead .bitRate s.cfg.bitRate
  .ok (fs / br)

/-- The standard polynomial of a width (R46). -/
def stdPoly : Nat → Nat
  | 8 => 0xD5
  | 16 => 0x8005
  | 24 => 0x864CFB
  | 32 => 0x04C11DB7
  | _ => 0

/-- `poly(Wd)` (R46). -/
def Cfg.polyFor (c : Cfg) (wd : Nat) : Nat :=
  match c.crcPoly with
  | .std => stdPoly wd
  | .poly v => v.toNat

end Sys2Proof.Machine
end

