-- ==== Sys2Proof/Machine/Baseband.lean ====
section
/-!
DEFINITION. The NRZ-Polar, Manchester and Bipolar-AMI modulators (spec 43_baseband.md). Demodulators decide one bit per
complete window of SPB samples (R270); a trailing partial window is ignored.
-/

namespace Sys2Proof.Machine

/-- `SPB` copies of a sample. -/
def hold (p : Nat) (v : Sample) : List Sample := List.replicate p v

/-- The `nwin(x)` complete windows of `p` samples (R270). -/
def windows (p : Nat) (x : List Sample) : List (List Sample) := blocks p x

/-- NRZ.MOD's window for one bit (R271). -/
def nrzSymbol (ar : Arith) (p : Nat) (a : Sample) (b : Bit) : List Sample :=
  hold p (if b then a else ar.neg a)

/-- NRZ.DEM's decision: mean > 0 (R272). -/
def nrzDecide (ar : Arith) (w : List Sample) : Bit := ar.isPos (ar.mean w)

/-- MAN.MOD's window for one bit; the first half has `p div 2` samples (R275, R276). -/
def manSymbol (ar : Arith) (p : Nat) (a : Sample) (b : Bit) : List Sample :=
  if b then hold (p / 2) (ar.neg a) ++ hold (p - p / 2) a
  else hold (p / 2) a ++ hold (p - p / 2) (ar.neg a)

/-- MAN.DEM's decision on a window, by `MAN_DECIDE` (R277). -/
def manDecide (ar : Arith) (d : ManDecide) (p : Nat) (w : List Sample) : Bit :=
  let m1 := ar.mean (slice w 0 (p / 2))
  let m2 := ar.mean (slice w (p / 2) p)
  match d with
  | .compare => ar.lt m1 m2
  | .signs => ar.isNeg m1 && ar.isPos m2

/-- AMI.MOD's output; `pos` is the polarity of the next mark (R283). -/
def amiFrom (ar : Arith) (p : Nat) (a : Sample) : Bool → List Bit → List Sample
  | _, [] => []
  | pos, true :: b => hold p (if pos then a else ar.neg a) ++ amiFrom ar p a (!pos) b
  | pos, false :: b => hold p Sample.zero ++ amiFrom ar p a pos b

/-- AMI.MOD's output: the polarity starts at + in every command (R283, 10_state.md R58). -/
def amiModulate (ar : Arith) (p : Nat) (a : Sample) (b : List Bit) : List Sample := amiFrom ar p a true b

/-- AMI.DEM's decision: mean magnitude > A/2 (R284). -/
def amiDecide (ar : Arith) (a : Sample) (w : List Sample) : Bit :=
  ar.lt (ar.divNat a 2) (ar.mean (w.map ar.abs))

/-- NRZ.MOD (R271). -/
def execNrzMod (s : State) : Result := runCommand s do
  configCheck .nrzMod s
  let b ← needBits s
  let p ← readSpb s
  let a ← readAmplitude s
  bufWrite s (.samples (b.flatMap (nrzSymbol s.params.arith p a)))

/-- NRZ.DEM (R272). -/
def execNrzDem (s : State) : Result := runCommand s do
  configCheck .nrzDem s
  let x ← needSamples s
  let p ← readSpb s
  bufWrite s (.bits ((windows p x).map (nrzDecide s.params.arith)))

/-- MAN.MOD (R276). -/
def execManMod (s : State) : Result := runCommand s do
  configCheck .manMod s
  let b ← needBits s
  let p ← readSpb s
  let a ← readAmplitude s
  bufWrite s (.samples (b.flatMap (manSymbol s.params.arith p a)))

/-- MAN.DEM (R277). -/
def execManDem (s : State) : Result := runCommand s do
  configCheck .manDem s
  let x ← needSamples s
  let p ← readSpb s
  bufWrite s (.bits ((windows p x).map (manDecide s.params.arith s.params.manDecide p)))

/-- AMI.MOD (R283). -/
def execAmiMod (s : State) : Result := runCommand s do
  configCheck .amiMod s
  let b ← needBits s
  let p ← readSpb s
  let a ← readAmplitude s
  bufWrite s (.samples (amiModulate s.params.arith p a b))

/-- AMI.DEM (R284). -/
def execAmiDem (s : State) : Result := runCommand s do
  configCheck .amiDem s
  let x ← needSamples s
  let p ← readSpb s
  let a ← readAmplitude s
  bufWrite s (.bits ((windows p x).map (amiDecide s.params.arith a)))

end Sys2Proof.Machine
end

