-- ==== Sys2Proof/Machine/Carrier.lean ====
section
/-!
DEFINITION. The ASK, FSK, QPSK and QAM16 modulators (spec 44_carrier.md). The time base restarts in every window (R300);
no threshold or constant of the document is changed (93 I23, I24).
-/

namespace Sys2Proof.Machine

/-- `SIN(θ(f, k))` for `k < p` (R300). -/
def sinRef (ar : Arith) (fs f p : Nat) : List Sample := (List.range p).map (ar.sinAt fs f)

/-- `COS(θ(f, k))` for `k < p` (R300). -/
def cosRef (ar : Arith) (fs f p : Nat) : List Sample := (List.range p).map (ar.cosAt fs f)

/-- ASK.MOD's window for one bit (R301). -/
def askSymbol (ar : Arith) (fs f p : Nat) (a : Sample) (b : Bit) : List Sample :=
  if b then (sinRef ar fs f p).map (ar.mul a) else hold p Sample.zero

/-- ASK.DEM's threshold `0.25 · (A · A · p · 0.5)` (R302). -/
def askThreshold (ar : Arith) (p : Nat) (a : Sample) : Sample :=
  ar.mul (Sample.ofRat (1 / 4))
    (ar.mul (ar.mul (ar.mul a a) (Sample.ofNat p)) (Sample.ofRat (1 / 2)))

/-- ASK.DEM's decision: energy > threshold (R302). -/
def askDecide (ar : Arith) (p : Nat) (a : Sample) (w : List Sample) : Bit := ar.lt (askThreshold ar p a) (ar.dot w w)

/-- FSK.MOD's window for one bit: frequency f0 for 0, 2·f0 for 1 (R305). -/
def fskSymbol (ar : Arith) (fs f p : Nat) (a : Sample) (b : Bit) : List Sample :=
  (sinRef ar fs (if b then 2 * f else f) p).map (ar.mul a)

/-- FSK.DEM's decision: the larger absolute correlation wins, a tie is 0 (R306). -/
def fskDecide (ar : Arith) (fs f p : Nat) (w : List Sample) : Bit :=
  ar.lt (ar.abs (ar.dot w (sinRef ar fs f p))) (ar.abs (ar.dot w (sinRef ar fs (2 * f) p)))

/-- `phase(b0, b1)` as a multiple of PI/4: PI/4, 3·PI/4, 5·PI/4, 7·PI/4 (R310). -/
def qpskPhase : Bit → Bit → Nat
  | true, true => 1
  | true, false => 3
  | false, false => 5
  | false, true => 7

/-- QPSK.MOD's window for one bit pair (R311). -/
def qpskSymbol (ar : Arith) (fs f p : Nat) (a : Sample) (b : List Bit) : List Sample :=
  (List.range p).map fun k => ar.mul a (ar.cosShiftAt fs f k (qpskPhase (b.getD 0 false) (b.getD 1 false)))

/-- `sector(I, Q)` (R312); the spec's fourth case is what its first three leave. -/
def sector (ar : Arith) (i q : Sample) : List Bit :=
  if (ar.isPos q && ar.isPos i) || (ar.isZero q && ar.le Sample.zero i) then [true, true]
  else if ar.isPos q && ar.le i Sample.zero then [true, false]
  else if ar.le q Sample.zero && ar.isNeg i then [false, false]
  else [false, true]

/-- `I = sum w[k] · COS(θ(f, k))` (R312, R331). -/
def corrI (ar : Arith) (fs f p : Nat) (w : List Sample) : Sample := ar.dot w (cosRef ar fs f p)

/-- `Q = sum w[k] · (−SIN(θ(f, k)))` (R312, R331). -/
def corrQ (ar : Arith) (fs f p : Nat) (w : List Sample) : Sample := ar.dot w ((sinRef ar fs f p).map ar.neg)

/-- QPSK.DEM's decision on a window (R312). -/
def qpskDecide (ar : Arith) (fs f p : Nat) (w : List Sample) : List Bit :=
  sector ar (corrI ar fs f p w) (corrQ ar fs f p w)

/-- The level of a bit pair as a multiple of A: −3, −1, +1, +3 (R320). -/
def qamLevel : Bit → Bit → Int
  | true, false => -3
  | true, true => -1
  | false, true => 1
  | false, false => 3

/-- `unlvl`, the inverse of the level map on the four levels (R320). -/
def qamUnlevel (n : Int) : List Bit :=
  if n = -3 then [true, false]
  else if n = -1 then [true, true]
  else if n = 1 then [false, true]
  else [false, false]

/-- `n·A` for an integer `n`: `+A` and `−A` are the amplitude and its negation; `−3A`, `−2A`, `2A` and `3A` are the products of
A with the literals −3, −2, 2 and 3. That `−3A` is the product with −3 and not the negation of `3A`, and so for `−2A`, is a
DESIGN CHOICE, since the notation of R320 and R330 leaves it open (log 3); in the exact reals the two are one number. -/
def scaled (ar : Arith) (n : Int) (a : Sample) : Sample :=
  if n = 1 then a else if n = -1 then ar.neg a else ar.mul (Sample.ofRat (n : Rat)) a

/-- `lvl(b0, b1)` for amplitude A (R320). -/
def qamValue (ar : Arith) (a : Sample) (b0 b1 : Bit) : Sample := scaled ar (qamLevel b0 b1) a

/-- QAM.MOD's window for four bits: `g · (I·COS(θ) − Q·SIN(θ))` (R321). -/
def qamSymbol (ar : Arith) (fs f p : Nat) (a g : Sample) (b : List Bit) : List Sample :=
  let i := qamValue ar a (b.getD 0 false) (b.getD 1 false)
  let q := qamValue ar a (b.getD 2 false) (b.getD 3 false)
  (List.range p).map fun k =>
    ar.mul g (ar.sub (ar.mul i (ar.cosAt fs f k)) (ar.mul q (ar.sinAt fs f k)))

/-- `slice(num/den)` for `den > 0`, the level as a multiple of A (R330). -/
def qamSlice (ar : Arith) (a num den : Sample) : Int :=
  if ar.ltQuot num den (scaled ar (-2) a) then -3
  else if ar.ltQuot num den Sample.zero then -1
  else if ar.ltQuot num den (scaled ar 2 a) then 1
  else 3

/-- `Ec`, the energy of the cosine reference (R331). -/
def energyC (ar : Arith) (fs f p : Nat) : Sample := ar.dot (cosRef ar fs f p) (cosRef ar fs f p)

/-- `Eq`, the energy of the sine reference (R331). -/
def energyQ (ar : Arith) (fs f p : Nat) : Sample := ar.dot (sinRef ar fs f p) (sinRef ar fs f p)

/-- QAM.DEM's decision on a window (R331). -/
def qamDecide (ar : Arith) (fs f p : Nat) (a g : Sample) (w : List Sample) : List Bit :=
  qamUnlevel (qamSlice ar a (corrI ar fs f p w) (ar.mul g (energyC ar fs f p)))
    ++ qamUnlevel (qamSlice ar a (corrQ ar fs f p w) (ar.mul g (energyQ ar fs f p)))

/-- `Ec = 0` or `Eq = 0` (R331). -/
def zeroEnergy (ar : Arith) (fs f p : Nat) : Bool :=
  ar.isZero (energyC ar fs f p) || ar.isZero (energyQ ar fs f p)

/-- QAM.DEM's zero-energy check, part of the configuration check (R331, 10_state.md R50). -/
def energyCheck (ar : Arith) (fs f p : Nat) : CmdResult Unit :=
  if zeroEnergy ar fs f p then .error ⟨.cfgInvalid, 0x12, 0⟩ else .ok ()

/-- ASK.MOD (R301). -/
def execAskMod (s : State) : Result := runCommand s do
  configCheck .askMod s
  let b ← needBits s
  let fs ← readSamplingRate s
  let p ← readSpb s
  let f ← readCarrierFreq s
  let a ← readAmplitude s
  bufWrite s (.samples (b.flatMap (askSymbol s.params.arith fs f p a)))

/-- ASK.DEM (R302). -/
def execAskDem (s : State) : Result := runCommand s do
  configCheck .askDem s
  let x ← needSamples s
  let p ← readSpb s
  let a ← readAmplitude s
  bufWrite s (.bits ((windows p x).map (askDecide s.params.arith p a)))

/-- FSK.MOD (R305). -/
def execFskMod (s : State) : Result := runCommand s do
  configCheck .fskMod s
  let b ← needBits s
  let fs ← readSamplingRate s
  let p ← readSpb s
  let f ← readCarrierFreq s
  let a ← readAmplitude s
  bufWrite s (.samples (b.flatMap (fskSymbol s.params.arith fs f p a)))

/-- FSK.DEM (R306). -/
def execFskDem (s : State) : Result := runCommand s do
  configCheck .fskDem s
  let x ← needSamples s
  let fs ← readSamplingRate s
  let p ← readSpb s
  let f ← readCarrierFreq s
  bufWrite s (.bits ((windows p x).map (fskDecide s.params.arith fs f p)))

/-- QPSK.MOD (R311): an odd trailing bit is dropped. -/
def execQpskMod (s : State) : Result := runCommand s do
  configCheck .qpskMod s
  let b ← needBits s
  let fs ← readSamplingRate s
  let p ← readSpb s
  let f ← readCarrierFreq s
  let a ← readAmplitude s
  bufWrite s (.samples ((blocks 2 b).flatMap (qpskSymbol s.params.arith fs f p a)))

/-- QPSK.DEM (R312). -/
def execQpskDem (s : State) : Result := runCommand s do
  configCheck .qpskDem s
  let x ← needSamples s
  let fs ← readSamplingRate s
  let p ← readSpb s
  let f ← readCarrierFreq s
  bufWrite s (.bits ((windows p x).flatMap (qpskDecide s.params.arith fs f p)))

/-- QAM.MOD (R321): zero-padded to a multiple of 4 bits. -/
def execQamMod (s : State) : Result := runCommand s do
  configCheck .qamMod s
  let b ← needBits s
  let fs ← readSamplingRate s
  let p ← readSpb s
  let f ← readCarrierFreq s
  let a ← readAmplitude s
  bufWrite s (.samples ((blocks 4 (padZeros 4 b)).flatMap (qamSymbol s.params.arith fs f p a s.params.qamScale)))

/-- QAM.DEM (R331): the energy check comes with the configuration check, before the kind check. -/
def execQamDem (s : State) : Result := runCommand s do
  configCheck .qamDem s
  let fs ← readSamplingRate s
  let p ← readSpb s
  let f ← readCarrierFreq s
  let a ← readAmplitude s
  energyCheck s.params.arith fs f p
  let x ← needSamples s
  bufWrite s (.bits ((windows p x).flatMap (qamDecide s.params.arith fs f p a s.params.qamScale)))

end Sys2Proof.Machine
end

