-- ==== Sys2Proof/Machine/Edc.lean ====
section
/-!
DEFINITION. Parity, checksum and CRC (spec 41_edc.md). The check commands never fault on data: a mismatch or a short
input only sets `ST.ERR`.
-/

namespace Sys2Proof.Machine

/-- `par8(b)`: the XOR of the bits (R180). -/
def par8 (b : List Bit) : Bit := b.foldl (· ^^ ·) false

/-- PAR.ADD's output: each complete byte with its parity bit (R181). -/
def parAdd (s : List Bit) : List Bit := (blocks 8 s).flatMap fun b => b ++ [par8 b]

/-- PAR.CHK's payload: the first 8 bits of each complete 9-bit block (R182). -/
def parPayload (s : List Bit) : List Bit := (blocks 9 s).flatMap fun b => b.take 8

/-- PAR.CHK's flag: some complete block's parity bit does not match (R182). -/
def parError (s : List Bit) : Bool := (blocks 9 s).any fun b => par8 (b.take 8) != b.getD 8 false

/-- `edc_bytes(s)`: the bytes a checksum or CRC covers (R185). -/
def edcBytes (t : EdcTail) (s : List Bit) : List Nat :=
  match t with
  | .exclude => bytesOf s
  | .zeropad => bytesOf (s ++ List.replicate ((8 - s.length % 8) % 8) false)

/-- `cksum(s, Wd)` (R186). -/
def cksum (t : EdcTail) (s : List Bit) (wd : Nat) : Nat :=
  (2 ^ wd - 1 - (edcBytes t s).sum % 2 ^ wd) % 2 ^ wd

/-- One shift of the table loop (R196). -/
def crcShift (wd p c : Nat) : Nat :=
  if c &&& 2 ^ (wd - 1) ≠ 0 then ((c <<< 1) ^^^ p) &&& (2 ^ wd - 1)
  else (c <<< 1) &&& (2 ^ wd - 1)

/-- `T[i]`: eight shifts of `i << (Wd - 8)` (R196). -/
def crcTableEntry (wd p i : Nat) : Nat := (List.range 8).foldl (fun c _ => crcShift wd p c) (i <<< (wd - 8))

/-- `crc_table(Wd, P)`: 256 entries (R196); derived state, computed inside each CRC command (10_state.md R57). -/
def crcTable (wd p : Nat) : List Nat := (List.range 256).map (crcTableEntry wd p)

/-- One byte of the CRC loop (R197); the index is below 256, so `T[index]` is `crcTableEntry` of it. -/
def crcByte (wd p c b : Nat) : Nat :=
  ((c <<< 8) &&& (2 ^ wd - 1)) ^^^ crcTableEntry wd p (((c >>> (wd - 8)) ^^^ b) &&& 0xFF)

/-- `crc(s, Wd)` (R195, R197). -/
def crc (q : Params) (p : Nat) (s : List Bit) (wd : Nat) : Nat :=
  (edcBytes q.edcTail s).foldl (crcByte wd p) (q.crcInit &&& (2 ^ wd - 1)) ^^^ (q.crcXorOut &&& (2 ^ wd - 1))

/-- The payload of a stream with a trailing field of `wd` bits: every bit before it, none if the stream is
shorter (R188, R199; 30_encoding.md R102). -/
def edcPayload (wd : Nat) (s : List Bit) : List Bit :=
  if s.length < wd then [] else slice s 0 (s.length - wd)

/-- The trailing field of `wd` bits as a number (R188, R199). -/
def edcField (wd : Nat) (s : List Bit) : Nat := natOfBits (slice s (s.length - wd) s.length)

/-- The error flag of a check whose code is `code`: a short stream is an error, else the comparison (R188, R199). -/
def edcError (code : List Bit → Nat) (wd : Nat) (s : List Bit) : Bool :=
  if s.length < wd then true else code (edcPayload wd s) != edcField wd s

/-- PAR.ADD (R181). -/
def execParAdd (s : State) : Result := runCommand s do
  configCheck .parAdd s
  let b ← needBits s
  bufWrite s (.bits (parAdd b))

/-- PAR.CHK (R182). -/
def execParChk (s : State) : Result := runCommand s do
  configCheck .parChk s
  let b ← needBits s
  let t ← bufWrite s (.bits (parPayload b))
  .ok (t.setErr (parError b))

/-- CKS.ADD (R187). -/
def execCksAdd (s : State) : Result := runCommand s do
  configCheck .cksAdd s
  let b ← needBits s
  let wd ← readEdcWidth s
  bufWrite s (.bits (b ++ bitsOfNat (cksum s.params.edcTail b wd) wd))

/-- CKS.CHK (R188). -/
def execCksChk (s : State) : Result := runCommand s do
  configCheck .cksChk s
  let b ← needBits s
  let wd ← readEdcWidth s
  let t ← bufWrite s (.bits (edcPayload wd b))
  .ok (t.setErr (edcError (fun p => cksum s.params.edcTail p wd) wd b))

/-- CRC.ADD (R198). -/
def execCrcAdd (s : State) : Result := runCommand s do
  configCheck .crcAdd s
  let b ← needBits s
  let wd ← readEdcWidth s
  bufWrite s (.bits (b ++ bitsOfNat (crc s.params (s.cfg.polyFor wd) b wd) wd))

/-- CRC.CHK (R199). -/
def execCrcChk (s : State) : Result := runCommand s do
  configCheck .crcChk s
  let b ← needBits s
  let wd ← readEdcWidth s
  let t ← bufWrite s (.bits (edcPayload wd b))
  .ok (t.setErr (edcError (fun p => crc s.params (s.cfg.polyFor wd) p wd) wd b))

end Sys2Proof.Machine
end

