-- ==== Sys2Proof/Machine/Framers.lean ====
section
/-!
DEFINITION. The byte-count, bit-stuffing and byte-stuffing framers (spec 42_framers.md). The forward commands fault on a
payload over the frame limit; the reverse commands never fault on data and set no flag (90_conflicts.md C4).
-/

namespace Sys2Proof.Machine

/-- `FLAG = 01111110` (R233). -/
def flagBits : List Bit := [false, true, true, true, true, true, true, false]

/-- `ESC = 01111101` (R233). -/
def escBits : List Bit := [false, true, true, true, true, true, false, true]

/-- `MASK = 00100000` (R233). -/
def maskBits : List Bit := [false, false, true, false, false, false, false, false]

/-- The bitwise XOR of two 8-bit sequences (R238). -/
def xorBits (a b : List Bit) : List Bit := List.zipWith (· ^^ ·) a b

/-- `check_frame_size(s, mfb)` on the payload, before anything is added (R230). -/
def checkFrameSize (s : List Bit) (mfb : Nat) : CmdResult Unit :=
  if 8 * mfb < s.length then .error ⟨.frameTooLarge, s.length, 8 * mfb⟩ else .ok ()

/-- BCF.FRM's frame: the 16-bit length in bits, then the payload (R231). -/
def bcfFrame (s : List Bit) : List Bit := bitsOfNat s.length 16 ++ s

/-- BCF.UNF's payload: `f[16..16+L)`, clipped; empty for a frame shorter than 16 bits (R232). -/
def bcfUnframe (f : List Bit) : List Bit :=
  if f.length < 16 then [] else slice f 16 (16 + natOfBits (slice f 0 16))

/-- `stuff(s)` with `c` 1-bits just sent (R234). -/
def stuffFrom : Nat → List Bit → List Bit
  | _, [] => []
  | c, true :: s => if c + 1 = 5 then true :: false :: stuffFrom 0 s else true :: stuffFrom (c + 1) s
  | _, false :: s => false :: stuffFrom 0 s

/-- `stuff(s)`: a 0 after every run of five 1-bits (R234). -/
def stuff (s : List Bit) : List Bit := stuffFrom 0 s

/-- `unstuff(b)` with `c` 1-bits just received; at five the next bit is skipped, whatever it is (R236). -/
def unstuffFrom : Nat → List Bit → List Bit
  | _, [] => []
  | c, x :: b => if c = 5 then unstuffFrom 0 b else x :: unstuffFrom (if x then c + 1 else 0) b

/-- `unstuff(b)` (R236). -/
def unstuff (b : List Bit) : List Bit := unstuffFrom 0 b

/-- One complete byte of `escape(s)` (R238). -/
def escapeByte (ch : List Bit) : List Bit :=
  if ch = flagBits ∨ ch = escBits then escBits ++ xorBits ch maskBits else ch

/-- `escape(s)`: the complete bytes escaped, the tail passed through (R238). -/
def escape (s : List Bit) : List Bit := (blocks 8 s).flatMap escapeByte ++ tailBits s

/-- `unescape` over the complete bytes, `t` the bits after them: an ESC with no complete byte after it ends the output
and discards `t` (R240). -/
def unescapeBytes (t : List Bit) : List (List Bit) → List Bit
  | [] => t
  | ch :: rest =>
    if ch = escBits then
      match rest with
      | [] => []
      | next :: rest' => xorBits next maskBits ++ unescapeBytes t rest'
    else ch ++ unescapeBytes t rest

/-- `unescape(b)` (R240). -/
def unescape (b : List Bit) : List Bit := unescapeBytes (tailBits b) (blocks 8 b)

/-- A body between two flags (R104, R105). -/
def wrapFlags (b : List Bit) : List Bit := flagBits ++ b ++ flagBits

/-- The flags stripped by position, not compared: `f[8 .. len(f)-8)` (R237, R241). -/
def stripFlags (f : List Bit) : List Bit := slice f 8 (f.length - 8)

/-- BSF.UNF's payload (R237). -/
def bsfUnframe (f : List Bit) : List Bit := if f.length ≤ 16 then [] else unstuff (stripFlags f)

/-- YSF.UNF's payload (R241). -/
def ysfUnframe (f : List Bit) : List Bit := if f.length ≤ 16 then [] else unescape (stripFlags f)

/-- BCF.FRM (R231). -/
def execBcfFrm (s : State) : Result := runCommand s do
  configCheck .bcfFrm s
  let b ← needBits s
  let mfb ← readMaxFrameBytes s
  checkFrameSize b mfb
  bufWrite s (.bits (bcfFrame b))

/-- BCF.UNF (R232). -/
def execBcfUnf (s : State) : Result := runCommand s do
  configCheck .bcfUnf s
  let f ← needBits s
  bufWrite s (.bits (bcfUnframe f))

/-- BSF.FRM (R235). -/
def execBsfFrm (s : State) : Result := runCommand s do
  configCheck .bsfFrm s
  let b ← needBits s
  let mfb ← readMaxFrameBytes s
  checkFrameSize b mfb
  bufWrite s (.bits (wrapFlags (stuff b)))

/-- BSF.UNF (R237). -/
def execBsfUnf (s : State) : Result := runCommand s do
  configCheck .bsfUnf s
  let f ← needBits s
  bufWrite s (.bits (bsfUnframe f))

/-- YSF.FRM (R239). -/
def execYsfFrm (s : State) : Result := runCommand s do
  configCheck .ysfFrm s
  let b ← needBits s
  let mfb ← readMaxFrameBytes s
  checkFrameSize b mfb
  bufWrite s (.bits (wrapFlags (escape b)))

/-- YSF.UNF (R241). -/
def execYsfUnf (s : State) : Result := runCommand s do
  configCheck .ysfUnf s
  let f ← needBits s
  bufWrite s (.bits (ysfUnframe f))

end Sys2Proof.Machine
end

