-- ==== Sys2Proof/Machine/Hamming.lean ====
section
/-!
DEFINITION. The Hamming encoder and decoder (spec 40_hamming.md, 30_encoding.md R100). The code corrects single errors
and has no double-error detection (R158, 90_conflicts.md C3).
-/

namespace Sys2Proof.Machine

/-- `pow2(j)`: `j` is a power of two (R150). -/
def isPow2 (j : Nat) : Bool := j != 0 && 2 ^ Nat.log2 j == j

/-- `r_of(m)`: the smallest `r` with `2^r ≥ m + r + 1` (R151); `r ≤ m + 1` always suffices. -/
def rOf (m : Nat) : Nat := ((List.range (m + 2)).find? fun r => decide (m + r + 1 ≤ 2 ^ r)).getD 0

/-- `n_of(m) = m + r_of(m)` (R151). -/
def nOf (m : Nat) : Nat := m + rOf m

/-- The codeword positions `j, j+1, ...` (`k` of them) with the data bits in order in the positions that are no power
of two and 0 in the others (R152). -/
def hamPlace : Nat → Nat → List Bit → List Bit
  | 0, _, _ => []
  | k + 1, j, d =>
    if isPow2 j then false :: hamPlace k (j + 1) d
    else d.headD false :: hamPlace k (j + 1) d.tail

/-- The data bits of a codeword whose first bit is at position `j`: `c[j]` for `j` in `dpos(n)`, in order (R150). -/
def hamExtract : Nat → List Bit → List Bit
  | _, [] => []
  | j, b :: c => if isPow2 j then hamExtract (j + 1) c else b :: hamExtract (j + 1) c

/-- The XOR of `c[j]` over the positions `j` with `(j AND p) ≠ 0`, the first bit of `c` being at position `j` (R153). -/
def hamParity (p : Nat) : Nat → List Bit → Bit
  | _, [] => false
  | j, b :: c => ((j &&& p != 0) && b) ^^ hamParity p (j + 1) c

/-- The XOR of `c[j]` over the positions `j` with `(j AND p) ≠ 0` and `j ≠ p` (R152). -/
def hamParityBut (p : Nat) : Nat → List Bit → Bit
  | _, [] => false
  | j, b :: c => ((j &&& p != 0) && (j != p) && b) ^^ hamParityBut p (j + 1) c

/-- `c[p] <- XOR of c[j] over all j with (j AND p) ≠ 0 and j ≠ p`, for `p = 2^i` (R152). -/
def hamSetParity (c : List Bit) (i : Nat) : List Bit := c.set (2 ^ i - 1) (hamParityBut (2 ^ i) 1 c)

/-- `ham_encode(d)` (R152): the data placed, then the parity bits in increasing order of `i`. -/
def hamEncode (d : List Bit) : List Bit :=
  (List.range (rOf d.length)).foldl hamSetParity (hamPlace (nOf d.length) 1 d)

/-- The syndrome of a codeword: the sum of the `p = 2^i ≤ n` whose check fails (R153). -/
def hamSyndrome (c : List Bit) : Nat :=
  ((List.range (c.length + 1)).filter fun i => decide (2 ^ i ≤ c.length)).foldl
    (fun s i => if hamParity (2 ^ i) 1 c then s + 2 ^ i else s) 0

/-- Single-bit correction: the bit at position `s` is flipped if `s ≠ 0` and `s ≤ n` (R153). -/
def hamCorrect (c : List Bit) (s : Nat) : List Bit :=
  if s ≠ 0 ∧ s ≤ c.length then c.modify (s - 1) not else c

/-- `ham_decode(c)` (R153): the data and the syndrome. -/
def hamDecode (c : List Bit) : List Bit × Nat :=
  (hamExtract 1 (hamCorrect c (hamSyndrome c)), hamSyndrome c)

/-- The stream encoder's output (R156). -/
def hamEncodeStream (m : Nat) (s : List Bit) : List Bit :=
  (blocks m (padZeros m (bitsOfBytes (bytesOf s)))).flatMap hamEncode

/-- The stream decoder's data: of the complete blocks, in complete bytes (R157). -/
def hamDecodeStream (m : Nat) (s : List Bit) : List Bit :=
  let data := (blocks (nOf m) s).flatMap fun c => (hamDecode c).1
  slice data 0 (8 * (data.length / 8))

/-- The number of complete blocks with a nonzero syndrome (R157). -/
def hamCorrections (m : Nat) (s : List Bit) : Nat :=
  ((blocks (nOf m) s).filter fun c => (hamDecode c).2 != 0).length

/-- HAM.ENC1 (R154). -/
def execHamEnc1 (s : State) : Result := runCommand s do
  configCheck .hamEnc1 s
  let d ← needBits s
  let m ← readHamM s
  if d.length ≠ m then .error ⟨.badLength, d.length, m⟩
  else bufWrite s (.bits (hamEncode d))

/-- HAM.DEC1 (R155). -/
def execHamDec1 (s : State) : Result := runCommand s do
  configCheck .hamDec1 s
  let c ← needBits s
  let m ← readHamM s
  if c.length ≠ nOf m then .error ⟨.badLength, c.length, nOf m⟩
  else do
    let t ← bufWrite s (.bits (hamDecode c).1)
    .ok (t.setSynd (hamDecode c).2)

/-- HAM.ENC (R156). -/
def execHamEnc (s : State) : Result := runCommand s do
  configCheck .hamEnc s
  let b ← needBits s
  let m ← readHamM s
  bufWrite s (.bits (hamEncodeStream m b))

/-- HAM.DEC (R157). -/
def execHamDec (s : State) : Result := runCommand s do
  configCheck .hamDec s
  let b ← needBits s
  let m ← readHamM s
  let t ← bufWrite s (.bits (hamDecodeStream m b))
  .ok (t.setCorr (hamCorrections m b))

end Sys2Proof.Machine
end

