-- ==== Sys2Proof/Machine/System.lean ====
section
/-!
DEFINITION. The system commands NOP, CLRF, CLRS, SRST (spec 45_system.md R350 to R353). None reads W or a configuration
field, and none can fault.
-/

namespace Sys2Proof.Machine

/-- NOP (R350): nothing; ignored while a fault is pending, to the same effect. -/
def execNop (s : State) : Result := runCommand s (.ok s)

/-- CLRF (R351): clears FAULT, FINFO0, FINFO1; runs whether or not a fault is pending (60_exceptions.md R426). -/
def execClrf (s : State) : Result := .next s.clearFault

/-- CLRS (R352): clears ERR, CORR, SYND; ignored while a fault is pending. -/
def execClrs (s : State) : Result := runCommand s (.ok s.clearStats)

/-- SRST (R353): the reset event; runs whether or not a fault is pending (60_exceptions.md R426). -/
def execSrst (s : State) : Result := .next s.resetCore

end Sys2Proof.Machine
end

