-- ==== Sys2Proof/Machine/Dispatch.lean ====
section
/-!
DEFINITION. What each command does to the state (spec 60_exceptions.md R422, steps 1, 3 and 4; step 2, the reserved
words, is the decoder's). One arm per command.
-/

namespace Sys2Proof.Machine

def exec (i : Instr) (s : State) : Host.Outcome State Fault Refusal :=
  match i with
  | .nop => Sys2Proof.Machine.execNop s
  | .clrf => Sys2Proof.Machine.execClrf s
  | .clrs => Sys2Proof.Machine.execClrs s
  | .srst => Sys2Proof.Machine.execSrst s
  | .hamEnc => Sys2Proof.Machine.execHamEnc s
  | .hamDec => Sys2Proof.Machine.execHamDec s
  | .hamEnc1 => Sys2Proof.Machine.execHamEnc1 s
  | .hamDec1 => Sys2Proof.Machine.execHamDec1 s
  | .parAdd => Sys2Proof.Machine.execParAdd s
  | .parChk => Sys2Proof.Machine.execParChk s
  | .cksAdd => Sys2Proof.Machine.execCksAdd s
  | .cksChk => Sys2Proof.Machine.execCksChk s
  | .crcAdd => Sys2Proof.Machine.execCrcAdd s
  | .crcChk => Sys2Proof.Machine.execCrcChk s
  | .bcfFrm => Sys2Proof.Machine.execBcfFrm s
  | .bcfUnf => Sys2Proof.Machine.execBcfUnf s
  | .bsfFrm => Sys2Proof.Machine.execBsfFrm s
  | .bsfUnf => Sys2Proof.Machine.execBsfUnf s
  | .ysfFrm => Sys2Proof.Machine.execYsfFrm s
  | .ysfUnf => Sys2Proof.Machine.execYsfUnf s
  | .nrzMod => Sys2Proof.Machine.execNrzMod s
  | .nrzDem => Sys2Proof.Machine.execNrzDem s
  | .manMod => Sys2Proof.Machine.execManMod s
  | .manDem => Sys2Proof.Machine.execManDem s
  | .amiMod => Sys2Proof.Machine.execAmiMod s
  | .amiDem => Sys2Proof.Machine.execAmiDem s
  | .askMod => Sys2Proof.Machine.execAskMod s
  | .askDem => Sys2Proof.Machine.execAskDem s
  | .fskMod => Sys2Proof.Machine.execFskMod s
  | .fskDem => Sys2Proof.Machine.execFskDem s
  | .qpskMod => Sys2Proof.Machine.execQpskMod s
  | .qpskDem => Sys2Proof.Machine.execQpskDem s
  | .qamMod => Sys2Proof.Machine.execQamMod s
  | .qamDem => Sys2Proof.Machine.execQamDem s

end Sys2Proof.Machine
end

