-- ==== Sys2Proof/Machine/HostInterface.lean ====
section
/-!
DEFINITION. The host interface: the actions of the host on the core, and the channel (spec 46_host_interface.md R370 to
R376, R380; 10_state.md R35, R36).
-/

namespace Sys2Proof.Machine

/-- `EXEC(c)` (R375): the execution sequence of 60_exceptions.md R422 for the word `c`. -/
def execWord (c : Byte) (s : State) : Result :=
  match decode c with
  | .ok i => exec i s
  | .error (.reservedWord w) => execReserved w s

/-- The value a write of `v` to CRC_POLY stores: 0 is `STD` (10_state.md R46). -/
def crcPolyOf (v : Word32) : CrcPoly := if v = 0 then .std else .poly v

/-- The value AMPLITUDE holds after a write of the number `v`. -/
def amplitudeOf (v : Word32) : Sample := Sample.ofRat (v.toNat : Rat)

/-- A host write of `v` to the register `n` other than CMD (R373, 10_state.md R36): a configuration field stores
it whatever it is; every other number ignores it. -/
def writeReg (n : Byte) (v : Word32) (s : State) : State :=
  if n = 0x10 then { s with cfg := { s.cfg with samplingRate := some v } }
  else if n = 0x11 then { s with cfg := { s.cfg with bitRate := some v } }
  else if n = 0x12 then { s with cfg := { s.cfg with carrierFreq := some v } }
  else if n = 0x13 then { s with cfg := { s.cfg with amplitude := amplitudeOf v } }
  else if n = 0x14 then { s with cfg := { s.cfg with maxFrameBytes := some v } }
  else if n = 0x15 then { s with cfg := { s.cfg with edcWidth := some v } }
  else if n = 0x16 then { s with cfg := { s.cfg with crcPoly := crcPolyOf v } }
  else if n = 0x17 then { s with cfg := { s.cfg with hamM := v } }
  else s

/-- A host write of a sample to AMPLITUDE (R373, 10_state.md R43). -/
def writeAmplitude (a : Sample) (s : State) : State := { s with cfg := { s.cfg with amplitude := a } }

/-- The value CRC_POLY reads as: `STD` reads 0 (R374). -/
def CrcPoly.readNat : CrcPoly → Nat
  | .std => 0
  | .poly v => v.toNat

/-- `RDREG(n)` (R374): status and configuration as stored; `unset`, CMD and every reserved number read 0. -/
def readReg (n : Byte) (s : State) : HostValue :=
  if n = 0x01 then .nat s.statusByte.toNat
  else if n = 0x02 then .nat s.st.fault.toByte.toNat
  else if n = 0x03 then .nat s.st.finfo0.toNat
  else if n = 0x04 then .nat s.st.finfo1.toNat
  else if n = 0x05 then .nat s.st.corr
  else if n = 0x06 then .nat s.st.synd.toNat
  else if n = 0x10 then .nat (regNat s.cfg.samplingRate)
  else if n = 0x11 then .nat (regNat s.cfg.bitRate)
  else if n = 0x12 then .nat (regNat s.cfg.carrierFreq)
  else if n = 0x13 then .sample s.cfg.amplitude
  else if n = 0x14 then .nat (regNat s.cfg.maxFrameBytes)
  else if n = 0x15 then .nat (regNat s.cfg.edcWidth)
  else if n = 0x16 then .nat s.cfg.crcPoly.readNat
  else if n = 0x17 then .nat s.cfg.hamM.toNat
  else .nat 0

/-- A value handed back to the host joins the values returned so far (R376). -/
def State.give (s : State) (v : HostValue) : State := { s with returned := s.returned ++ [v] }

/-- `x[k] + e[k]` for every `k`, the sequences of the same length (R380). -/
def addDraw (ar : Arith) (x e : List Sample) : List Sample := List.zipWith ar.add x e

/-- The channel's step (R380): on samples, elementwise addition of the draw; refused on bits, and for a draw of another
length. -/
def runChan (d : Draw) (s : State) : Result :=
  match s.w, d with
  | .bits _, _ => .refused .chanOnBits
  | .samples x, .zero => .next { s with w := .samples (addDraw s.params.arith x (List.replicate x.length Sample.zero)) }
  | .samples x, .seq e =>
    if e.length = x.length then .next { s with w := .samples (addDraw s.params.arith x e) } else .refused .chanDrawLength

/-- `LOADW` (R371): W is replaced and nothing else changes; more than `BUF_CAP` elements is refused. -/
def runLoadw (v : Buffer) (s : State) : Result :=
  if bufFits s.params v.length then .next { s with w := v } else .refused .loadwOverCapacity

/-- `WRREG(n, v)` (R373): CMD executes an 8-bit word; a wider value is no command word and is refused (log 7). -/
def runWrreg (n : Byte) (v : Word32) (s : State) : Result :=
  if n = 0x00 then
    if v.toNat < 256 then execWord (BitVec.ofNat 8 v.toNat) s else .refused .commandTooWide
  else .next (writeReg n v s)

/-- One action of the host program (R370, R380). Host actions are never ignored because of a pending fault. -/
def runAction (a : HostAction) (s : State) : Result :=
  match a with
  | .loadw v => runLoadw v s
  | .readw => .next (s.give (.buffer s.w))
  | .wrreg n v => runWrreg n v s
  | .wrAmplitude x => .next (writeAmplitude x s)
  | .rdreg n => .next (s.give (readReg n s))
  | .exec c => execWord c s
  | .chan d => runChan d s

/-- The next action of the host program, in program order (R376). With no action left the core is idle between host
actions and keeps all its state (60_exceptions.md R437). -/
def runNext (s : State) : Result :=
  match s.program with
  | [] => .next s
  | a :: rest => runAction a { s with program := rest }

/-- The next action of the host program is `EXEC` of the word whose bits are `w`. -/
def State.withCommand (s : State) (w : Nat) : State :=
  { s with program := .exec (BitVec.ofNat 8 w) :: s.program }

end Sys2Proof.Machine
end

