-- ==== Sys2Proof/Machine/Step.lean ====
section
/-!
DEFINITION. One step of the machine: the next action of the host program (spec 46_host_interface.md R370, R376; 20_memory.md
R80, R81), and the placing of a command where the next step executes it.
-/

namespace Sys2Proof.Machine

/-- One step (R376). -/
def step (s : State) : Host.Outcome State Fault Refusal := runNext s

/-- `s` with the command word `w` written to CMD by the next step. The core fetches nothing (10_state.md R34): a
program is a list of host actions, so the word becomes the host's next action (log 2). Every command has 8 bits. -/
def State.withFetchWord (s : State) (_nbits w : Nat) : State := s.withCommand w

end Sys2Proof.Machine
end

