-- ==== Sys2Proof/Machine/HostProgram.lean ====
section
/-!
DEFINITION. Host programs: the mnemonics and register names, the pseudo-instructions TX and RX, the lines that are
mnemonics, the text conversions, and the calls transmit, receive and getStatus (spec 30_encoding.md R120 to R124, 46_host_interface.md R374, R381 to R385). These are the host's, not the core's.
-/

namespace Sys2Proof.Machine

/-- The host's choice of framer (R122). -/
inductive FramerKind where
  | bcf
  | bsf
  | ysf
  deriving DecidableEq, Repr

/-- The host's choice of detector (R122). -/
inductive DetectorKind where
  | par
  | cks
  | crc
  deriving DecidableEq, Repr

/-- The host's choice of modulator (R122). -/
inductive ModulatorKind where
  | nrz
  | man
  | ami
  | ask
  | fsk
  | qpsk
  | qam
  deriving DecidableEq, Repr

/-- `F.FRM` (R123). -/
def FramerKind.frame : FramerKind → Instr
  | .bcf => .bcfFrm
  | .bsf => .bsfFrm
  | .ysf => .ysfFrm

/-- `F.UNF` (R124). -/
def FramerKind.unframe : FramerKind → Instr
  | .bcf => .bcfUnf
  | .bsf => .bsfUnf
  | .ysf => .ysfUnf

/-- `D.ADD` (R123). -/
def DetectorKind.add : DetectorKind → Instr
  | .par => .parAdd
  | .cks => .cksAdd
  | .crc => .crcAdd

/-- `D.CHK` (R124). -/
def DetectorKind.check : DetectorKind → Instr
  | .par => .parChk
  | .cks => .cksChk
  | .crc => .crcChk

/-- `M.MOD` (R123). -/
def ModulatorKind.mod : ModulatorKind → Instr
  | .nrz => .nrzMod
  | .man => .manMod
  | .ami => .amiMod
  | .ask => .askMod
  | .fsk => .fskMod
  | .qpsk => .qpskMod
  | .qam => .qamMod

/-- `M.DEM` (R124). -/
def ModulatorKind.dem : ModulatorKind → Instr
  | .nrz => .nrzDem
  | .man => .manDem
  | .ami => .amiDem
  | .ask => .askDem
  | .fsk => .fskDem
  | .qpsk => .qpskDem
  | .qam => .qamDem

/-- A mnemonic as a line of a host program: a write of its word to CMD (R120). -/
def command (i : Instr) : HostAction := .exec (encode i)

/-- The mnemonics of the commands, spelled exactly as R111 spells them (R121). -/
def mnemonics : List (String × Instr) :=
  [("NOP", .nop), ("CLRF", .clrf), ("CLRS", .clrs), ("SRST", .srst)]
  ++ [("HAM.ENC", .hamEnc), ("HAM.DEC", .hamDec), ("HAM.ENC1", .hamEnc1), ("HAM.DEC1", .hamDec1)]
  ++ [("PAR.ADD", .parAdd), ("PAR.CHK", .parChk), ("CKS.ADD", .cksAdd), ("CKS.CHK", .cksChk)]
  ++ [("CRC.ADD", .crcAdd), ("CRC.CHK", .crcChk), ("BCF.FRM", .bcfFrm), ("BCF.UNF", .bcfUnf)]
  ++ [("BSF.FRM", .bsfFrm), ("BSF.UNF", .bsfUnf), ("YSF.FRM", .ysfFrm), ("YSF.UNF", .ysfUnf)]
  ++ [("NRZ.MOD", .nrzMod), ("NRZ.DEM", .nrzDem), ("MAN.MOD", .manMod), ("MAN.DEM", .manDem)]
  ++ [("AMI.MOD", .amiMod), ("AMI.DEM", .amiDem), ("ASK.MOD", .askMod), ("ASK.DEM", .askDem)]
  ++ [("FSK.MOD", .fskMod), ("FSK.DEM", .fskDem), ("QPSK.MOD", .qpskMod), ("QPSK.DEM", .qpskDem)]
  ++ [("QAM.MOD", .qamMod), ("QAM.DEM", .qamDem)]

/-- The register names of `wr` and `rd` lines (R120, 10_state.md R35). -/
def registerNames : List (String × Byte) :=
  [("CMD", 0x00), ("STATUS", 0x01), ("FAULT", 0x02), ("FINFO0", 0x03), ("FINFO1", 0x04), ("CORR", 0x05), ("SYND", 0x06)]
  ++ [("SAMPLING_RATE", 0x10), ("BIT_RATE", 0x11), ("CARRIER_FREQ", 0x12), ("AMPLITUDE", 0x13)]
  ++ [("MAX_FRAME_BYTES", 0x14), ("EDC_WIDTH", 0x15), ("CRC_POLY", 0x16), ("HAM_M", 0x17)]

/-- The register a name stands for (R120). -/
def registerNumber (name : String) : Option Byte := registerNames.lookup name

/-- `TX F, D, M, ham` (R123). -/
def tx (f : FramerKind) (d : DetectorKind) (m : ModulatorKind) (ham : Bool) : List HostAction :=
  ((if ham then [Instr.hamEnc] else []) ++ [d.add, f.frame, m.mod]).map command

/-- `RX F, D, M, ham` (R124). -/
def rx (f : FramerKind) (d : DetectorKind) (m : ModulatorKind) (ham : Bool) : List HostAction :=
  ([Instr.clrs, m.dem, f.unframe, d.check] ++ (if ham then [Instr.hamDec] else [])).map command

/-- What a mnemonic stands for: a command of R111, or a pseudo-instruction of R122. -/
inductive Mnemonic where
  | command (i : Instr)
  | tx
  | rx
  deriving DecidableEq, Repr

/-- The pseudo-instructions' mnemonics (R122). -/
def pseudoMnemonics : List (String × Mnemonic) := [("TX", .tx), ("RX", .rx)]

/-- The mnemonic a spelling stands for; none where it is in neither R111 nor R122 (R121). -/
def readMnemonic (name : String) : Option Mnemonic :=
  ((mnemonics.lookup name).map Mnemonic.command).or (pseudoMnemonics.lookup name)

/-- The framers F of R122. -/
def framerNames : List (String × FramerKind) := [("BCF", .bcf), ("BSF", .bsf), ("YSF", .ysf)]

/-- The detectors D of R122. -/
def detectorNames : List (String × DetectorKind) := [("PAR", .par), ("CKS", .cks), ("CRC", .crc)]

/-- The modulators M of R122. -/
def modulatorNames : List (String × ModulatorKind) :=
  [("NRZ", .nrz), ("MAN", .man), ("AMI", .ami), ("ASK", .ask)] ++ [("FSK", .fsk), ("QPSK", .qpsk), ("QAM", .qam)]

/-- The operands `F, D, M, ham` of a pseudo-instruction: F, D and M as they are spelled, and the Boolean `ham` (R122), of
which the spec gives the value and no spelling (DESIGN CHOICE, safe: log 11). -/
structure PseudoOperands where
  framer : String
  detector : String
  modulator : String
  ham : Bool
  deriving DecidableEq, Repr

/-- An expansion with the components the operands name; none where F, D or M is not one of R122's. -/
def PseudoOperands.expand (o : PseudoOperands)
    (expansion : FramerKind → DetectorKind → ModulatorKind → Bool → List HostAction) : Option (List HostAction) :=
  match framerNames.lookup o.framer, detectorNames.lookup o.detector, modulatorNames.lookup o.modulator with
  | some f, some d, some m => some (expansion f d m o.ham)
  | _, _, _ => none

/-- The host actions of a line that is a mnemonic with its operands: a command has none (R112) and is one action, TX and
RX have theirs and are the actions they expand to (R123, R124). A line whose mnemonic is in neither R111 nor R122 is no
program (R121), nor is one whose operands are not its mnemonic's (DESIGN CHOICE, safe: log 11). -/
def assemble (name : String) (operands : Option PseudoOperands) : Option (List HostAction) :=
  match readMnemonic name, operands with
  | some (.command i), none => some [command i]
  | some .tx, some o => o.expand tx
  | some .rx, some o => o.expand rx
  | some (.command _), some _ => none
  | some .tx, none => none
  | some .rx, none => none
  | none, _ => none

/-- `textToBits(text)` (R381); not defined on a text with a code point over 255 (93 I21). -/
def textToBits (text : List Char) : Option (List Bit) :=
  if text.all (fun ch => decide (ch.toNat ≤ 255)) then some (bitsOfBytes (text.map Char.toNat)) else none

/-- `bitsToText(s)` (R382): every byte outside [32, 126] is skipped. -/
def bitsToText (s : List Bit) : List Char :=
  ((bytesOf s).filter fun v => decide (32 ≤ v ∧ v ≤ 126)).map Char.ofNat

/-- The host program of `transmit(text)` (R385). -/
def transmit (text : List Char) (f : FramerKind) (d : DetectorKind) (m : ModulatorKind) (ham : Bool) :
    Option (List HostAction) :=
  (textToBits text).map fun b => [.loadw (.bits b)] ++ tx f d m ham ++ [.readw]

/-- The host program of `receive(samples)` (R385). -/
def receive (x : List Sample) (f : FramerKind) (d : DetectorKind) (m : ModulatorKind) (ham : Bool) :
    List HostAction :=
  [.loadw (.samples x)] ++ rx f d m ham ++ [.readw, .rdreg 0x01, .rdreg 0x05]

/-- `getStatus() = (errorDetected, errorsCorrected)`, from STATUS bit 0 and CORR (R374). -/
def getStatus (s : State) : Bool × Nat := (s.statusByte.getLsbD 0, s.st.corr)

end Sys2Proof.Machine
end

