-- ==== Sys2Proof/Safety.lean ====
section
/-!
DEFINITION. The terms that claims about the machine use: what it is for a sample arithmetic to compute with real numbers, the
real formulas of the modulator rules, a faulted state, a command's operands and when they are ready, the invariant of every
reachable state.
-/

namespace Sys2Proof

/-- The real number a list of terms stands for. -/
noncomputable def Sample.termsReal (ts : List (Rat × Rat)) : ℝ :=
  (ts.map fun t => (t.2 : ℝ) * Real.cos (2 * Real.pi * (t.1 : ℝ))).sum

/-- The real number a sample stands for in the exact arithmetic: the sum of `c · cos(2π·q)` over its terms
(spec 00_scope.md R7, R11). -/
noncomputable def Sample.toReal (x : Sample) : ℝ := Sample.termsReal x.terms

/-- The carrier phase `θ(f, k) = 2 · PI · f · k / SAMPLING_RATE` (44_carrier.md R300). -/
noncomputable def Machine.theta (fs f k : Nat) : ℝ := 2 * Real.pi * f * k / fs

/-- The arithmetic computes with real numbers, the sample `x` being the number `ρ x`: the exact reals that R7 recommends.
`Arith.exact` does, with `Sample.toReal` (Laws/Arith.lean). -/
structure Arith.IsReal (ar : Arith) (ρ : Sample → ℝ) : Prop where
  ofRat : ∀ r : Rat, ρ (Sample.ofRat r) = (r : ℝ)
  add : ∀ x y, ρ (ar.add x y) = ρ x + ρ y
  sub : ∀ x y, ρ (ar.sub x y) = ρ x - ρ y
  mul : ∀ x y, ρ (ar.mul x y) = ρ x * ρ y
  neg : ∀ x, ρ (ar.neg x) = -ρ x
  abs : ∀ x, ρ (ar.abs x) = |ρ x|
  lt : ∀ x y, ar.lt x y = true ↔ ρ x < ρ y
  le : ∀ x y, ar.le x y = true ↔ ρ x ≤ ρ y
  eq : ∀ x y, ar.eq x y = true ↔ ρ x = ρ y
  divNat : ∀ (x : Sample) (n : Nat), ρ (ar.divNat x n) = ρ x / n
  ltQuot : ∀ x y b, 0 < ρ y → (ar.ltQuot x y b = true ↔ ρ x / ρ y < ρ b)
  sinAt : ∀ fs f k, ρ (ar.sinAt fs f k) = Real.sin (Machine.theta fs f k)
  cosAt : ∀ fs f k, ρ (ar.cosAt fs f k) = Real.cos (Machine.theta fs f k)
  cosShiftAt : ∀ (fs f k e : Nat), ρ (ar.cosShiftAt fs f k e) = Real.cos (Machine.theta fs f k + e * (Real.pi / 4))

namespace Machine

/-! ### Real formulas -/

/-- `mean(w)` on reals (00_scope.md R11). -/
noncomputable def realMean (w : List ℝ) : ℝ := w.sum / w.length

/-- `window(x, i)` of 43_baseband.md R270 as reals. -/
def realWindow (ρ : Sample → ℝ) (p : Nat) (x : List Sample) (i : Nat) : List ℝ :=
  ((x.drop (p * i)).take p).map ρ

/-- `sum_{k<p} w[k] · g(k)` on reals. -/
noncomputable def realCorrelation (w : List ℝ) (g : Nat → ℝ) : ℝ := (w.zipIdx.map fun v => v.1 * g v.2).sum

/-- `phase(b0, b1)` in radians (44_carrier.md R310). -/
noncomputable def realPhase : Bit → Bit → ℝ
  | true, true => Real.pi / 4
  | true, false => 3 * Real.pi / 4
  | false, false => 5 * Real.pi / 4
  | false, true => 7 * Real.pi / 4

/-- `lvl(b0, b1)` on reals (44_carrier.md R320). -/
noncomputable def realLevel (a : ℝ) : Bit → Bit → ℝ
  | true, false => -3 * a
  | true, true => -a
  | false, true => a
  | false, false => 3 * a

open Classical in
/-- `unlvl(slice(v))` on reals: the slicer of 44_carrier.md R330 with the inverse level map of R320. -/
noncomputable def realSlice (a v : ℝ) : List Bit :=
  if v < -2 * a then [true, false]
  else if v < 0 then [true, true]
  else if v < 2 * a then [false, true]
  else [false, false]

open Classical in
/-- `sector(I, Q)` on reals, row by row as 44_carrier.md R312 lists it. -/
noncomputable def realSector (i q : ℝ) : List Bit :=
  if (0 < q ∧ 0 < i) ∨ (q = 0 ∧ 0 ≤ i) then [true, true]
  else if 0 < q ∧ i ≤ 0 then [true, false]
  else if q ≤ 0 ∧ i < 0 then [false, false]
  else [false, true]

/-! ### Numbers and bits, as 20_memory.md writes them -/

/-- `sum_{i<len(s)} s[i] · 2^(len(s)−1−i)` (R71). -/
def numberOf (s : List Bit) : Nat :=
  ((List.range s.length).map fun i => (s.getD i false).toNat * 2 ^ (s.length - 1 - i)).sum

/-- `[v[w−1], ..., v[0]]`, where `v[i]` is the binary digit of `v` of weight `2^i` (R71). -/
def fieldOf (v w : Nat) : List Bit := (List.range w).map fun i => decide (v / 2 ^ (w - 1 - i) % 2 = 1)

/-! ### Hamming formulas, as 40_hamming.md writes them -/

/-- `r = r_of(m)`: the smallest natural `r` with `2^r ≥ m + r + 1` (R151). -/
def IsParityCount (m r : Nat) : Prop := m + r + 1 ≤ 2 ^ r ∧ ∀ r' < r, 2 ^ r' < m + r' + 1

open Classical in
/-- The sequence indices of `dpos(n)`: index `k` holds position `k + 1`, which is no power of two (R150). -/
noncomputable def dataIndices (n : Nat) : List Nat := (List.range n).filter fun k => decide (∀ i, k + 1 ≠ 2 ^ i)

/-- The XOR of `c[j]` over all `j` in `1..n` with `(j AND p) ≠ 0`, position `j` at index `j − 1` (R153). -/
def parityOver (p : Nat) (c : List Bit) : Bit :=
  ((List.range c.length).filter fun k => decide ((k + 1) &&& p ≠ 0)).foldl (fun b k => b ^^ c.getD k false) false

/-- `c` is `ham_encode(d)` for a code of `r` parity bits: the data in order at the positions that are no powers of two, and
every parity check even (R152). -/
def IsCodeword (r : Nat) (d c : List Bit) : Prop :=
  c.length = d.length + r ∧ (dataIndices (d.length + r)).map (fun k => c.getD k false) = d ∧
    ∀ i < r, parityOver (2 ^ i) c = false

/-- The syndrome: the sum of the `p = 2^i ≤ n` whose check is 1 (R153). -/
def syndromeSum (c : List Bit) : Nat :=
  ((List.range c.length).map fun i => if 2 ^ i ≤ c.length ∧ parityOver (2 ^ i) c = true then 2 ^ i else 0).sum

/-- The data bits of `c` in order, the bit at position `s` flipped if there is one (R153). -/
noncomputable def correctedData (c : List Bit) (s : Nat) : List Bit :=
  (dataIndices c.length).map fun k => c.getD k false ^^ decide (k + 1 = s)

/-! ### A command's operands -/

/-- A faulted state: `ST.FAULT ≠ 0` (46_host_interface.md R376). -/
abbrev State.Faulted (s : State) : Prop := s.st.fault ≠ .none

/-- No fault is pending and every field the command reads holds a legal value: steps 1 and 3 of the execution sequence
(60_exceptions.md R422) let the command go on, but for the zero-energy check of QAM.DEM. -/
abbrev State.Ready (i : Instr) (s : State) : Prop :=
  s.st.fault = .none ∧ ∀ f ∈ fieldsRead i, s.cfg.isUnset f = false ∧ s.cfg.isLegal s.params.arith i f = true

/-- `SPB = SAMPLING_RATE div BIT_RATE` (00_scope.md R13). -/
def State.spb (s : State) : Nat := regNat s.cfg.samplingRate / regNat s.cfg.bitRate

/-- `Ec = 0` or `Eq = 0` in the arithmetic the model is given (44_carrier.md R331). -/
def State.ZeroEnergy (s : State) : Prop :=
  let energy := fun (g : Nat → Sample) =>
    s.params.arith.sum ((List.range s.spb).map fun k => s.params.arith.mul (g k) (g k))
  s.params.arith.eq
      (energy (s.params.arith.cosAt (regNat s.cfg.samplingRate) (regNat s.cfg.carrierFreq))) Sample.zero = true ∨
    s.params.arith.eq
      (energy (s.params.arith.sinAt (regNat s.cfg.samplingRate) (regNat s.cfg.carrierFreq))) Sample.zero = true

/-- `Ec` of 44_carrier.md R331 as a real number. -/
noncomputable def State.cosEnergy (s : State) : ℝ :=
  ((List.range s.spb).map fun k => Real.cos (theta (regNat s.cfg.samplingRate) (regNat s.cfg.carrierFreq) k) ^ 2).sum

/-- `Eq` of 44_carrier.md R331 as a real number. -/
noncomputable def State.sinEnergy (s : State) : ℝ :=
  ((List.range s.spb).map fun k => Real.sin (theta (regNat s.cfg.samplingRate) (regNat s.cfg.carrierFreq) k) ^ 2).sum

/-- The kind of W a command needs, 0 = bits and 1 = samples (60_exceptions.md R420, R421); none for a command that
does not read W. -/
def kindNeeded : Instr → Option Nat
  | .nop | .clrf | .clrs | .srst => none
  | .hamEnc | .hamDec | .hamEnc1 | .hamDec1 => some 0
  | .parAdd | .parChk | .cksAdd | .cksChk | .crcAdd | .crcChk => some 0
  | .bcfFrm | .bcfUnf | .bsfFrm | .bsfUnf | .ysfFrm | .ysfUnf => some 0
  | .nrzMod | .manMod | .amiMod | .askMod | .fskMod | .qpskMod | .qamMod => some 0
  | .nrzDem | .manDem | .amiDem | .askDem | .fskDem | .qpskDem | .qamDem => some 1

/-- `kind(W)`, 0 = bits and 1 = samples (60_exceptions.md R420). -/
def Buffer.kind : Buffer → Nat
  | .bits _ => 0
  | .samples _ => 1

/-- Two configurations hold the same value in a field. -/
def Cfg.Agrees (c c' : Cfg) : CfgField → Prop
  | .samplingRate => c.samplingRate = c'.samplingRate
  | .bitRate => c.bitRate = c'.bitRate
  | .carrierFreq => c.carrierFreq = c'.carrierFreq
  | .amplitude => c.amplitude = c'.amplitude
  | .maxFrameBytes => c.maxFrameBytes = c'.maxFrameBytes
  | .edcWidth => c.edcWidth = c'.edcWidth
  | .crcPoly => c.crcPoly = c'.crcPoly
  | .hamM => c.hamM = c'.hamM

/-- The word is in the opcode map (30_encoding.md R111). -/
def IsCommandWord (c : Byte) : Prop := ∃ i, decode c = .ok i

/-! ### The invariant -/

/-- What FINFO0 and FINFO1 hold beside each code of FAULT (60_exceptions.md R420), where the code alone tells it. -/
def State.FaultInfoOk (s : State) : Prop :=
  match s.st.fault with
  | .none => s.st.finfo0 = 0 ∧ s.st.finfo1 = 0
  | .badOpcode => s.st.finfo1 = 0 ∧ ∃ c : Byte, s.st.finfo0 = c.setWidth 32 ∧ ¬ IsCommandWord c
  | .cfgUnset => s.st.finfo1 = 0 ∧ 0x10 ≤ s.st.finfo0.toNat ∧ s.st.finfo0.toNat ≤ 0x15 ∧ s.st.finfo0 ≠ 0x13
  | .cfgInvalid => s.st.finfo1 = 0 ∧ 0x10 ≤ s.st.finfo0.toNat ∧ s.st.finfo0.toNat ≤ 0x17
  | .badKind => (s.st.finfo0 = 0 ∧ s.st.finfo1 = 1) ∨ (s.st.finfo0 = 1 ∧ s.st.finfo1 = 0)
  | .badLength => 1 ≤ s.st.finfo1.toNat ∧ s.st.finfo1.toNat ≤ 255
  | .frameTooLarge => s.st.finfo1.toNat % 8 = 0 ∧ 512 ≤ s.st.finfo1.toNat ∧ s.st.finfo1.toNat ≤ 8192
  | .overflow => ∃ cap, s.params.bufCap = some cap ∧ s.st.finfo1 = BitVec.ofNat 32 cap

/-- The invariant of every reachable state: W fits its capacity (10_state.md R33, 46_host_interface.md R371), CRC_POLY
never holds the value 0 (10_state.md R46), and the information words are those of the fault code. -/
structure State.Inv (s : State) : Prop where
  fits : bufFits s.params s.w.length = true
  poly : s.cfg.crcPoly ≠ .poly 0
  info : s.FaultInfoOk

end Machine

end Sys2Proof
end

