-- ==== Sys2Proof/WellFormed.lean ====
section
/-!
DEFINITION. What is well formed: commands, host actions, texts and parameters.

A command has no operand, register specifier or immediate (spec 30_encoding.md R112), so every term of `Instr` is well
formed; the checks that can fail are those of the host's side and of the parameters.
-/

namespace Sys2Proof

/-- Every command is well formed: it has no operand to be wrong (R112). -/
def Instr.wellFormed (_ : Instr) : Bool := true

/-- A parameter record a model may be given: `QAM16_SCALE > 0` (00_scope.md R7); the others have no bound there. -/
def Params.wellFormed (p : Params) : Bool := p.arith.isPos p.qamScale

/-- A host action whose values its registers can carry: a write to CMD is an 8-bit word (10_state.md R56). -/
def Machine.HostAction.wellFormed : Machine.HostAction → Bool
  | .wrreg n v => n != 0x00 || decide (v.toNat < 256)
  | .loadw _ | .readw | .wrAmplitude _ | .rdreg _ | .exec _ | .chan _ => true

/-- A text that `textToBits` is defined on: every code point is at most 255 (46_host_interface.md R381). -/
def textWellFormed (text : List Char) : Bool := text.all fun ch => decide (ch.toNat ≤ 255)

end Sys2Proof
end

