-- ==== Sys2Proof/Certificates/Slice0/Obligations.lean ====
section
/-!
DEFINITION. The statements about the machine, each one with the rule or the sections of spec/ it formalises.

`s.Ready i` says that no fault is pending and that every configuration field command `i` reads is set and legal. Where a
statement gives the next state as `{ s with ... }`, every field not named keeps its value: that is the command's frame, W,
the configuration, the status registers, the parameters and the host's program among them. `IsReal ρ` says that the sample
arithmetic the model is given is that of the real numbers, the sample `x` being the number `ρ x`, as R7 recommends; what is
said without it holds in every arithmetic.
-/

open Sys2Proof Sys2Proof.Machine

/-! ### Command words -/

/-- R110, R111: the 34 words, bits 7:4 UNIT and bits 3:0 OP, select their commands, and any other word is rejected. -/
def Obligations.OpcodeMapWords : Prop :=
  (∀ e ∈ ([(0b00000000, .nop), (0b00000001, .clrf), (0b00000010, .clrs), (0b00000011, .srst),
     (0b00010000, .hamEnc), (0b00010001, .hamDec), (0b00010010, .hamEnc1), (0b00010011, .hamDec1),
     (0b00100000, .parAdd), (0b00100001, .parChk), (0b00110000, .cksAdd), (0b00110001, .cksChk),
     (0b01000000, .crcAdd), (0b01000001, .crcChk), (0b01010000, .bcfFrm), (0b01010001, .bcfUnf),
     (0b01100000, .bsfFrm), (0b01100001, .bsfUnf), (0b01110000, .ysfFrm), (0b01110001, .ysfUnf)]
    ++ [(0b10000000, .nrzMod), (0b10000001, .nrzDem), (0b10010000, .manMod), (0b10010001, .manDem),
     (0b10100000, .amiMod), (0b10100001, .amiDem), (0b10110000, .askMod), (0b10110001, .askDem),
     (0b11000000, .fskMod), (0b11000001, .fskDem), (0b11010000, .qpskMod), (0b11010001, .qpskDem),
     (0b11100000, .qamMod), (0b11100001, .qamDem)] : List (Byte × Instr)), decode e.1 = .ok e.2) ∧
  (∀ c : Byte, (∀ i : Instr, encode i ≠ c) → decode c = .error (.reservedWord c))

/-- R110: decoding the word of a command gives the command, and a word that decodes to a command is its word. -/
def Obligations.DecodeEncodeAgree : Prop :=
  ∀ (i : Instr) (c : Byte), decode c = .ok i ↔ encode i = c

/-- 46_host_interface.md section 1: when the host's next action is EXEC of a word, the step is the execution sequence of that
word on the state whose program has moved past the action, and nothing else, whatever the word; a write to CMD of an 8-bit
value is EXEC of that word; and for a word that decodes to a command the execution sequence is that command's. That the host
program stands in the state is the model's choice (log 2). -/
def Obligations.StepRunsCommand : Prop :=
  ∀ (s : State) (rest : List HostAction),
    (∀ c, s.program = .exec c :: rest → step s = execWord c { s with program := rest }) ∧
    (∀ v : Word32, s.program = .wrreg 0x00 v :: rest → v.toNat < 256 →
      step s = execWord (v.setWidth 8) { s with program := rest }) ∧
    (∀ (c : Byte) (i : Instr), decode c = .ok i →
      (s.program = .exec c :: rest → step s = exec i { s with program := rest }) ∧
      (s.program = .wrreg 0x00 (c.setWidth 32) :: rest → step s = exec i { s with program := rest }))

/-! ### Reset and the system commands -/

/-- R471: the reset value of every piece of architectural state. -/
def Obligations.ResetValues : Prop :=
  State.reset.w = .bits [] ∧ State.reset.cfg.samplingRate = none ∧ State.reset.cfg.bitRate = none ∧
  State.reset.cfg.carrierFreq = none ∧ State.reset.cfg.amplitude = Sample.ofRat 5 ∧ State.reset.cfg.maxFrameBytes = none ∧
  State.reset.cfg.edcWidth = none ∧ State.reset.cfg.crcPoly = .std ∧ State.reset.cfg.hamM = 4 ∧
  State.reset.st.err = false ∧ State.reset.st.corr = 0 ∧ State.reset.st.synd = 0 ∧
  State.reset.st.fault.toByte = 0x00 ∧ State.reset.st.finfo0 = 0 ∧ State.reset.st.finfo1 = 0

/-- R350: NOP changes nothing, with or without a pending fault. -/
def Obligations.NopResult : Prop := ∀ s : State, exec .nop s = .next s

/-- R351: CLRF clears FAULT, FINFO0 and FINFO1, with or without a pending fault, and changes nothing else. -/
def Obligations.ClrfResult : Prop :=
  ∀ s : State, exec .clrf s = .next { s with st := { s.st with fault := .none, finfo0 := 0, finfo1 := 0 } }

/-- R352: CLRS clears ERR, CORR and SYND and nothing else, and is ignored while a fault is pending. -/
def Obligations.ClrsResult : Prop :=
  ∀ s : State,
    (¬ s.Faulted → exec .clrs s = .next { s with st := { s.st with err := false, corr := 0, synd := 0 } }) ∧
    (s.Faulted → exec .clrs s = .next s)

/-- R353, R470: SRST gives every piece of architectural state its reset value, whatever the state before, a pending fault
included, and leaves the parameters; R472: that is the state after power-on. That the host's program and the values it has
read stand in the state and stay is the model's choice (log 2). -/
def Obligations.SrstResult : Prop :=
  ∀ s : State, exec .srst s =
    .next { State.reset with params := s.params, program := s.program, returned := s.returned }

/-! ### Faults and the execution sequence -/

/-- 60_exceptions.md section 3: while a fault is pending every command word but CLRF's and SRST's changes nothing, the
reserved words included. -/
def Obligations.PendingFaultIgnored : Prop :=
  ∀ s : State, s.Faulted →
    (∀ i : Instr, i ≠ .clrf → i ≠ .srst → exec i s = .next s) ∧
    (∀ c : Byte, c ≠ 0x01 → c ≠ 0x03 → execWord c s = .next s)

/-- R113: a word that is no command's raises F_BAD_OPCODE with the word, unless a fault is pending, when it is ignored. -/
def Obligations.ReservedWordFaults : Prop :=
  ∀ (s : State) (c : Byte), ¬ IsCommandWord c →
    (¬ s.Faulted → execWord c s =
      .next { s with st := { s.st with fault := .badOpcode, finfo0 := c.setWidth 32, finfo1 := 0 } }) ∧
    (s.Faulted → execWord c s = .next s)

/-- R425: a command that raises a fault writes FAULT, FINFO0 and FINFO1 and leaves everything else as it was before the
command; and every command answers a next state. Raising `Fault(code, i0, i1)`, as `State.raise` is used in these statements,
writes the code and the two information words, modulo 2^32 (R424). -/
def Obligations.FaultEntry : Prop :=
  (∀ (i : Instr) (s : State), ∃ t, exec i s = .next t ∧
    (¬ s.Faulted → t.Faulted →
      t = { s with st := { s.st with fault := t.st.fault, finfo0 := t.st.finfo0, finfo1 := t.st.finfo1 } })) ∧
  (∀ (s : State) (code : FaultCode) (i0 i1 : Nat), ∃ f0 f1 : Word32,
    s.raise ⟨code, i0, i1⟩ = { s with st := { s.st with fault := code, finfo0 := f0, finfo1 := f1 } } ∧
    f0.toNat = i0 % 2 ^ 32 ∧ f1.toNat = i1 % 2 ^ 32)

/-- R49: the first unset field a command reads, by register number, raises F_CFG_UNSET; with none unset, the first illegal
one raises F_CFG_INVALID; both whatever W holds. The fields each command reads are those of R48's table, row by row, the
register numbers those of R35, and a field is unset exactly when it holds no value, which AMPLITUDE, CRC_POLY and HAM_M always
do (R37). -/
def Obligations.ConfigCheck : Prop :=
  ((∀ i ∈ [Instr.nop, .clrf, .clrs, .srst], fieldsRead i = []) ∧
    (∀ i ∈ [Instr.hamEnc1, .hamDec1, .hamEnc, .hamDec], fieldsRead i = [.hamM]) ∧
    (∀ i ∈ [Instr.parAdd, .parChk], fieldsRead i = []) ∧
    (∀ i ∈ [Instr.cksAdd, .cksChk], fieldsRead i = [.edcWidth]) ∧
    (∀ i ∈ [Instr.crcAdd, .crcChk], fieldsRead i = [.edcWidth, .crcPoly]) ∧
    (∀ i ∈ [Instr.bcfFrm, .bsfFrm, .ysfFrm], fieldsRead i = [.maxFrameBytes]) ∧
    (∀ i ∈ [Instr.bcfUnf, .bsfUnf, .ysfUnf], fieldsRead i = []) ∧
    (∀ i ∈ [Instr.nrzMod, .manMod, .amiMod], fieldsRead i = [.samplingRate, .bitRate, .amplitude]) ∧
    (∀ i ∈ [Instr.nrzDem, .manDem], fieldsRead i = [.samplingRate, .bitRate]) ∧
    (∀ i ∈ [Instr.amiDem, .askDem], fieldsRead i = [.samplingRate, .bitRate, .amplitude]) ∧
    (∀ i ∈ [Instr.fskDem, .qpskDem], fieldsRead i = [.samplingRate, .bitRate, .carrierFreq]) ∧
    (∀ i ∈ [Instr.askMod, .fskMod, .qpskMod, .qamMod, .qamDem],
      fieldsRead i = [.samplingRate, .bitRate, .carrierFreq, .amplitude])) ∧
  (CfgField.number .samplingRate = 0x10 ∧ CfgField.number .bitRate = 0x11 ∧ CfgField.number .carrierFreq = 0x12 ∧
    CfgField.number .amplitude = 0x13 ∧ CfgField.number .maxFrameBytes = 0x14 ∧ CfgField.number .edcWidth = 0x15 ∧
    CfgField.number .crcPoly = 0x16 ∧ CfgField.number .hamM = 0x17) ∧
  (∀ c : Cfg, (c.isUnset .samplingRate = true ↔ c.samplingRate = none) ∧
    (c.isUnset .bitRate = true ↔ c.bitRate = none) ∧ (c.isUnset .carrierFreq = true ↔ c.carrierFreq = none) ∧
    c.isUnset .amplitude = false ∧ (c.isUnset .maxFrameBytes = true ↔ c.maxFrameBytes = none) ∧
    (c.isUnset .edcWidth = true ↔ c.edcWidth = none) ∧ c.isUnset .crcPoly = false ∧ c.isUnset .hamM = false) ∧
  ∀ (i : Instr) (s : State) (f : CfgField), ¬ s.Faulted → f ∈ fieldsRead i →
    (s.cfg.isUnset f = true → (∀ g ∈ fieldsRead i, g.number < f.number → s.cfg.isUnset g = false) →
      exec i s = .next (s.raise ⟨.cfgUnset, f.number, 0⟩)) ∧
    ((∀ g ∈ fieldsRead i, s.cfg.isUnset g = false) → s.cfg.isLegal s.params.arith i f = false →
      (∀ g ∈ fieldsRead i, g.number < f.number → s.cfg.isLegal s.params.arith i g = true) →
      exec i s = .next (s.raise ⟨.cfgInvalid, f.number, 0⟩))

/-- 10_state.md section 3: the legal values of the configuration fields, BIT_RATE's with the bound of the Manchester commands,
AMPLITUDE's in the arithmetic given and as a real number, and the CRC polynomials. Each clause asks only that the fields it is
about hold a value. -/
def Obligations.LegalValues : Prop :=
  ∀ (ar : Arith) (i : Instr) (c : Cfg),
    (∀ sr, c.samplingRate = some sr → (c.isLegal ar i .samplingRate = true ↔ 100 ≤ sr.toNat ∧ sr.toNat ≤ 10000)) ∧
    (∀ sr br, c.samplingRate = some sr → c.bitRate = some br →
      (c.isLegal ar i .bitRate = true ↔ 1 ≤ br.toNat ∧ br.toNat ≤ 1000 ∧ br.toNat ∣ sr.toNat ∧ br.toNat ≤ sr.toNat ∧
        (i = .manMod ∨ i = .manDem → 2 * br.toNat ≤ sr.toNat))) ∧
    (∀ f, c.carrierFreq = some f → (c.isLegal ar i .carrierFreq = true ↔ 10 ≤ f.toNat ∧ f.toNat ≤ 1000)) ∧
    (c.isLegal ar i .amplitude = true ↔ ar.lt (Sample.ofRat 0) c.amplitude = true) ∧
    (∀ ρ, ar.IsReal ρ → (c.isLegal ar i .amplitude = true ↔ 0 < ρ c.amplitude)) ∧
    (∀ mfb, c.maxFrameBytes = some mfb →
      (c.isLegal ar i .maxFrameBytes = true ↔ 64 ≤ mfb.toNat ∧ mfb.toNat ≤ 1024)) ∧
    (∀ wd, c.edcWidth = some wd →
      (c.isLegal ar i .edcWidth = true ↔ wd.toNat = 8 ∨ wd.toNat = 16 ∨ wd.toNat = 24 ∨ wd.toNat = 32)) ∧
    (c.crcPoly = .std → c.isLegal ar i .crcPoly = true) ∧
    (∀ v wd, c.crcPoly = .poly v → c.edcWidth = some wd →
      (c.isLegal ar i .crcPoly = true ↔ 1 ≤ v.toNat ∧ v.toNat < 2 ^ wd.toNat)) ∧
    (c.isLegal ar i .hamM = true ↔ 1 ≤ c.hamM.toNat ∧ c.hamM.toNat ≤ 247) ∧
    (c.crcPoly = .std → c.polyFor 8 = 0xD5 ∧ c.polyFor 16 = 0x8005 ∧ c.polyFor 24 = 0x864CFB ∧
      c.polyFor 32 = 0x04C11DB7) ∧
    (∀ v wd, c.crcPoly = .poly v → c.polyFor wd = v.toNat)

/-- 10_state.md section 4: what a command other than SRST does depends on no configuration field but those it reads: with
any other configuration that holds the same values there, it does the same. -/
def Obligations.ReadsOnlyItsFields : Prop :=
  ∀ (i : Instr) (s t : State) (c : Cfg), i ≠ .srst → (∀ f ∈ fieldsRead i, s.cfg.Agrees c f) →
    exec i s = .next t → exec i { s with cfg := c } = .next { t with cfg := c }

/-- R421: the Hamming, EDC and framer commands and the modulators need bits and the demodulators samples; one that finds W of
the other kind, an empty sequence included, raises F_BAD_KIND with the kind found and the kind needed, 0 for bits and 1 for
samples (for QAM.DEM, once the zero-energy check has passed). -/
def Obligations.WrongKindFaults : Prop :=
  ∀ (i : Instr) (s : State), s.Ready i →
    (∀ x : List Sample, s.w = .samples x →
      i ∈ [.hamEnc, .hamDec, .hamEnc1, .hamDec1, .parAdd, .parChk, .cksAdd, .cksChk, .crcAdd, .crcChk, .bcfFrm, .bcfUnf,
        .bsfFrm, .bsfUnf, .ysfFrm, .ysfUnf, .nrzMod, .manMod, .amiMod, .askMod, .fskMod, .qpskMod, .qamMod] →
      exec i s = .next (s.raise ⟨.badKind, 1, 0⟩)) ∧
    (∀ b : List Bit, s.w = .bits b → i ∈ [.nrzDem, .manDem, .amiDem, .askDem, .fskDem, .qpskDem, .qamDem] →
      (i = .qamDem → ¬ s.ZeroEnergy) → exec i s = .next (s.raise ⟨.badKind, 0, 1⟩))

/-- 44_carrier.md section 5: QAM.DEM raises F_CFG_INVALID(0x12), whatever W holds, exactly when a reference energy is zero; and
over the exact reals a reference energy is zero exactly when SPB = 1 or 2·f / SAMPLING_RATE is an integer (the spec marks the
second half as derived, from "SIN(θ(f,1)) = 0 iff 2f/fs ∈ ℤ"). -/
def Obligations.QamZeroEnergy : Prop :=
  ∀ s : State, s.Ready .qamDem →
    (exec .qamDem s = .next (s.raise ⟨.cfgInvalid, 0x12, 0⟩) ↔ s.ZeroEnergy) ∧
    ∀ ρ, s.params.arith.IsReal ρ →
      (s.ZeroEnergy ↔ s.cosEnergy = 0 ∨ s.sinEnergy = 0) ∧
      (s.ZeroEnergy ↔ s.spb = 1 ∨ regNat s.cfg.samplingRate ∣ 2 * regNat s.cfg.carrierFreq)

/-- R33: take what a command does without a bound on W's length as `t`. With the capacity `cap` it raises
F_OVERFLOW(length, cap), W unchanged, if it reads W, completes as `t` and leaves a W longer than `cap` there; in every other
case, completing or faulting, it does what it does without a bound. With no capacity no command raises F_OVERFLOW. A length
fits, as `bufFits` is used in these statements, exactly if it is not over the capacity there is. -/
def Obligations.CapacityFault : Prop :=
  (∀ (i : Instr) (s t : State),
    (∀ cap, s.params.bufCap = some cap →
      exec i { s with params := { s.params with bufCap := none } } = .next t →
      exec i s = if i ∉ [.nop, .clrf, .clrs, .srst] ∧ ¬ t.Faulted ∧ cap < t.w.length then
          .next (s.raise ⟨.overflow, t.w.length, cap⟩)
        else .next { t with params := s.params }) ∧
    (s.params.bufCap = none → ¬ s.Faulted → exec i s = .next t → t.st.fault ≠ .overflow)) ∧
  (∀ (p : Params) (n : Nat), bufFits p n = true ↔ ∀ cap, p.bufCap = some cap → n ≤ cap) ∧
  (∀ b, (Buffer.bits b).length = b.length) ∧ (∀ x, (Buffer.samples x).length = x.length)

/-- 10_state.md section 3 and 45_system.md: no command but SRST writes a configuration field; 70_reset_and_hazards.md section 1:
no command changes a parameter (R470 says so of the reset). None changes the host's program or the values returned to the
host. That the parameters (log 1), the program and the values returned (log 2) stand in the state is the model's choice. -/
def Obligations.ConfigurationKept : Prop :=
  ∀ (i : Instr) (s t : State), exec i s = .next t →
    t.params = s.params ∧ t.program = s.program ∧ t.returned = s.returned ∧ (i ≠ .srst → t.cfg = s.cfg)

/-- 10_state.md section 5: which commands write ERR, CORR, SYND and the fault registers; 45_system.md (R350, R351, R352): NOP,
CLRF and CLRS leave W. -/
def Obligations.StatusWriters : Prop :=
  ∀ (i : Instr) (s t : State), exec i s = .next t →
    (i ∉ [.parChk, .cksChk, .crcChk, .clrs, .srst] → t.st.err = s.st.err) ∧
    (i ∉ [.hamDec, .clrs, .srst] → t.st.corr = s.st.corr) ∧
    (i ∉ [.hamDec1, .clrs, .srst] → t.st.synd = s.st.synd) ∧
    (i ∉ [.clrf, .srst] → s.Faulted ∨ ¬ t.Faulted →
      t.st.fault = s.st.fault ∧ t.st.finfo0 = s.st.finfo0 ∧ t.st.finfo1 = s.st.finfo1) ∧
    (i ∈ [.nop, .clrf, .clrs] → t.w = s.w)

/-! ### Hamming -/

/-- R154, R152: HAM.ENC1 of `m` bits gives the codeword of `m + r` bits that holds the data, in order, at the positions that
are no powers of two and passes every parity check; a block of another length raises F_BAD_LENGTH. -/
def Obligations.HamEnc1Result : Prop :=
  ∀ (s : State) (d : List Bit) (m r : Nat), s.Ready .hamEnc1 → s.w = .bits d → m = s.cfg.hamM.toNat →
    IsParityCount m r →
    (d.length = m → bufFits s.params (m + r) = true →
      ∃ c : List Bit, exec .hamEnc1 s = .next { s with w := .bits c } ∧ IsCodeword r d c) ∧
    (d.length ≠ m → exec .hamEnc1 s = .next (s.raise ⟨.badLength, d.length, m⟩))

/-- R155, R153: HAM.DEC1 of `n = m + r` bits writes the syndrome to SYND and the data bits to W, the bit at the syndrome's
position flipped; a block of another length raises F_BAD_LENGTH. -/
def Obligations.HamDec1Result : Prop :=
  ∀ (s : State) (c d : List Bit) (m r : Nat), s.Ready .hamDec1 → s.w = .bits c → m = s.cfg.hamM.toNat →
    IsParityCount m r →
    (c.length = m + r →
      d = correctedData c (syndromeSum c) →
      bufFits s.params d.length = true →
      exec .hamDec1 s =
        .next { s with w := .bits d, st := { s.st with synd := BitVec.ofNat 8 (syndromeSum c) } }) ∧
    (c.length ≠ m + r → exec .hamDec1 s = .next (s.raise ⟨.badLength, c.length, m + r⟩))

/-- R156: HAM.ENC encodes the complete bytes of W, zero-padded to a multiple of `m` bits, block by block. -/
def Obligations.HamEncResult : Prop :=
  ∀ (s : State) (b q : List Bit) (m r : Nat), s.Ready .hamEnc → s.w = .bits b → m = s.cfg.hamM.toNat →
    IsParityCount m r →
    q = b.take (8 * (b.length / 8)) ++
      List.replicate ((m - (8 * (b.length / 8)) % m) % m) false →
    bufFits s.params (q.length / m * (m + r)) = true →
    ∃ c : Nat → List Bit,
      exec .hamEnc s = .next { s with w := .bits ((List.range (q.length / m)).flatMap c) } ∧
      ∀ i < q.length / m, IsCodeword r ((q.drop (m * i)).take m) (c i)

/-- R157, R153: HAM.DEC corrects the complete blocks of `n` bits, keeps the complete bytes of their data, and writes the number
of blocks with a nonzero syndrome to CORR. -/
def Obligations.HamDecResult : Prop :=
  ∀ (s : State) (b data : List Bit) (block : Nat → List Bit) (m r k : Nat), s.Ready .hamDec → s.w = .bits b →
    m = s.cfg.hamM.toNat → IsParityCount m r → k = b.length / (m + r) →
    (∀ i, block i = (b.drop ((m + r) * i)).take (m + r)) →
    data = (List.range k).flatMap (fun i => correctedData (block i) (syndromeSum (block i))) →
    bufFits s.params (8 * (data.length / 8)) = true →
    exec .hamDec s =
      .next { s with
        w := .bits (data.take (8 * (data.length / 8))),
        st := { s.st with corr := (List.range k).countP (fun i => syndromeSum (block i) != 0) } }

/-- 40_hamming.md section 1 (R158, which the spec marks as derived): after HAM.ENC1, HAM.DEC1 gives back the data with
syndrome 0, and with exactly one bit flipped, at position `j`, the data with syndrome `j`. -/
def Obligations.HammingCorrectsOne : Prop :=
  ∀ (s t : State) (d c : List Bit), s.Ready .hamEnc1 → s.w = .bits d → exec .hamEnc1 s = .next t → ¬ t.Faulted →
    t.w = .bits c →
    exec .hamDec1 t = .next { t with w := .bits d, st := { t.st with synd := 0 } } ∧
    ∀ j, 1 ≤ j → j ≤ c.length →
      exec .hamDec1 { t with w := .bits (c.modify (j - 1) not) } =
        .next { t with w := .bits d, st := { t.st with synd := BitVec.ofNat 8 j } }

/-- 40_hamming.md section 1 (R158, which the spec marks as derived): with the bits at two positions `a ≠ b` flipped, HAM.DEC1
completes with the syndrome `a XOR b`, which is not 0, and the data after the bit at that position, if there is one, is
flipped; if there is one, the data is wrong. -/
def Obligations.HammingMiscorrectsTwo : Prop :=
  ∀ (s t : State) (d c e : List Bit) (a b : Nat), s.Ready .hamEnc1 → s.w = .bits d → exec .hamEnc1 s = .next t →
    ¬ t.Faulted → t.w = .bits c → 1 ≤ a → a < b → b ≤ c.length → e = (c.modify (a - 1) not).modify (b - 1) not →
    exec .hamDec1 { t with w := .bits e } =
      .next { t with w := .bits (correctedData e (a ^^^ b)), st := { t.st with synd := BitVec.ofNat 8 (a ^^^ b) } } ∧
    0 < a ^^^ b ∧ a ^^^ b < 256 ∧ (a ^^^ b ≤ c.length → correctedData e (a ^^^ b) ≠ d)

/-! ### Parity, checksum, CRC -/

/-- R181, R180: PAR.ADD follows each complete byte by the sum of its bits modulo 2, and drops the rest. -/
def Obligations.ParAddResult : Prop :=
  ∀ (s : State) (b out : List Bit), s.Ready .parAdd → s.w = .bits b →
    out = (List.range (b.length / 8)).flatMap (fun i =>
      (b.drop (8 * i)).take 8 ++ [decide (((b.drop (8 * i)).take 8).count true % 2 = 1)]) →
    bufFits s.params out.length = true → exec .parAdd s = .next { s with w := .bits out }

/-- R182: PAR.CHK keeps the first 8 bits of each complete 9-bit block and sets ERR if some block's parity bit is not the
parity of its first 8 bits, else clears it. -/
def Obligations.ParChkResult : Prop :=
  ∀ (s : State) (b out : List Bit) (err : Bool), s.Ready .parChk → s.w = .bits b →
    out = (List.range (b.length / 9)).flatMap (fun i => (b.drop (9 * i)).take 8) →
    (err = true ↔ ∃ i < b.length / 9,
      ((b.drop (9 * i)).take 8).count true % 2 ≠ (b.getD (9 * i + 8) false).toNat) →
    bufFits s.params out.length = true →
    exec .parChk s = .next { s with w := .bits out, st := { s.st with err := err } }

/-- R187, R186, R185: CKS.ADD appends the complemented byte sum modulo 2^Wd; the bytes are the complete ones, the last one
zero-padded if EDC_TAIL = zeropad. -/
def Obligations.CksAddResult : Prop :=
  ∀ (s : State) (b cov : List Bit) (wd sum : Nat), s.Ready .cksAdd → s.w = .bits b → wd = regNat s.cfg.edcWidth →
    cov = (if s.params.edcTail = .zeropad then b ++ List.replicate ((8 - b.length % 8) % 8) false else b) →
    sum = ((List.range (cov.length / 8)).map (fun i => numberOf ((cov.drop (8 * i)).take 8))).sum →
    bufFits s.params (b.length + wd) = true →
    exec .cksAdd s =
      .next { s with w := .bits (b ++ fieldOf ((2 ^ wd - 1 - sum % 2 ^ wd) % 2 ^ wd) wd) }

/-- R188, R186, R185: CKS.CHK strips the trailing Wd-bit field and sets ERR if it is not the payload's checksum, else clears it;
fewer than Wd bits give an empty payload and ERR = 1. -/
def Obligations.CksChkResult : Prop :=
  ∀ (s : State) (b p f cov : List Bit) (wd sum : Nat) (err : Bool), s.Ready .cksChk → s.w = .bits b →
    wd = regNat s.cfg.edcWidth →
    (b.length < wd → exec .cksChk s = .next { s with w := .bits [], st := { s.st with err := true } }) ∧
    (b = p ++ f → f.length = wd →
      cov = (if s.params.edcTail = .zeropad then p ++ List.replicate ((8 - p.length % 8) % 8) false else p) →
      sum = ((List.range (cov.length / 8)).map (fun i => numberOf ((cov.drop (8 * i)).take 8))).sum →
      (err = true ↔ (2 ^ wd - 1 - sum % 2 ^ wd) % 2 ^ wd ≠ numberOf f) →
      bufFits s.params p.length = true →
      exec .cksChk s = .next { s with w := .bits p, st := { s.st with err := err } })

/-- R198, R195, R196, R197, R185: CRC.ADD appends as a Wd-bit field, most significant bit first, what the CRC loop gives: the
register starts at CRC_INIT; each covered byte shifts it left by 8 and XORs the table's entry for its top byte XOR the byte,
an entry being the index in the top byte after eight shifts, each XORing the polynomial where a 1 leaves at the top; and
CRC_XOROUT is XORed at the end. The table has an entry for each of the 256 indices. -/
def Obligations.CrcAddResult : Prop :=
  ∀ (s : State) (b cov : List Bit) (wd poly crc : Nat) (shift table : Nat → Nat), s.Ready .crcAdd → s.w = .bits b →
    wd = regNat s.cfg.edcWidth →
    (s.cfg.crcPoly = .std → (wd, poly) ∈ [(8, 0xD5), (16, 0x8005), (24, 0x864CFB), (32, 0x04C11DB7)]) →
    (∀ v, s.cfg.crcPoly = .poly v → poly = v.toNat) →
    (∀ c, shift c = (if c / 2 ^ (wd - 1) % 2 = 1 then 2 * c ^^^ poly else 2 * c) % 2 ^ wd) →
    (∀ i, table i = shift (shift (shift (shift (shift (shift (shift (shift (i * 2 ^ (wd - 8)))))))))) →
    cov = (if s.params.edcTail = .zeropad then b ++ List.replicate ((8 - b.length % 8) % 8) false else b) →
    crc = (List.range (cov.length / 8)).foldl
      (fun c i => (c * 256 % 2 ^ wd) ^^^ table ((c / 2 ^ (wd - 8) ^^^ numberOf ((cov.drop (8 * i)).take 8)) % 256))
      (s.params.crcInit % 2 ^ wd) ^^^ (s.params.crcXorOut % 2 ^ wd) →
    bufFits s.params (b.length + wd) = true →
    exec .crcAdd s = .next { s with w := .bits (b ++ fieldOf crc wd) }

/-- R199, R195, R196, R197, R185: CRC.CHK strips the trailing Wd-bit field and sets ERR if it is not what the CRC loop (as in
CrcAddResult) gives for the payload, else clears it; fewer than Wd bits give an empty payload and ERR = 1. -/
def Obligations.CrcChkResult : Prop :=
  ∀ (s : State) (b p f cov : List Bit) (wd poly crc : Nat) (shift table : Nat → Nat) (err : Bool), s.Ready .crcChk →
    s.w = .bits b → wd = regNat s.cfg.edcWidth →
    (b.length < wd → exec .crcChk s = .next { s with w := .bits [], st := { s.st with err := true } }) ∧
    (b = p ++ f → f.length = wd →
      (s.cfg.crcPoly = .std → (wd, poly) ∈ [(8, 0xD5), (16, 0x8005), (24, 0x864CFB), (32, 0x04C11DB7)]) →
      (∀ v, s.cfg.crcPoly = .poly v → poly = v.toNat) →
      (∀ c, shift c = (if c / 2 ^ (wd - 1) % 2 = 1 then 2 * c ^^^ poly else 2 * c) % 2 ^ wd) →
      (∀ i, table i = shift (shift (shift (shift (shift (shift (shift (shift (i * 2 ^ (wd - 8)))))))))) →
      cov = (if s.params.edcTail = .zeropad then p ++ List.replicate ((8 - p.length % 8) % 8) false else p) →
      crc = (List.range (cov.length / 8)).foldl
        (fun c i => (c * 256 % 2 ^ wd) ^^^ table ((c / 2 ^ (wd - 8) ^^^ numberOf ((cov.drop (8 * i)).take 8)) % 256))
        (s.params.crcInit % 2 ^ wd) ^^^ (s.params.crcXorOut % 2 ^ wd) →
      (err = true ↔ crc ≠ numberOf f) →
      bufFits s.params p.length = true →
      exec .crcChk s = .next { s with w := .bits p, st := { s.st with err := err } })

/-- 41_edc.md: a check command after its add command gives the payload back with ERR = 0, for parity when the payload is
complete bytes. -/
def Obligations.EdcRoundTrip : Prop :=
  ∀ (s t : State) (b : List Bit) (add chk : Instr),
    (add, chk) ∈ [(Instr.parAdd, Instr.parChk), (.cksAdd, .cksChk), (.crcAdd, .crcChk)] →
    s.Ready add → s.w = .bits b → (add = .parAdd → 8 ∣ b.length) → exec add s = .next t → ¬ t.Faulted →
    exec chk t = .next { s with w := .bits b, st := { s.st with err := false } }

/-- 41_edc.md section 1 (R183, which the spec marks as derived): after PAR.ADD, flipping the bits where `e` is 1 makes
PAR.CHK set ERR exactly if some block has an odd number of flipped bits. -/
def Obligations.ParityDetectsOdd : Prop :=
  ∀ (s t : State) (b c e : List Bit), s.Ready .parAdd → s.w = .bits b → exec .parAdd s = .next t → ¬ t.Faulted →
    t.w = .bits c → e.length = c.length →
    ∃ u, exec .parChk { t with w := .bits (List.zipWith (· ^^ ·) c e) } = .next u ∧ ¬ u.Faulted ∧
      (u.st.err = true ↔ ∃ i < c.length / 9, ((e.drop (9 * i)).take 9).count true % 2 = 1)

/-- 41_edc.md section 4 (R200, which the spec marks as general knowledge): after CRC.ADD, flipping any one bit of the
covered bytes or of the field makes CRC.CHK complete with ERR = 1, for every legal polynomial and every CRC_INIT and CRC_XOROUT. -/
def Obligations.CrcDetectsSingleBit : Prop :=
  ∀ (s t : State) (b c : List Bit) (k : Nat), s.Ready .crcAdd → s.w = .bits b → exec .crcAdd s = .next t →
    ¬ t.Faulted → t.w = .bits c → k < c.length →
    (k < 8 * (b.length / 8) ∨ (s.params.edcTail = .zeropad ∧ k < b.length) ∨ b.length ≤ k) →
    ∃ u, exec .crcChk { t with w := .bits (c.modify k not) } = .next u ∧ ¬ u.Faulted ∧ u.st.err = true

/-! ### Framers -/

/-- R231, R230: BCF.FRM puts the 16-bit length before the payload; a payload over 8·MAX_FRAME_BYTES bits raises
F_FRAME_TOO_LARGE. -/
def Obligations.BcfFrmResult : Prop :=
  ∀ (s : State) (b : List Bit) (mfb : Nat), s.Ready .bcfFrm → s.w = .bits b → mfb = regNat s.cfg.maxFrameBytes →
    (b.length ≤ 8 * mfb → bufFits s.params (16 + b.length) = true →
      exec .bcfFrm s = .next { s with w := .bits (fieldOf b.length 16 ++ b) }) ∧
    (8 * mfb < b.length → exec .bcfFrm s = .next (s.raise ⟨.frameTooLarge, b.length, 8 * mfb⟩))

/-- R235, R234, R233, R230: BSF.FRM copies the payload bit by bit, counting the 1-bits that follow each other, and at the fifth
adds a 0 and counts from 0 again; the result goes between two flags 01111110. A payload over 8·MAX_FRAME_BYTES bits raises
F_FRAME_TOO_LARGE, the size taken before stuffing. -/
def Obligations.BsfFrmResult : Prop :=
  ∀ (s : State) (b flag out : List Bit) (mfb : Nat), s.Ready .bsfFrm → s.w = .bits b → mfb = regNat s.cfg.maxFrameBytes →
    flag = [false, true, true, true, true, true, true, false] →
    out = flag ++ (b.foldl (fun (r : List Bit × Nat) x =>
        if x = true ∧ r.2 + 1 = 5 then (r.1 ++ [true, false], 0)
        else if x = true then (r.1 ++ [true], r.2 + 1)
        else (r.1 ++ [false], 0)) ([], 0)).1 ++ flag →
    (b.length ≤ 8 * mfb → bufFits s.params out.length = true → exec .bsfFrm s = .next { s with w := .bits out }) ∧
    (8 * mfb < b.length → exec .bsfFrm s = .next (s.raise ⟨.frameTooLarge, b.length, 8 * mfb⟩))

/-- R239, R238, R233, R230: YSF.FRM replaces each complete byte equal to FLAG or ESC by ESC and the byte XOR MASK, keeps the
tail, and adds the flags; a payload over 8·MAX_FRAME_BYTES bits raises F_FRAME_TOO_LARGE. -/
def Obligations.YsfFrmResult : Prop :=
  ∀ (s : State) (b flag esc mask out : List Bit) (mfb : Nat), s.Ready .ysfFrm → s.w = .bits b →
    mfb = regNat s.cfg.maxFrameBytes → flag = [false, true, true, true, true, true, true, false] →
    esc = [false, true, true, true, true, true, false, true] → mask = [false, false, true, false, false, false, false, false] →
    out = flag
      ++ (List.range (b.length / 8)).flatMap (fun i =>
          if (b.drop (8 * i)).take 8 = flag ∨ (b.drop (8 * i)).take 8 = esc then
            esc ++ List.zipWith (· ^^ ·) ((b.drop (8 * i)).take 8) mask
          else (b.drop (8 * i)).take 8)
      ++ b.drop (8 * (b.length / 8)) ++ flag →
    (b.length ≤ 8 * mfb → bufFits s.params out.length = true → exec .ysfFrm s = .next { s with w := .bits out }) ∧
    (8 * mfb < b.length → exec .ysfFrm s = .next (s.raise ⟨.frameTooLarge, b.length, 8 * mfb⟩))

/-- R232, R237, R236, R241, R240: BCF.UNF cuts the payload at the length field, clipped. BSF.UNF strips 8 bits at each end by
position and copies the rest bit by bit, counting the 1-bits that follow each other; after the fifth the next bit is left
out, whatever it is, and the count restarts. YSF.UNF strips 8 bits at each end by position and reads the rest from the front
(`scan r` is what the bits `r` not yet read give): a byte ESC is left out and the byte after it XORed with MASK, whatever it
is; an ESC with no complete byte after it ends the data and the bits after it are lost; 0 to 7 bits at the end pass through.
A short frame gives the empty sequence. None raises a fault on data. -/
def Obligations.UnframeResults : Prop :=
  ∀ (s : State) (f body out esc mask : List Bit) (scan : List Bit → List Bit), ¬ s.Faulted → s.w = .bits f →
    body = (f.drop 8).take (f.length - 16) → bufFits s.params out.length = true →
    (out = (if f.length < 16 then [] else (f.drop 16).take (numberOf (f.take 16))) →
      exec .bcfUnf s = .next { s with w := .bits out }) ∧
    (out = (if f.length ≤ 16 then [] else (body.foldl (fun (r : List Bit × Nat) x =>
        if r.2 = 5 then (r.1, 0)
        else (r.1 ++ [x], if x = true then r.2 + 1 else 0)) ([], 0)).1) →
      exec .bsfUnf s = .next { s with w := .bits out }) ∧
    (esc = [false, true, true, true, true, true, false, true] → mask = [false, false, true, false, false, false, false, false] →
      (∀ r, scan r = if r.length < 8 then r
        else if r.take 8 = esc then
          (if r.length < 16 then [] else List.zipWith (· ^^ ·) ((r.drop 8).take 8) mask ++ scan (r.drop 16))
        else r.take 8 ++ scan (r.drop 8)) →
      out = (if f.length ≤ 16 then [] else scan body) →
      exec .ysfUnf s = .next { s with w := .bits out })

/-- 42_framers.md section 4 (R242, which the spec marks as derived): BCF.UNF after BCF.FRM gives the payload back. -/
def Obligations.BcfRoundTrip : Prop :=
  ∀ (s t : State) (b : List Bit), s.Ready .bcfFrm → s.w = .bits b → exec .bcfFrm s = .next t → ¬ t.Faulted →
    exec .bcfUnf t = .next s

/-- 42_framers.md section 4 (R242, which the spec marks as derived): BSF.UNF after BSF.FRM gives the payload back; and
between the flags no six 1-bits follow each other. -/
def Obligations.BsfRoundTrip : Prop :=
  ∀ (s t : State) (b f : List Bit), s.Ready .bsfFrm → s.w = .bits b → exec .bsfFrm s = .next t → ¬ t.Faulted →
    t.w = .bits f →
    exec .bsfUnf t = .next s ∧
    ∀ k, (((f.drop 8).take (f.length - 16)).drop k).take 6 ≠ List.replicate 6 true

/-- 42_framers.md section 4 (R242, which the spec marks as derived): YSF.UNF after YSF.FRM gives the payload back; and no
byte between the flags is a flag. -/
def Obligations.YsfRoundTrip : Prop :=
  ∀ (s t : State) (b f : List Bit), s.Ready .ysfFrm → s.w = .bits b → exec .ysfFrm s = .next t → ¬ t.Faulted →
    t.w = .bits f →
    exec .ysfUnf t = .next s ∧
    ∀ k, (((f.drop 8).take (f.length - 16)).drop (8 * k)).take 8 ≠
      [false, true, true, true, true, true, true, false]

/-! ### Baseband modulators

In every sample arithmetic: the command completes, with what samples or how many bits. Where the arithmetic is that of the
reals: the real values of the samples, and the bits decided. -/

/-- R271: NRZ.MOD sends each bit as SPB samples of +A for 1 and −A for 0. -/
def Obligations.NrzModResult : Prop :=
  ∀ (s : State) (b : List Bit), s.Ready .nrzMod → s.w = .bits b → bufFits s.params (b.length * s.spb) = true →
    ∃ y : List Sample, exec .nrzMod s = .next { s with w := .samples y } ∧
      y = b.flatMap (fun x =>
        List.replicate s.spb (if x then s.cfg.amplitude else s.params.arith.neg s.cfg.amplitude)) ∧
      ∀ ρ, s.params.arith.IsReal ρ → y.map ρ = b.flatMap (fun x =>
        List.replicate s.spb (if x then ρ s.cfg.amplitude else -ρ s.cfg.amplitude))

/-- R272: NRZ.DEM decides 1 exactly for the complete windows of mean over 0. -/
def Obligations.NrzDemResult : Prop :=
  ∀ (s : State) (x : List Sample), s.Ready .nrzDem → s.w = .samples x →
    bufFits s.params (x.length / s.spb) = true →
    ∃ d : List Bit, exec .nrzDem s = .next { s with w := .bits d } ∧ d.length = x.length / s.spb ∧
      ∀ ρ, s.params.arith.IsReal ρ → d = (List.range (x.length / s.spb)).map (fun i =>
      decide (0 < realMean (realWindow ρ s.spb x i)))

/-- R276, R275: MAN.MOD sends 1 as SPB div 2 samples of −A and the rest +A, and 0 reversed. -/
def Obligations.ManModResult : Prop :=
  ∀ (s : State) (b : List Bit), s.Ready .manMod → s.w = .bits b → bufFits s.params (b.length * s.spb) = true →
    ∃ y : List Sample, exec .manMod s = .next { s with w := .samples y } ∧
      y = b.flatMap (fun x =>
        List.replicate (s.spb / 2) (if x then s.params.arith.neg s.cfg.amplitude else s.cfg.amplitude)
          ++ List.replicate (s.spb - s.spb / 2)
            (if x then s.cfg.amplitude else s.params.arith.neg s.cfg.amplitude)) ∧
      ∀ ρ, s.params.arith.IsReal ρ → y.map ρ = b.flatMap (fun x =>
        List.replicate (s.spb / 2) (if x then -ρ s.cfg.amplitude else ρ s.cfg.amplitude)
          ++ List.replicate (s.spb - s.spb / 2) (if x then ρ s.cfg.amplitude else -ρ s.cfg.amplitude))

/-- R277, R275: MAN.DEM compares the means of the two halves of each complete window, by MAN_DECIDE. -/
def Obligations.ManDemResult : Prop :=
  ∀ (s : State) (x : List Sample), s.Ready .manDem → s.w = .samples x → bufFits s.params (x.length / s.spb) = true →
    ∃ d : List Bit, exec .manDem s = .next { s with w := .bits d } ∧ d.length = x.length / s.spb ∧
      ∀ (ρ : Sample → ℝ) (m1 m2 : Nat → ℝ), s.params.arith.IsReal ρ →
        (∀ i, m1 i = realMean ((realWindow ρ s.spb x i).take (s.spb / 2))) →
        (∀ i, m2 i = realMean ((realWindow ρ s.spb x i).drop (s.spb / 2))) →
        d = (List.range (x.length / s.spb)).map (fun i =>
          if s.params.manDecide = .compare then decide (m1 i < m2 i) else decide (m1 i < 0 ∧ 0 < m2 i))

/-- R283: AMI.MOD sends 0 as SPB zero samples, and the 1-bits alternately as +A and −A, the first one +A. That +A and −A are
the amplitude and its negation, and not products with the polarity, is the model's choice (log 3); over the reals it makes no
difference. -/
def Obligations.AmiModResult : Prop :=
  ∀ (s : State) (b : List Bit), s.Ready .amiMod → s.w = .bits b → bufFits s.params (b.length * s.spb) = true →
    ∃ y : List Sample, exec .amiMod s = .next { s with w := .samples y } ∧
      y = (List.range b.length).flatMap (fun i => List.replicate s.spb
        (if b.getD i false = false then Sample.ofRat 0
          else if (b.take i).count true % 2 = 0 then s.cfg.amplitude
          else s.params.arith.neg s.cfg.amplitude)) ∧
      ∀ ρ, s.params.arith.IsReal ρ → y.map ρ = (List.range b.length).flatMap (fun i => List.replicate s.spb
        (if b.getD i false then (-1) ^ (b.take i).count true * ρ s.cfg.amplitude else 0))

/-- R284: AMI.DEM decides 1 exactly for the complete windows whose mean magnitude is over A/2. -/
def Obligations.AmiDemResult : Prop :=
  ∀ (s : State) (x : List Sample), s.Ready .amiDem → s.w = .samples x →
    bufFits s.params (x.length / s.spb) = true →
    ∃ d : List Bit, exec .amiDem s = .next { s with w := .bits d } ∧ d.length = x.length / s.spb ∧
      ∀ ρ, s.params.arith.IsReal ρ → d = (List.range (x.length / s.spb)).map (fun i =>
      decide (ρ s.cfg.amplitude / 2 < realMean ((realWindow ρ s.spb x i).map (fun v => |v|))))

/-- 43_baseband.md section 5 (R285, which the spec marks as derived): with exact sample arithmetic and on the same
configuration, the demodulator gives back the bits modulated, for NRZ, Manchester (under both settings of MAN_DECIDE) and
AMI. -/
def Obligations.BasebandRoundTrip : Prop :=
  ∀ (s t : State) (ρ : Sample → ℝ) (b : List Bit) (md dm : Instr), s.params.arith.IsReal ρ →
    (md, dm) ∈ [(Instr.nrzMod, Instr.nrzDem), (.manMod, .manDem), (.amiMod, .amiDem)] →
    s.Ready md → s.w = .bits b → exec md s = .next t → ¬ t.Faulted → exec dm t = .next s

/-! ### Carrier modulators

In every sample arithmetic: the command completes, with how many samples or bits. Where the arithmetic is that of the reals:
the real values of the samples, and the bits decided. -/

/-- R301, R300: ASK.MOD sends 1 as A·SIN(θ(f, k)) and 0 as zeros. -/
def Obligations.AskModResult : Prop :=
  ∀ (s : State) (b : List Bit) (fs f : Nat), s.Ready .askMod → s.w = .bits b → fs = regNat s.cfg.samplingRate →
    f = regNat s.cfg.carrierFreq → bufFits s.params (b.length * s.spb) = true →
    ∃ y : List Sample, exec .askMod s = .next { s with w := .samples y } ∧
      y.length = b.length * s.spb ∧
      ∀ ρ, s.params.arith.IsReal ρ → y.map ρ = b.flatMap (fun x => (List.range s.spb).map (fun k =>
        if x then ρ s.cfg.amplitude * Real.sin (theta fs f k) else 0))

/-- R302: ASK.DEM decides 1 exactly for the complete windows of energy over 0.25·(A·A·SPB·0.5). -/
def Obligations.AskDemResult : Prop :=
  ∀ (s : State) (x : List Sample), s.Ready .askDem → s.w = .samples x →
    bufFits s.params (x.length / s.spb) = true →
    ∃ d : List Bit, exec .askDem s = .next { s with w := .bits d } ∧ d.length = x.length / s.spb ∧
      ∀ ρ, s.params.arith.IsReal ρ → d = (List.range (x.length / s.spb)).map (fun i =>
      decide (0.25 * (ρ s.cfg.amplitude * ρ s.cfg.amplitude * s.spb * 0.5) < ((realWindow ρ s.spb x i).map (fun v => v * v)).sum))

/-- R305: FSK.MOD sends 0 as A·SIN(θ(f0, k)) and 1 as A·SIN(θ(2·f0, k)). -/
def Obligations.FskModResult : Prop :=
  ∀ (s : State) (b : List Bit) (fs f : Nat), s.Ready .fskMod → s.w = .bits b → fs = regNat s.cfg.samplingRate →
    f = regNat s.cfg.carrierFreq → bufFits s.params (b.length * s.spb) = true →
    ∃ y : List Sample, exec .fskMod s = .next { s with w := .samples y } ∧
      y.length = b.length * s.spb ∧
      ∀ ρ, s.params.arith.IsReal ρ → y.map ρ = b.flatMap (fun x => (List.range s.spb).map (fun k =>
        ρ s.cfg.amplitude * Real.sin (theta fs (if x then 2 * f else f) k)))

/-- R306: FSK.DEM decides 1 exactly for the complete windows whose correlation with frequency 2·f0 is the larger one in
absolute value. -/
def Obligations.FskDemResult : Prop :=
  ∀ (s : State) (x : List Sample) (fs f : Nat), s.Ready .fskDem → s.w = .samples x →
    fs = regNat s.cfg.samplingRate → f = regNat s.cfg.carrierFreq → bufFits s.params (x.length / s.spb) = true →
    ∃ d : List Bit, exec .fskDem s = .next { s with w := .bits d } ∧ d.length = x.length / s.spb ∧
      ∀ ρ, s.params.arith.IsReal ρ → d = (List.range (x.length / s.spb)).map (fun i => decide (
      |realCorrelation (realWindow ρ s.spb x i) (fun k => Real.sin (theta fs f k))| <
        |realCorrelation (realWindow ρ s.spb x i) (fun k => Real.sin (theta fs (2 * f) k))|))

/-- R311, R310: QPSK.MOD sends each bit pair as A·COS(θ(f, k) + phase), and drops an odd trailing bit. -/
def Obligations.QpskModResult : Prop :=
  ∀ (s : State) (b : List Bit) (fs f : Nat), s.Ready .qpskMod → s.w = .bits b → fs = regNat s.cfg.samplingRate →
    f = regNat s.cfg.carrierFreq → bufFits s.params (b.length / 2 * s.spb) = true →
    ∃ y : List Sample, exec .qpskMod s = .next { s with w := .samples y } ∧
      y.length = b.length / 2 * s.spb ∧
      ∀ ρ, s.params.arith.IsReal ρ → y.map ρ = (List.range (b.length / 2)).flatMap (fun j => (List.range s.spb).map (fun k =>
        ρ s.cfg.amplitude *
          Real.cos (theta fs f k + realPhase (b.getD (2 * j) false) (b.getD (2 * j + 1) false))))

/-- R312: QPSK.DEM decides each complete window by the sector of its two correlations. -/
def Obligations.QpskDemResult : Prop :=
  ∀ (s : State) (x : List Sample) (fs f : Nat), s.Ready .qpskDem → s.w = .samples x →
    fs = regNat s.cfg.samplingRate → f = regNat s.cfg.carrierFreq →
    bufFits s.params (2 * (x.length / s.spb)) = true →
    ∃ d : List Bit, exec .qpskDem s = .next { s with w := .bits d } ∧ d.length = 2 * (x.length / s.spb) ∧
      ∀ ρ, s.params.arith.IsReal ρ → d = (List.range (x.length / s.spb)).flatMap (fun j => realSector
      (realCorrelation (realWindow ρ s.spb x j) (fun k => Real.cos (theta fs f k)))
      (realCorrelation (realWindow ρ s.spb x j) (fun k => -Real.sin (theta fs f k))))

/-- R321, R320: QAM.MOD sends each four bits, zero-padded, as g·(I·COS(θ) − Q·SIN(θ)). -/
def Obligations.QamModResult : Prop :=
  ∀ (s : State) (b q : List Bit) (fs f : Nat), s.Ready .qamMod → s.w = .bits b →
    fs = regNat s.cfg.samplingRate → f = regNat s.cfg.carrierFreq →
    q = b ++ List.replicate ((4 - b.length % 4) % 4) false → bufFits s.params (q.length / 4 * s.spb) = true →
    ∃ y : List Sample, exec .qamMod s = .next { s with w := .samples y } ∧
      y.length = q.length / 4 * s.spb ∧
      ∀ ρ, s.params.arith.IsReal ρ → y.map ρ = (List.range (q.length / 4)).flatMap (fun j => (List.range s.spb).map (fun k =>
        ρ s.params.qamScale *
          (realLevel (ρ s.cfg.amplitude) (q.getD (4 * j) false) (q.getD (4 * j + 1) false) * Real.cos (theta fs f k)
            - realLevel (ρ s.cfg.amplitude) (q.getD (4 * j + 2) false) (q.getD (4 * j + 3) false) * Real.sin (theta fs f k))))

/-- R331, R330: QAM.DEM normalises the two correlations of each complete window by g times the reference energies and
slices them; with QAM16_SCALE > 0, as 00_scope.md R7 requires, and both energies nonzero. -/
def Obligations.QamDemResult : Prop :=
  ∀ (s : State) (x : List Sample) (fs f : Nat), s.Ready .qamDem → s.w = .samples x →
    fs = regNat s.cfg.samplingRate → f = regNat s.cfg.carrierFreq → ¬ s.ZeroEnergy →
    bufFits s.params (4 * (x.length / s.spb)) = true →
    ∃ d : List Bit, exec .qamDem s = .next { s with w := .bits d } ∧ d.length = 4 * (x.length / s.spb) ∧
      ∀ (ρ : Sample → ℝ) (a g : ℝ), s.params.arith.IsReal ρ → a = ρ s.cfg.amplitude → g = ρ s.params.qamScale → 0 < g →
        d = (List.range (x.length / s.spb)).flatMap (fun j =>
          realSlice a (realCorrelation (realWindow ρ s.spb x j) (fun k => Real.cos (theta fs f k)) / (g * s.cosEnergy))
            ++ realSlice a
              (realCorrelation (realWindow ρ s.spb x j) (fun k => -Real.sin (theta fs f k)) / (g * s.sinEnergy)))

/-! ### The host and the whole machine -/

/-- R371, R373, R380: what LOADW, a register write and the channel step do, and which of them are refused: LOADW over BUF_CAP,
a write to CMD of more than 8 bits, chan on bits, a draw of another length than W. That a write of a 32-bit value to AMPLITUDE
stores that number, and that CMD takes no wider value, is the model's choice (log 7); so are the refusal of a draw of another
length (log 4) and the host program in the state (log 2); that the draw is the host program's data is its reading (log 5). -/
def Obligations.HostWrites : Prop :=
  ∀ (s : State) (rest : List HostAction),
    (∀ v : Buffer, s.program = .loadw v :: rest → bufFits s.params v.length = true →
      step s = .next { s with program := rest, w := v }) ∧
    (∀ v : Buffer, s.program = .loadw v :: rest → bufFits s.params v.length = false →
      step s = .refused .loadwOverCapacity) ∧
    (∀ v : Word32, s.program = .wrreg 0x00 v :: rest → v.toNat < 256 →
      step s = execWord (v.setWidth 8) { s with program := rest }) ∧
    (∀ v : Word32, s.program = .wrreg 0x00 v :: rest → 256 ≤ v.toNat → step s = .refused .commandTooWide) ∧
    (∀ (n : Byte) (v : Word32), s.program = .wrreg n v :: rest → n ≠ 0x00 →
      ∃ c : Cfg, step s = .next { s with program := rest, cfg := c } ∧
        c.samplingRate = (if n = 0x10 then some v else s.cfg.samplingRate) ∧
        c.bitRate = (if n = 0x11 then some v else s.cfg.bitRate) ∧
        c.carrierFreq = (if n = 0x12 then some v else s.cfg.carrierFreq) ∧
        c.amplitude = (if n = 0x13 then Sample.ofRat v.toNat else s.cfg.amplitude) ∧
        c.maxFrameBytes = (if n = 0x14 then some v else s.cfg.maxFrameBytes) ∧
        c.edcWidth = (if n = 0x15 then some v else s.cfg.edcWidth) ∧
        c.crcPoly = (if n = 0x16 then (if v = 0 then .std else .poly v) else s.cfg.crcPoly) ∧
        c.hamM = (if n = 0x17 then v else s.cfg.hamM)) ∧
    (∀ a : Sample, s.program = .wrAmplitude a :: rest →
      step s = .next { s with program := rest, cfg := { s.cfg with amplitude := a } }) ∧
    (∀ (x e : List Sample), s.program = .chan (.seq e) :: rest → s.w = .samples x → e.length = x.length →
      step s = .next { s with program := rest, w := .samples (List.zipWith s.params.arith.add x e) }) ∧
    (∀ (x e : List Sample), s.program = .chan (.seq e) :: rest → s.w = .samples x → e.length ≠ x.length →
      step s = .refused .chanDrawLength) ∧
    (∀ x : List Sample, s.program = .chan .zero :: rest → s.w = .samples x →
      ∃ y : List Sample, step s = .next { s with program := rest, w := .samples y } ∧ y.length = x.length ∧
        ∀ ρ, s.params.arith.IsReal ρ → y.map ρ = x.map ρ) ∧
    (∀ (d : Draw) (b : List Bit), s.program = .chan d :: rest → s.w = .bits b → step s = .refused .chanOnBits)

/-- R372, R374, R55, R420: READW returns W, RDREG returns the register (FAULT as the byte of its code; an unset field, STD, CMD
and every reserved number as 0), and neither changes anything; getStatus reads ERR and CORR. That the host's program and the values returned to it stand in
the state and move with the step is the model's choice (log 2). -/
def Obligations.HostReads : Prop :=
  ∀ (s : State) (rest : List HostAction),
    (s.program = .readw :: rest → step s =
      .next { s with program := rest, returned := s.returned ++ [.buffer s.w] }) ∧
    (∀ n : Byte, s.program = .rdreg n :: rest → step s =
      .next { s with program := rest, returned := s.returned ++ [
        if n = 0x01 then .nat ((if s.st.fault = .none then 0 else 2) + (if s.st.err then 1 else 0))
        else if n = 0x02 then .nat (match s.st.fault with
          | .none => 0x00
          | .badOpcode => 0x01
          | .cfgUnset => 0x02
          | .cfgInvalid => 0x03
          | .badKind => 0x04
          | .badLength => 0x05
          | .frameTooLarge => 0x06
          | .overflow => 0x07)
        else if n = 0x03 then .nat s.st.finfo0.toNat
        else if n = 0x04 then .nat s.st.finfo1.toNat
        else if n = 0x05 then .nat s.st.corr
        else if n = 0x06 then .nat s.st.synd.toNat
        else if n = 0x10 then .nat ((s.cfg.samplingRate.map BitVec.toNat).getD 0)
        else if n = 0x11 then .nat ((s.cfg.bitRate.map BitVec.toNat).getD 0)
        else if n = 0x12 then .nat ((s.cfg.carrierFreq.map BitVec.toNat).getD 0)
        else if n = 0x13 then .sample s.cfg.amplitude
        else if n = 0x14 then .nat ((s.cfg.maxFrameBytes.map BitVec.toNat).getD 0)
        else if n = 0x15 then .nat ((s.cfg.edcWidth.map BitVec.toNat).getD 0)
        else if n = 0x16 then .nat (match s.cfg.crcPoly with
          | .std => 0
          | .poly v => v.toNat)
        else if n = 0x17 then .nat s.cfg.hamM.toNat
        else .nat 0] }) ∧
    getStatus s = (s.st.err, s.st.corr)

/-- 10_state.md sections 1 and 3, 60_exceptions.md section 1: every step keeps the invariant: W fits its capacity, CRC_POLY never holds
the value 0, and FINFO0 and FINFO1 hold what the fault code says. -/
def Obligations.StepKeepsInvariant : Prop :=
  ∀ s t : State, s.Inv → step s = .next t → t.Inv

/-- 70_reset_and_hazards.md section 1: the invariant holds after reset. -/
def Obligations.ResetInvariant : Prop := State.reset.Inv
end

