-- ==== Sys2Proof/Laws/SampleReal.lean ====
section
/-!
SUPPORT. The operations on samples are the operations of the same names on the real numbers (spec 00_scope.md R11): what
`Sample.toReal` of each of them is. The comparison is in Laws/SampleSign.lean.
-/

namespace Sys2Proof

@[simp] theorem Sample.termsReal_nil : Sample.termsReal [] = 0 := rfl

@[simp] theorem Sample.termsReal_cons (t : Rat × Rat) (ts : List (Rat × Rat)) :
    Sample.termsReal (t :: ts) = (t.2 : ℝ) * Real.cos (2 * Real.pi * (t.1 : ℝ)) + Sample.termsReal ts := by
  simp [Sample.termsReal]

@[simp] theorem Sample.toReal_zero : Sample.zero.toReal = 0 := rfl

@[simp] theorem Sample.toReal_ofRat (r : Rat) : (Sample.ofRat r).toReal = (r : ℝ) := by
  unfold Sample.ofRat
  split <;> simp_all [Sample.toReal]

theorem Sample.termsReal_insertTerm (q c : Rat) (ts : List (Rat × Rat)) :
    Sample.termsReal (Sample.insertTerm q c ts)
      = (c : ℝ) * Real.cos (2 * Real.pi * (q : ℝ)) + Sample.termsReal ts := by
  induction ts with
  | nil =>
    unfold Sample.insertTerm
    split <;> simp_all
  | cons t ts ih =>
    obtain ⟨q', c'⟩ := t
    unfold Sample.insertTerm
    split_ifs with h1 h2 h3 h4
    · simp [h2]
    · simp
    · have h5 : (c' : ℝ) + (c : ℝ) = 0 := by exact_mod_cast h4
      subst h3
      simp only [Sample.termsReal_cons]
      linear_combination (-(Real.cos (2 * Real.pi * (q : ℝ)))) * h5
    · subst h3
      simp only [Sample.termsReal_cons]
      push_cast
      ring
    · simp only [Sample.termsReal_cons, ih]
      ring

theorem Sample.cos_foldTurns (q : Rat) :
    Real.cos (2 * Real.pi * (Sample.foldTurns q : ℝ)) = Real.cos (2 * Real.pi * (q : ℝ)) := by
  have h : Real.cos (2 * Real.pi * ((q - q.floor : Rat) : ℝ)) = Real.cos (2 * Real.pi * (q : ℝ)) := by
    push_cast
    rw [mul_sub, ← Real.cos_sub_int_mul_two_pi (2 * Real.pi * (q : ℝ)) q.floor]
    ring_nf
  unfold Sample.foldTurns
  simp only
  split_ifs
  · exact h
  · rw [← h, ← Real.cos_two_pi_sub]
    push_cast
    ring_nf

@[simp] theorem Sample.toReal_addTerm (x : Sample) (t : Rat × Rat) :
    (Sample.addTerm x t).toReal = x.toReal + (t.2 : ℝ) * Real.cos (2 * Real.pi * (t.1 : ℝ)) := by
  rw [← Sample.cos_foldTurns t.1]
  unfold Sample.addTerm
  simp only
  split_ifs with h1 h2
  · simp only [Sample.toReal, Sample.termsReal_insertTerm]
    ring
  · rw [h2]
    have : Real.cos (2 * Real.pi * ((1 / 4 : Rat) : ℝ)) = 0 := by
      rw [← Real.cos_pi_div_two]
      push_cast
      ring_nf
    rw [this]
    ring
  · simp only [Sample.toReal, Sample.termsReal_insertTerm]
    have : Real.cos (2 * Real.pi * ((1 / 2 - Sample.foldTurns t.1 : Rat) : ℝ))
        = -Real.cos (2 * Real.pi * (Sample.foldTurns t.1 : ℝ)) := by
      rw [← Real.cos_pi_sub]
      push_cast
      ring_nf
    rw [this]
    push_cast
    ring

theorem Sample.toReal_foldl_addTerm (ts : List (Rat × Rat)) (x : Sample) :
    (ts.foldl Sample.addTerm x).toReal = x.toReal + Sample.termsReal ts := by
  induction ts generalizing x with
  | nil => simp
  | cons t ts ih =>
    simp only [List.foldl_cons, ih, Sample.toReal_addTerm, Sample.termsReal_cons]
    ring

@[simp] theorem Sample.toReal_add (x y : Sample) : (x.add y).toReal = x.toReal + y.toReal :=
  Sample.toReal_foldl_addTerm y.terms x

@[simp] theorem Sample.toReal_canon (x : Sample) : x.canon.toReal = x.toReal := by
  simpa [Sample.canon, Sample.toReal, Sample.zero] using Sample.toReal_foldl_addTerm x.terms Sample.zero

theorem Sample.termsReal_map_mul (r : Rat) (ts : List (Rat × Rat)) :
    Sample.termsReal (ts.map fun t => (t.1, r * t.2)) = (r : ℝ) * Sample.termsReal ts := by
  induction ts with
  | nil => simp
  | cons t ts ih =>
    simp only [List.map_cons, Sample.termsReal_cons, ih]
    push_cast
    ring

@[simp] theorem Sample.toReal_smul (r : Rat) (x : Sample) : (x.smul r).toReal = (r : ℝ) * x.toReal := by
  unfold Sample.smul
  split
  · simp_all
  · exact Sample.termsReal_map_mul r x.terms

@[simp] theorem Sample.toReal_neg (x : Sample) : x.neg.toReal = -x.toReal := by
  simp [Sample.neg]

@[simp] theorem Sample.toReal_sub (x y : Sample) : (x.sub y).toReal = x.toReal - y.toReal := by
  simp [Sample.sub, sub_eq_add_neg]

@[simp] theorem Sample.toReal_mulTerm (acc : Sample) (s t : Rat × Rat) :
    (Sample.mulTerm acc s t).toReal = acc.toReal
      + ((s.2 : ℝ) * Real.cos (2 * Real.pi * (s.1 : ℝ))) * ((t.2 : ℝ) * Real.cos (2 * Real.pi * (t.1 : ℝ))) := by
  simp only [Sample.mulTerm, Sample.toReal_addTerm]
  push_cast
  rw [mul_add (2 * Real.pi), mul_sub (2 * Real.pi), Real.cos_add, Real.cos_sub]
  ring

@[simp] theorem Sample.toReal_mul (x y : Sample) : (x.mul y).toReal = x.toReal * y.toReal := by
  have inner : ∀ (s : Rat × Rat) (ts : List (Rat × Rat)) (acc : Sample),
      (ts.foldl (fun acc t => Sample.mulTerm acc s t) acc).toReal = acc.toReal
        + ((s.2 : ℝ) * Real.cos (2 * Real.pi * (s.1 : ℝ))) * Sample.termsReal ts := by
    intro s ts
    induction ts with
    | nil => simp
    | cons t ts ih =>
      intro acc
      simp only [List.foldl_cons, ih, Sample.toReal_mulTerm, Sample.termsReal_cons]
      ring
  have outer : ∀ (ss : List (Rat × Rat)) (acc : Sample),
      (ss.foldl (fun acc s => y.terms.foldl (fun acc t => Sample.mulTerm acc s t) acc) acc).toReal
        = acc.toReal + Sample.termsReal ss * Sample.termsReal y.terms := by
    intro ss
    induction ss with
    | nil => simp
    | cons s ss ih =>
      intro acc
      simp only [List.foldl_cons, ih, inner, Sample.termsReal_cons]
      ring
  simpa [Sample.mul, Sample.toReal, Sample.zero] using outer x.terms Sample.zero

@[simp] theorem Sample.toReal_cosTurn (q : Rat) :
    (Sample.cosTurn q).toReal = Real.cos (2 * Real.pi * (q : ℝ)) := by
  simp [Sample.cosTurn]

@[simp] theorem Sample.toReal_sinTurn (q : Rat) :
    (Sample.sinTurn q).toReal = Real.sin (2 * Real.pi * (q : ℝ)) := by
  rw [Sample.sinTurn, Sample.toReal_cosTurn, ← Real.cos_sub_pi_div_two]
  push_cast
  ring_nf

end Sys2Proof
end

