-- ==== Sys2Proof/Laws/SampleCos.lean ====
section
/-!
SUPPORT. The rational approximation of the cosine is within its stated error: `Sample.cosApprox_error`.
-/

namespace Sys2Proof

open Filter Topology

theorem Sample.roundDown_error (p : Nat) (r : Rat) :
    |((Sample.roundDown p r : Rat) : ℝ) - (r : ℝ)| ≤ 1 / 2 ^ p := by
  have hp : (0 : ℝ) < 2 ^ p := by positivity
  set f := (r * ((2 ^ p : Nat) : Rat)).floor with hf
  have h1 : (f : ℝ) ≤ (r : ℝ) * 2 ^ p := by
    have h := Rat.floor_le (r * ((2 ^ p : Nat) : Rat))
    have h' : (((f : Rat)) : ℝ) ≤ ((r * ((2 ^ p : Nat) : Rat) : Rat) : ℝ) := by exact_mod_cast h
    push_cast at h'
    exact h'
  have h2 : (r : ℝ) * 2 ^ p - 1 < (f : ℝ) := by
    have h := Rat.lt_floor (x := r * ((2 ^ p : Nat) : Rat))
    have h' : ((r * ((2 ^ p : Nat) : Rat) - 1 : Rat) : ℝ) < (((f : Rat)) : ℝ) := by exact_mod_cast h
    push_cast at h'
    exact h'
  have h3 : ((Sample.roundDown p r : Rat) : ℝ) - (r : ℝ) = ((f : ℝ) - (r : ℝ) * 2 ^ p) / 2 ^ p := by
    unfold Sample.roundDown
    rw [← hf]
    push_cast
    field_simp
  rw [h3, abs_div, abs_of_pos hp]
  gcongr
  rw [abs_le]
  constructor <;> linarith

/-- The partial sums of the arctangent series of `1/x`, `x ≥ 5`, converge at the rate of powers of 1/25. -/
theorem Sample.atanInv_error (x : Nat) (hx : 5 ≤ x) (n : Nat) :
    |((Sample.atanInv x n : Rat) : ℝ) - Real.arctan ((x : ℝ)⁻¹)| ≤ (5 / 24) * (1 / 25) ^ n := by
  have hx' : (5 : ℝ) ≤ (x : ℝ) := by exact_mod_cast hx
  have hx0 : (0 : ℝ) < (x : ℝ) := by linarith
  have hinv : (x : ℝ)⁻¹ ≤ 1 / 5 := by
    rw [inv_le_comm₀ hx0 (by norm_num)]
    simpa using hx'
  have hinv0 : 0 ≤ (x : ℝ)⁻¹ := by positivity
  let term : ℕ → ℝ := fun i => (-1) ^ i * ((x : ℝ)⁻¹) ^ (2 * i + 1) / ((2 * i + 1 : ℕ) : ℝ)
  have hpart : ∀ n, ((Sample.atanInv x n : Rat) : ℝ) = ∑ i ∈ Finset.range n, term i := by
    intro n
    induction n with
    | zero => simp [Sample.atanInv]
    | succ n ih =>
      rw [Finset.sum_range_succ, ← ih]
      simp only [Sample.atanInv, term]
      have hs : ((if n % 2 = 0 then (1 : Rat) else -1 : Rat) : ℝ) = (-1) ^ n := by
        rcases Nat.even_or_odd n with h | h
        · rw [if_pos (Nat.even_iff.mp h), h.neg_one_pow]
          norm_num
        · rw [if_neg (by rw [Nat.odd_iff.mp h]; norm_num), h.neg_one_pow]
          norm_num
      push_cast at hs ⊢
      rw [hs]
      simp only [inv_pow]
      field_simp
  have hsum : HasSum term (Real.arctan ((x : ℝ)⁻¹)) := by
    apply Real.hasSum_arctan
    rw [Real.norm_eq_abs, abs_of_nonneg hinv0]
    linarith
  have hstep : ∀ n, dist ((Sample.atanInv x n : Rat) : ℝ) ((Sample.atanInv x (n + 1) : Rat) : ℝ)
      ≤ (1 / 5) * (1 / 25) ^ n := by
    intro n
    rw [dist_comm, Real.dist_eq, hpart, hpart, Finset.sum_range_succ, add_sub_cancel_left]
    have h1 : |term n| ≤ ((x : ℝ)⁻¹) ^ (2 * n + 1) := by
      simp only [term]
      rw [abs_div, abs_mul, abs_pow, abs_neg, abs_one, one_pow, one_mul, abs_pow, abs_of_nonneg hinv0]
      apply div_le_self (by positivity)
      rw [abs_of_nonneg (by positivity)]
      exact_mod_cast Nat.le_add_left 1 (2 * n)
    calc |term n| ≤ ((x : ℝ)⁻¹) ^ (2 * n + 1) := h1
      _ ≤ (1 / 5) ^ (2 * n + 1) := by gcongr
      _ = (1 / 5) * (1 / 25) ^ n := by
        rw [pow_succ, pow_mul]
        norm_num
        ring
  have hlim : Tendsto (fun n => ((Sample.atanInv x n : Rat) : ℝ)) atTop (𝓝 (Real.arctan ((x : ℝ)⁻¹))) := by
    simp only [hpart]
    exact hsum.tendsto_sum_nat
  have := dist_le_of_le_geometric_of_tendsto (1 / 25 : ℝ) (1 / 5) (by norm_num) hstep hlim n
  rw [Real.dist_eq] at this
  calc _ ≤ _ := this
    _ = (5 / 24) * (1 / 25) ^ n := by ring

theorem Sample.piApprox_error (n : Nat) : |((Sample.piApprox n : Rat) : ℝ) - Real.pi| ≤ 5 * (1 / 16) ^ n := by
  have h5 := Sample.atanInv_error 5 (by norm_num) n
  have h239 := Sample.atanInv_error 239 (by norm_num) n
  have hpi := Real.four_mul_arctan_inv_5_sub_arctan_inv_239
  have hp : ((1 : ℝ) / 25) ^ n ≤ (1 / 16) ^ n := by gcongr; norm_num
  have hp0 : (0 : ℝ) ≤ (1 / 25) ^ n := by positivity
  unfold Sample.piApprox
  push_cast at *
  rw [abs_le] at *
  constructor <;> linarith [h5.1, h5.2, h239.1, h239.2]

/-- The exact alternating tail of the cosine series in `y = x²` that `Sample.cosSeries` approximates. -/
noncomputable def Sample.cosTail (y : ℝ) : Nat → Nat → ℝ
  | 0, _ => 0
  | k + 1, m => y ^ m / ((2 * m).factorial : ℝ) - Sample.cosTail y k (m + 1)

theorem Sample.cosTail_eq_sum (y : ℝ) (k m : Nat) :
    Sample.cosTail y k m = ∑ i ∈ Finset.range k, (-1) ^ i * (y ^ (m + i) / ((2 * (m + i)).factorial : ℝ)) := by
  induction k generalizing m with
  | zero => simp [Sample.cosTail]
  | succ k ih =>
    rw [Finset.sum_range_succ', Sample.cosTail, ih, sub_eq_add_neg, add_comm, ← Finset.sum_neg_distrib]
    congr 1
    · refine Finset.sum_congr rfl fun i _ => ?_
      rw [show m + 1 + i = m + (i + 1) by ring]
      ring
    · simp

/-- One rounded term of the series is within `2/2^p` of the exact one, if the one before it is (exactly at the start). -/
theorem Sample.cosSeries_error (p : Nat) (y : Rat) (hy0 : (0 : ℝ) ≤ (y : ℝ)) (hy : (y : ℝ) ≤ 4) (k : Nat) :
    ∀ (m : Nat) (t : Rat),
      |(t : ℝ) - (y : ℝ) ^ m / ((2 * m).factorial : ℝ)| ≤ (if m = 0 then 0 else 2) / 2 ^ p →
      |((Sample.cosSeries p y k m t : Rat) : ℝ) - Sample.cosTail (y : ℝ) k m| ≤ k * (2 / 2 ^ p) := by
  have hp : (0 : ℝ) < 2 ^ p := by positivity
  induction k with
  | zero => intro m t _; simp [Sample.cosSeries, Sample.cosTail]
  | succ k ih =>
    intro m t ht
    have ht2 : |(t : ℝ) - (y : ℝ) ^ m / ((2 * m).factorial : ℝ)| ≤ 2 / 2 ^ p := by
      refine ht.trans ?_
      gcongr
      split <;> norm_num
    set t' := Sample.roundDown p (t * y / (((2 * m + 1) * (2 * m + 2) : Nat) : Rat)) with ht'
    have hD : (0 : ℝ) < ((2 * m + 1) * (2 * m + 2) : ℝ) := by positivity
    have hr := Sample.roundDown_error p (t * y / (((2 * m + 1) * (2 * m + 2) : Nat) : Rat))
    rw [← ht'] at hr
    push_cast at hr
    have hfac : (y : ℝ) ^ (m + 1) / ((2 * (m + 1)).factorial : ℝ)
        = ((y : ℝ) ^ m / ((2 * m).factorial : ℝ)) * y / ((2 * m + 1) * (2 * m + 2)) := by
      rw [show 2 * (m + 1) = 2 * m + 1 + 1 by ring, Nat.factorial_succ, Nat.factorial_succ]
      push_cast
      have : ((2 * m).factorial : ℝ) ≠ 0 := by exact_mod_cast Nat.factorial_ne_zero _
      field_simp
      ring
    have hstep : |(t : ℝ) * y / ((2 * m + 1) * (2 * m + 2)) - (y : ℝ) ^ (m + 1) / ((2 * (m + 1)).factorial : ℝ)|
        ≤ 1 / 2 ^ p := by
      rw [hfac, ← sub_div, ← sub_mul, abs_div, abs_mul, abs_of_nonneg hy0, abs_of_pos hD, div_le_iff₀ hD]
      rcases Nat.eq_zero_or_pos m with hm | hm
      · subst hm
        have h0 : |(t : ℝ) - (y : ℝ) ^ 0 / ((2 * 0).factorial : ℝ)| ≤ 0 := by simpa using ht
        have := mul_le_mul_of_nonneg_right h0 hy0
        rw [zero_mul] at this
        exact this.trans (by positivity)
      · have hm1 : (1 : ℝ) ≤ (m : ℝ) := by exact_mod_cast hm
        calc |(t : ℝ) - (y : ℝ) ^ m / ((2 * m).factorial : ℝ)| * (y : ℝ) ≤ (2 / 2 ^ p) * 4 := by gcongr
          _ = 8 * (1 / 2 ^ p) := by ring
          _ ≤ ((2 * m + 1) * (2 * m + 2)) * (1 / 2 ^ p) := by
            gcongr
            nlinarith
          _ = 1 / 2 ^ p * ((2 * m + 1) * (2 * m + 2)) := by ring
    have hnext : |(t' : ℝ) - (y : ℝ) ^ (m + 1) / ((2 * (m + 1)).factorial : ℝ)|
        ≤ (if m + 1 = 0 then 0 else 2) / 2 ^ p := by
      rw [if_neg (Nat.succ_ne_zero m)]
      have := abs_sub_le (t' : ℝ) ((t : ℝ) * y / ((2 * m + 1) * (2 * m + 2)))
        ((y : ℝ) ^ (m + 1) / ((2 * (m + 1)).factorial : ℝ))
      have e : (2 : ℝ) / 2 ^ p = 1 / 2 ^ p + 1 / 2 ^ p := by ring
      rw [e]
      linarith
    have hk := ih (m + 1) t' hnext
    simp only [Sample.cosSeries, Sample.cosTail]
    rw [← ht']
    push_cast
    rw [abs_le] at *
    have e : ((k : ℝ) + 1) * (2 / 2 ^ p) = k * (2 / 2 ^ p) + 2 / 2 ^ p := by ring
    rw [e]
    constructor <;> linarith [hk.1, hk.2, ht2.1, ht2.2]

theorem Sample.pow_div_factorial_le (n : Nat) : (64 : ℝ) ^ n / ((2 * n).factorial : ℝ) ≤ 480 := by
  rcases Nat.lt_or_ge n 4 with h | h
  · interval_cases n <;> norm_num [Nat.factorial]
  · induction n, h using Nat.le_induction with
    | base => norm_num [Nat.factorial]
    | succ n hn ih =>
      have h1 : (4 : ℝ) ≤ (n : ℝ) := by exact_mod_cast hn
      have hf : ((2 * n).factorial : ℝ) ≠ 0 := by exact_mod_cast Nat.factorial_ne_zero _
      have hq : (64 : ℝ) / ((2 * n + 1) * (2 * n + 2)) ≤ 1 := by
        rw [div_le_one (by positivity)]
        nlinarith
      calc (64 : ℝ) ^ (n + 1) / ((2 * (n + 1)).factorial : ℝ)
          = (64 ^ n / ((2 * n).factorial : ℝ)) * (64 / ((2 * n + 1) * (2 * n + 2))) := by
            rw [show 2 * (n + 1) = 2 * n + 1 + 1 by ring, Nat.factorial_succ, Nat.factorial_succ]
            push_cast
            field_simp
            ring
        _ ≤ 480 * 1 := by gcongr
        _ = 480 := by norm_num

/-- The cosine series for `|x| ≤ 2` converges at the rate of powers of 1/16. -/
theorem Sample.cosTail_error (x : ℝ) (hx : x * x ≤ 4) (n : Nat) :
    |Sample.cosTail (x * x) n 0 - Real.cos x| ≤ 512 * (1 / 16) ^ n := by
  let term : ℕ → ℝ := fun i => (-1) ^ i * x ^ (2 * i) / ((2 * i).factorial : ℝ)
  have hpart : ∀ n, Sample.cosTail (x * x) n 0 = ∑ i ∈ Finset.range n, term i := by
    intro n
    rw [Sample.cosTail_eq_sum]
    refine Finset.sum_congr rfl fun i _ => ?_
    simp only [term, Nat.zero_add, pow_mul, sq]
    ring
  have hx0 : 0 ≤ x * x := mul_self_nonneg x
  have hstep : ∀ n, dist (Sample.cosTail (x * x) n 0) (Sample.cosTail (x * x) (n + 1) 0) ≤ 480 * (1 / 16) ^ n := by
    intro n
    rw [dist_comm, Real.dist_eq, hpart, hpart, Finset.sum_range_succ, add_sub_cancel_left]
    have hf : (0 : ℝ) < ((2 * n).factorial : ℝ) := by exact_mod_cast Nat.factorial_pos _
    simp only [term]
    rw [abs_div, abs_mul, abs_pow, abs_neg, abs_one, one_pow, one_mul, pow_mul, sq, abs_pow,
      abs_of_nonneg hx0, abs_of_pos hf]
    calc (x * x) ^ n / ((2 * n).factorial : ℝ) ≤ 4 ^ n / ((2 * n).factorial : ℝ) := by gcongr
      _ = (64 ^ n / ((2 * n).factorial : ℝ)) * (1 / 16) ^ n := by
        rw [show (64 : ℝ) = 4 * 16 by norm_num, mul_pow, one_div_pow]
        field_simp
      _ ≤ 480 * (1 / 16) ^ n := by
        gcongr
        exact Sample.pow_div_factorial_le n
  have hlim : Tendsto (fun n => Sample.cosTail (x * x) n 0) atTop (𝓝 (Real.cos x)) := by
    simp only [hpart]
    exact (Real.hasSum_cos x).tendsto_sum_nat
  have := dist_le_of_le_geometric_of_tendsto (1 / 16 : ℝ) 480 (by norm_num) hstep hlim n
  rw [Real.dist_eq] at this
  calc _ ≤ _ := this
    _ = 512 * (1 / 16) ^ n := by ring

theorem Sample.two_mul_add_one_le_two_pow (n : Nat) (h : 4 ≤ n) : 2 * n + 1 ≤ 2 ^ n := by
  induction n, h using Nat.le_induction with
  | base => norm_num
  | succ k hk ih => rw [pow_succ]; omega

/-- The approximation's error is at most `2^(-b)`. -/
theorem Sample.cosApprox_error (b : Nat) (q : Rat) (h0 : 0 ≤ q) (h1 : q ≤ 1 / 4) :
    |((Sample.cosApprox b q : Rat) : ℝ) - Real.cos (2 * Real.pi * (q : ℝ))| ≤ 1 / 2 ^ b := by
  unfold Sample.cosApprox
  split_ifs with hq
  · subst hq
    simp
  · simp only
    set n := b / 4 + 4 with hn
    set p := b + n + 4 with hp
    set x := Sample.roundDown p (2 * Sample.piApprox n * q) with hx
    have hq0 : (0 : ℝ) ≤ (q : ℝ) := by exact_mod_cast h0
    have hq1 : (q : ℝ) ≤ 1 / 4 := by
      have : ((q : Rat) : ℝ) ≤ ((1 / 4 : Rat) : ℝ) := by exact_mod_cast h1
      push_cast at this
      exact this
    have hB : (0 : ℝ) < 2 ^ b := by positivity
    -- the powers of 1/16 and of 1/2 in terms of 1/2^b
    have h16 : ((1 : ℝ) / 16) ^ n ≤ (1 / 8192) * (1 / 2 ^ b) := by
      have e1 : ((1 : ℝ) / 16) ^ n = 1 / 2 ^ (4 * n) := by
        rw [pow_mul, one_div_pow]
        norm_num
      have e2 : (1 / 8192 : ℝ) * (1 / 2 ^ b) = 1 / 2 ^ (b + 13) := by
        rw [pow_add]
        norm_num
      rw [e1, e2]
      apply one_div_le_one_div_of_le (by positivity)
      apply pow_le_pow_right₀ (by norm_num)
      omega
    have h2p : ((2 * n + 1 : ℕ) : ℝ) * (1 / 2 ^ p) ≤ (1 / 16) * (1 / 2 ^ b) := by
      have hnn : 2 * n + 1 ≤ 2 ^ n := Sample.two_mul_add_one_le_two_pow n (by omega)
      have hnr : ((2 * n + 1 : ℕ) : ℝ) ≤ 2 ^ n := by exact_mod_cast hnn
      calc ((2 * n + 1 : ℕ) : ℝ) * (1 / 2 ^ p) ≤ 2 ^ n * (1 / 2 ^ p) := by gcongr
        _ = (1 / 16) * (1 / 2 ^ b) := by
          have e : (2 : ℝ) ^ p = 2 ^ b * 2 ^ n * 16 := by
            rw [hp, pow_add, pow_add]
            norm_num
          rw [e]
          have hnz : (2 : ℝ) ^ n ≠ 0 := by positivity
          clear_value n
          field_simp
    have hpi := Sample.piApprox_error n
    have hr := Sample.roundDown_error p (2 * Sample.piApprox n * q)
    rw [← hx] at hr
    push_cast at hr
    have hb1 : (1 : ℝ) / 2 ^ b ≤ 1 := by
      rw [div_le_one hB]
      exact one_le_pow₀ (by norm_num)
    have h2p1 : (1 : ℝ) / 2 ^ p ≤ (1 / 16) * (1 / 2 ^ b) := by
      refine le_trans ?_ h2p
      have : (1 : ℝ) ≤ ((2 * n + 1 : ℕ) : ℝ) := by exact_mod_cast Nat.le_add_left 1 (2 * n)
      have h0 : (0 : ℝ) ≤ 1 / 2 ^ p := by positivity
      nlinarith
    -- the angle
    have hang : |(x : ℝ) - 2 * Real.pi * q| ≤ 1 / 2 ^ p + (5 / 2) * (1 / 16) ^ n := by
      have e : |2 * ((Sample.piApprox n : Rat) : ℝ) * q - 2 * Real.pi * q| ≤ (5 / 2) * (1 / 16) ^ n := by
        rw [show 2 * ((Sample.piApprox n : Rat) : ℝ) * q - 2 * Real.pi * q
          = (2 * q) * (((Sample.piApprox n : Rat) : ℝ) - Real.pi) by ring, abs_mul, abs_of_nonneg (by linarith)]
        calc (2 * (q : ℝ)) * |((Sample.piApprox n : Rat) : ℝ) - Real.pi|
            ≤ (1 / 2) * (5 * (1 / 16) ^ n) := by gcongr; linarith
          _ = (5 / 2) * (1 / 16) ^ n := by ring
      have := abs_sub_le (x : ℝ) (2 * ((Sample.piApprox n : Rat) : ℝ) * q) (2 * Real.pi * q)
      linarith
    have hang' : |(x : ℝ) - 2 * Real.pi * q| ≤ (1 / 8) * (1 / 2 ^ b) := by
      refine hang.trans ?_
      have : (0 : ℝ) ≤ 1 / 2 ^ b := by positivity
      linarith
    have hx2 : (x : ℝ) * x ≤ 4 := by
      have hpi4 := Real.pi_lt_d2
      have hpi0 := Real.pi_pos
      have hle : 2 * Real.pi * (q : ℝ) ≤ 2 * 3.15 * (1 / 4) := by gcongr
      have hge : 0 ≤ 2 * Real.pi * (q : ℝ) := by positivity
      have := abs_le.mp hang'
      have hxl : (-2 : ℝ) ≤ x := by linarith [this.1]
      have hxu : (x : ℝ) ≤ 2 := by linarith [this.2]
      nlinarith
    have hser := Sample.cosSeries_error p (x * x) (by push_cast; exact mul_self_nonneg _)
      (by push_cast; exact hx2) n 0 1 (by simp)
    push_cast at hser
    have htail := Sample.cosTail_error (x : ℝ) hx2 n
    have hlip := (Real.abs_cos_sub_cos_le (x : ℝ) (2 * Real.pi * q)).trans hang'
    have hsum : ((n : ℝ)) * (2 / 2 ^ p) ≤ (1 / 16) * (1 / 2 ^ b) := by
      refine le_trans ?_ h2p
      push_cast
      have h0 : (0 : ℝ) ≤ 1 / 2 ^ p := by positivity
      have e : (n : ℝ) * (2 / 2 ^ p) = (2 * n) * (1 / 2 ^ p) := by ring
      rw [e]
      nlinarith
    have hpos : (0 : ℝ) ≤ 1 / 2 ^ b := by positivity
    rw [abs_le] at *
    constructor <;> linarith [hser.1, hser.2, htail.1, htail.2, hlip.1, hlip.2, hang'.1, hang'.2]

end Sys2Proof
end

