-- ==== Sys2Proof/Laws/SampleSign.lean ====
section
/-!
SUPPORT. `Sample.sign` is the comparison of the real number with 0 (spec 00_scope.md R11): a nonzero sum of terms is
farther from 0 than the precision at which its sign is taken, because the norm of a nonzero algebraic integer is at
least 1 in absolute value.
-/

namespace Sys2Proof

open Finset

/-- A term as it stands in the canonical form: its angle is in [0, 1/4) turns. -/
def Sample.TermOk (t : Rat × Rat) : Prop := 0 ≤ t.1 ∧ t.1 < 1 / 4

theorem Sample.mem_insertTerm {q c : Rat} {ts : List (Rat × Rat)} {t : Rat × Rat}
    (h : t ∈ Sample.insertTerm q c ts) : t.1 = q ∨ t ∈ ts ∨ ∃ u ∈ ts, t.1 = u.1 := by
  induction ts with
  | nil =>
    unfold Sample.insertTerm at h
    split at h <;> simp_all
  | cons u us ih =>
    obtain ⟨q', c'⟩ := u
    unfold Sample.insertTerm at h
    split_ifs at h with h1 h2 h3 h4
    · exact .inr (.inl h)
    · rcases List.mem_cons.mp h with rfl | h
      · exact .inl rfl
      · exact .inr (.inl h)
    · exact .inr (.inl (List.mem_cons_of_mem _ h))
    · rcases List.mem_cons.mp h with rfl | h
      · exact .inr (.inr ⟨(q', c'), List.mem_cons_self, rfl⟩)
      · exact .inr (.inl (List.mem_cons_of_mem _ h))
    · rcases List.mem_cons.mp h with rfl | h
      · exact .inr (.inl List.mem_cons_self)
      · rcases ih h with h | h | ⟨u, hu, he⟩
        · exact .inl h
        · exact .inr (.inl (List.mem_cons_of_mem _ h))
        · exact .inr (.inr ⟨u, List.mem_cons_of_mem _ hu, he⟩)

theorem Sample.foldTurns_range (q : Rat) : 0 ≤ Sample.foldTurns q ∧ Sample.foldTurns q ≤ 1 / 2 := by
  have h1 := Rat.floor_le q
  have h2 := Rat.lt_floor (x := q)
  unfold Sample.foldTurns
  simp only
  split_ifs with h <;> constructor <;> linarith

theorem Sample.termOk_addTerm {x : Sample} (hx : ∀ t ∈ x.terms, Sample.TermOk t) (u : Rat × Rat) :
    ∀ t ∈ (Sample.addTerm x u).terms, Sample.TermOk t := by
  have hr := Sample.foldTurns_range u.1
  have ins : ∀ q c, 0 ≤ q → q < 1 / 4 → ∀ t ∈ Sample.insertTerm q c x.terms, Sample.TermOk t := by
    intro q c h0 h1 t ht
    rcases Sample.mem_insertTerm ht with h | h | ⟨v, hv, he⟩
    · exact ⟨h ▸ h0, h ▸ h1⟩
    · exact hx t h
    · exact ⟨he ▸ (hx v hv).1, he ▸ (hx v hv).2⟩
  unfold Sample.addTerm
  simp only
  split_ifs with h1 h2
  · exact ins _ _ hr.1 h1
  · exact hx
  · refine ins _ _ (by linarith [hr.2]) ?_
    have : 1 / 4 < Sample.foldTurns u.1 := lt_of_le_of_ne (not_lt.mp h1) (Ne.symm h2)
    linarith

theorem Sample.termOk_canon (x : Sample) : ∀ t ∈ x.canon.terms, Sample.TermOk t := by
  have : ∀ (ts : List (Rat × Rat)) (y : Sample), (∀ t ∈ y.terms, Sample.TermOk t) →
      ∀ t ∈ (ts.foldl Sample.addTerm y).terms, Sample.TermOk t := by
    intro ts
    induction ts with
    | nil => exact fun y hy => hy
    | cons u us ih => exact fun y hy => ih _ (Sample.termOk_addTerm hy u)
  exact this x.terms Sample.zero (by simp [Sample.zero])

/-! ### Denominators, heights and the approximation as sums -/

theorem Sample.dvd_foldl_lcm (f : Rat × Rat → Nat) (ts : List (Rat × Rat)) :
    ∀ n, n ∣ ts.foldl (fun n t => Nat.lcm n (f t)) n ∧
      ∀ t ∈ ts, f t ∣ ts.foldl (fun n t => Nat.lcm n (f t)) n := by
  induction ts with
  | nil => simp
  | cons t ts ih =>
    intro n
    obtain ⟨h1, h2⟩ := ih (Nat.lcm n (f t))
    refine ⟨(Nat.dvd_lcm_left _ _).trans h1, ?_⟩
    intro u hu
    rcases List.mem_cons.mp hu with rfl | hu
    · exact (Nat.dvd_lcm_right _ _).trans h1
    · exact h2 u hu

theorem Sample.foldl_lcm_pos (f : Rat × Rat → Nat) (hf : ∀ t, 0 < f t) (ts : List (Rat × Rat)) :
    ∀ n, 0 < n → 0 < ts.foldl (fun n t => Nat.lcm n (f t)) n := by
  induction ts with
  | nil => exact fun n h => h
  | cons t ts ih => exact fun n h => ih _ (Nat.lcm_pos h (hf t))

theorem Sample.order_pos (x : Sample) : 0 < x.order :=
  Sample.foldl_lcm_pos (fun t => t.1.den) (fun t => t.1.den_pos) x.terms 1 one_pos

theorem Sample.scale_pos (x : Sample) : 0 < x.scale :=
  Sample.foldl_lcm_pos (fun t => t.2.den) (fun t => t.2.den_pos) x.terms 1 one_pos

theorem Sample.dvd_order (x : Sample) : ∀ t ∈ x.terms, t.1.den ∣ x.order :=
  (Sample.dvd_foldl_lcm (fun t => t.1.den) x.terms 1).2

theorem Sample.dvd_scale (x : Sample) : ∀ t ∈ x.terms, t.2.den ∣ x.scale :=
  (Sample.dvd_foldl_lcm (fun t => t.2.den) x.terms 1).2

/-- `D · r` for a common denominator `D` of `r`, as an integer. -/
theorem Sample.exists_int_of_den_dvd (r : Rat) (d : Nat) (h : r.den ∣ d) :
    ((r.num * ((d / r.den : Nat) : Int) : Int) : ℝ) = (d : ℝ) * (r : ℝ) := by
  obtain ⟨k, rfl⟩ := h
  rw [Nat.mul_div_cancel_left k r.den_pos]
  have hd : (r.den : ℝ) ≠ 0 := by exact_mod_cast r.den_pos.ne'
  have : (r : ℝ) = (r.num : ℝ) / (r.den : ℝ) := Rat.cast_def r
  rw [this]
  push_cast
  field_simp

theorem Sample.height_eq (x : Sample) :
    (x.height : ℝ) = 2 * ((x.scale : ℝ) * (x.terms.map fun t => |(t.2 : ℝ)|).sum) := by
  have : ∀ (ts : List (Rat × Rat)) (h : Nat), (∀ t ∈ ts, t.2.den ∣ x.scale) →
      ((ts.foldl (fun h t => h + 2 * (t.2.num.natAbs * (x.scale / t.2.den))) h : Nat) : ℝ)
        = h + 2 * ((x.scale : ℝ) * (ts.map fun t => |(t.2 : ℝ)|).sum) := by
    intro ts
    induction ts with
    | nil => simp
    | cons t ts ih =>
      intro h hd
      rw [List.foldl_cons, ih _ fun u hu => hd u (List.mem_cons_of_mem _ hu)]
      have e := Sample.exists_int_of_den_dvd t.2 x.scale (hd t List.mem_cons_self)
      have e' : ((t.2.num.natAbs : ℝ)) * ((x.scale / t.2.den : Nat) : ℝ) = (x.scale : ℝ) * |(t.2 : ℝ)| := by
        have := congrArg (fun r : ℝ => |r|) e
        push_cast at this
        rw [abs_mul, abs_mul, abs_of_nonneg (a := (x.scale : ℝ)) (by positivity)] at this
        rw [← this, Nat.cast_natAbs, Int.cast_abs, ← Int.natCast_div, Int.cast_natCast,
          abs_of_nonneg (a := ((x.scale / t.2.den : Nat) : ℝ)) (by positivity)]
      simp only [List.map_cons, List.sum_cons]
      push_cast at e' ⊢
      linarith
  simpa [Sample.height] using this x.terms 0 x.dvd_scale

theorem Sample.approx_eq (b : Nat) (x : Sample) :
    ((Sample.approx b x : Rat) : ℝ)
      = (x.terms.map fun t => (t.2 : ℝ) * ((Sample.cosApprox b t.1 : Rat) : ℝ)).sum := by
  have : ∀ (ts : List (Rat × Rat)) (a : Rat),
      ((ts.foldl (fun a t => a + t.2 * Sample.cosApprox b t.1) a : Rat) : ℝ)
        = (a : ℝ) + (ts.map fun t => (t.2 : ℝ) * ((Sample.cosApprox b t.1 : Rat) : ℝ)).sum := by
    intro ts
    induction ts with
    | nil => simp
    | cons t ts ih =>
      intro a
      rw [List.foldl_cons, ih]
      simp only [List.map_cons, List.sum_cons]
      push_cast
      ring
  simpa [Sample.approx] using this x.terms 0

/-- An approximation with `b` bits per cosine is within `sum |c| / 2^b` of the real. -/
theorem Sample.approx_error (b : Nat) (x : Sample) (hx : ∀ t ∈ x.terms, Sample.TermOk t) :
    |((Sample.approx b x : Rat) : ℝ) - x.toReal| ≤ (x.terms.map fun t => |(t.2 : ℝ)|).sum * (1 / 2 ^ b) := by
  rw [Sample.approx_eq, Sample.toReal, Sample.termsReal]
  generalize x.terms = ts at hx
  induction ts with
  | nil => simp
  | cons t ts ih =>
    have h := ih fun u hu => hx u (List.mem_cons_of_mem _ hu)
    have ht := hx t List.mem_cons_self
    have he := Sample.cosApprox_error b t.1 ht.1 ht.2.le
    have hm : |(t.2 : ℝ) * ((Sample.cosApprox b t.1 : Rat) : ℝ) - (t.2 : ℝ) * Real.cos (2 * Real.pi * (t.1 : ℝ))|
        ≤ |(t.2 : ℝ)| * (1 / 2 ^ b) := by
      rw [← mul_sub, abs_mul]
      gcongr
    simp only [List.map_cons, List.sum_cons]
    rw [add_mul, add_sub_add_comm]
    exact (abs_add_le _ _).trans (add_le_add hm h)

/-! ### The separation bound -/

/-- The norm of a nonzero algebraic integer of the field of `n`-th roots of unity, seen through its embeddings. -/
theorem Sample.one_le_norm_mul_pow {K : Type} [Field K] [Algebra ℚ K] [FiniteDimensional ℚ K]
    (n : Nat) [NeZero n] [IsCyclotomicExtension {n} ℚ K] (φ₀ : K →ₐ[ℚ] ℂ) (α : K) (hα : IsIntegral ℤ α)
    (h0 : α ≠ 0) (B : ℝ) (hB : ∀ φ : K →ₐ[ℚ] ℂ, ‖φ α‖ ≤ B) :
    1 ≤ ‖φ₀ α‖ * B ^ (n.totient - 1) := by
  classical
  have hcard : Fintype.card (K →ₐ[ℚ] ℂ) = n.totient := by
    rw [AlgHom.card, IsCyclotomicExtension.finrank K (Polynomial.cyclotomic.irreducible_rat (NeZero.pos n))]
  have hint : IsIntegral ℤ (Algebra.norm ℚ α) := Algebra.isIntegral_norm ℚ hα
  obtain ⟨z, hz⟩ := IsIntegrallyClosed.isIntegral_iff.mp hint
  have hz0 : z ≠ 0 := by
    rintro rfl
    rw [map_zero] at hz
    exact h0 (Algebra.norm_eq_zero_iff.mp hz.symm)
  have hprod := Algebra.norm_eq_prod_embeddings ℚ ℂ α
  have hnorm : (1 : ℝ) ≤ ∏ φ : K →ₐ[ℚ] ℂ, ‖φ α‖ := by
    rw [← norm_prod, ← hprod, ← hz]
    have h1 : (1 : ℝ) ≤ |(z : ℝ)| := by
      rw [← Int.cast_abs]
      exact_mod_cast Int.one_le_abs hz0
    simpa using h1
  rw [← Finset.mul_prod_erase Finset.univ (fun φ : K →ₐ[ℚ] ℂ => ‖φ α‖) (Finset.mem_univ φ₀)] at hnorm
  refine hnorm.trans ?_
  gcongr
  have hc : (Finset.univ.erase φ₀).card = n.totient - 1 := by
    rw [Finset.card_erase_of_mem (Finset.mem_univ φ₀), Finset.card_univ, hcard]
  rw [← hc]
  calc ∏ φ ∈ Finset.univ.erase φ₀, ‖φ α‖ ≤ ∏ _φ ∈ Finset.univ.erase φ₀, B :=
        Finset.prod_le_prod (fun _ _ => norm_nonneg _) fun φ _ => hB φ
    _ = B ^ (Finset.univ.erase φ₀).card := by rw [Finset.prod_const]

/-- The value a ring map into ℂ with `ζ ↦ μ` gives to an integer combination of `ζ^k + ζ^(-k)`. -/
theorem Sample.map_combination {K L : Type} [Field K] [Field L] (φ : K →+* L) (ζ : K) (ts : List (Int × Int)) :
    φ (ts.map fun t => (t.1 : K) * (ζ ^ t.2 + ζ ^ (-t.2))).sum
      = (ts.map fun t => (t.1 : L) * ((φ ζ) ^ t.2 + (φ ζ) ^ (-t.2))).sum := by
  induction ts with
  | nil => simp
  | cons t ts ih =>
    simp only [List.map_cons, List.sum_cons, map_add, map_mul, map_intCast, map_zpow₀]
    rw [ih]

/-- A nonzero integer combination of the cosines of multiples of one `n`-th of a turn, times the `(φ(n) − 1)`-th power of
twice the sum of its coefficients' absolute values, is at least 1 in absolute value. -/
theorem Sample.one_le_cos_combination {K : Type} [Field K] [Algebra ℚ K]
    (n : Nat) [NeZero n] [IsCyclotomicExtension {n} ℚ K] (ts : List (Int × Int))
    (hne : (ts.map fun t => 2 * ((t.1 : ℝ) * Real.cos (2 * Real.pi * ((t.2 : ℝ) / n)))).sum ≠ 0) :
    1 ≤ |(ts.map fun t => 2 * ((t.1 : ℝ) * Real.cos (2 * Real.pi * ((t.2 : ℝ) / n)))).sum|
      * (ts.map fun t => 2 * |(t.1 : ℝ)|).sum ^ (n.totient - 1) := by
  have hn : 0 < n := NeZero.pos n
  have : FiniteDimensional ℚ K := IsCyclotomicExtension.finiteDimensional {n} ℚ K
  have hζ := IsCyclotomicExtension.zeta_spec n ℚ K
  set ζ : K := IsCyclotomicExtension.zeta n ℚ K
  have hirr := Polynomial.cyclotomic.irreducible_rat hn
  let μ : ℂ := Complex.exp (2 * Real.pi * Complex.I / n)
  have hμ : IsPrimitiveRoot μ n := Complex.isPrimitiveRoot_exp n hn.ne'
  let φ₀ : K →ₐ[ℚ] ℂ := (hζ.embeddingsEquivPrimitiveRoots ℂ hirr).symm ⟨μ, (mem_primitiveRoots hn).mpr hμ⟩
  have hφ₀ : φ₀ ζ = μ := by
    have h := hζ.embeddingsEquivPrimitiveRoots_apply_coe ℂ hirr φ₀
    rw [← h]
    simp [φ₀]
  let α : K := (ts.map fun t => (t.1 : K) * (ζ ^ t.2 + ζ ^ (-t.2))).sum
  have hzpow : ∀ k : Int, IsIntegral ℤ (ζ ^ k) := by
    intro k
    cases k with
    | ofNat k => simpa using (hζ.isIntegral hn).pow k
    | negSucc k =>
      rw [zpow_negSucc, ← inv_pow]
      exact (hζ.inv.isIntegral hn).pow (k + 1)
  have hα : IsIntegral ℤ α := by
    simp only [α]
    clear hne
    induction ts with
    | nil => simpa using isIntegral_zero
    | cons t ts ih =>
      simp only [List.map_cons, List.sum_cons]
      exact ((isIntegral_algebraMap (R := ℤ) (A := K) (x := t.1)).mul ((hzpow _).add (hzpow _))).add ih
  have hval : φ₀ α = (((ts.map fun t => 2 * ((t.1 : ℝ) * Real.cos (2 * Real.pi * ((t.2 : ℝ) / n)))).sum : ℝ) : ℂ) := by
    have h := Sample.map_combination (φ₀ : K →+* ℂ) ζ ts
    have h' : φ₀ α = (ts.map fun t => (t.1 : ℂ) * (μ ^ t.2 + μ ^ (-t.2))).sum := by
      simpa [α, hφ₀] using h
    rw [h']
    clear hne h h' hα α
    induction ts with
    | nil => simp
    | cons t ts ih =>
      have e : (t.1 : ℂ) * (μ ^ t.2 + μ ^ (-t.2))
          = ((2 * ((t.1 : ℝ) * Real.cos (2 * Real.pi * ((t.2 : ℝ) / n))) : ℝ) : ℂ) := by
        simp only [μ]
        rw [← Complex.exp_int_mul, ← Complex.exp_int_mul]
        push_cast
        rw [Complex.cos]
        ring_nf
      simp only [List.map_cons, List.sum_cons]
      rw [e]
      push_cast at ih ⊢
      rw [ih]
  have hα0 : α ≠ 0 := by
    intro h
    rw [h, map_zero] at hval
    exact hne (by exact_mod_cast hval.symm)
  have hbound : ∀ φ : K →ₐ[ℚ] ℂ, ‖φ α‖ ≤ (ts.map fun t => 2 * |(t.1 : ℝ)|).sum := by
    intro φ
    have hroot : ‖φ ζ‖ = 1 := (hζ.map_of_injective φ.injective).norm'_eq_one hn.ne'
    have h := Sample.map_combination (φ : K →+* ℂ) ζ ts
    have h' : φ α = (ts.map fun t => (t.1 : ℂ) * ((φ ζ) ^ t.2 + (φ ζ) ^ (-t.2))).sum := by
      simpa [α] using h
    rw [h']
    clear hne hval hα0 hα h h' α
    induction ts with
    | nil => simp
    | cons t ts ih =>
      simp only [List.map_cons, List.sum_cons]
      refine (norm_add_le _ _).trans (add_le_add ?_ ih)
      rw [norm_mul, Complex.norm_intCast, mul_comm (2 : ℝ)]
      gcongr
      refine (norm_add_le _ _).trans ?_
      rw [norm_zpow, norm_zpow, hroot, one_zpow, one_zpow]
      norm_num
  have := Sample.one_le_norm_mul_pow n φ₀ α hα hα0 _ hbound
  rwa [hval, Complex.norm_real, Real.norm_eq_abs] at this

theorem Sample.sum_abs_eq_zero_of_height (x : Sample) (h0 : x.height = 0) :
    (x.terms.map fun t => |(t.2 : ℝ)|).sum = 0 := by
  have hD : (x.scale : ℝ) ≠ 0 := by exact_mod_cast x.scale_pos.ne'
  have h := x.height_eq
  rw [h0] at h
  push_cast at h
  have h2 : (x.scale : ℝ) * (x.terms.map fun t => |(t.2 : ℝ)|).sum = 0 := by linarith
  exact (mul_eq_zero.mp h2).resolve_left hD

theorem Sample.toReal_eq_zero_of_height (x : Sample) (h0 : x.height = 0) : x.toReal = 0 := by
  have hS := x.sum_abs_eq_zero_of_height h0
  rw [Sample.toReal, Sample.termsReal]
  refine List.sum_eq_zero fun r hr => ?_
  obtain ⟨t, ht, rfl⟩ := List.mem_map.mp hr
  have hle : |(t.2 : ℝ)| ≤ (x.terms.map fun t => |(t.2 : ℝ)|).sum :=
    List.single_le_sum (by
      intro y hy
      obtain ⟨u, _, rfl⟩ := List.mem_map.mp hy
      exact abs_nonneg _) _ (List.mem_map.mpr ⟨t, ht, rfl⟩)
  rw [hS] at hle
  rw [abs_eq_zero.mp (le_antisymm hle (abs_nonneg _)), zero_mul]

/-- A sample that is not 0 is at least `1 / (scale · height^φ(order))` away from it, twice over. -/
theorem Sample.separation (x : Sample) (hx : x.toReal ≠ 0) :
    1 ≤ |2 * ((x.scale : ℝ) * x.toReal)| * (x.height : ℝ) ^ x.order.totient := by
  have hn := x.order_pos
  have : NeZero x.order := ⟨hn.ne'⟩
  have : NeZero ((x.order : Nat) : ℚ) := ⟨by exact_mod_cast hn.ne'⟩
  have hD : (x.scale : ℝ) ≠ 0 := by exact_mod_cast x.scale_pos.ne'
  let f : Rat × Rat → Int × Int := fun t =>
    (t.2.num * ((x.scale / t.2.den : Nat) : Int), t.1.num * ((x.order / t.1.den : Nat) : Int))
  have hf1 : ∀ t ∈ x.terms, (((f t).1 : Int) : ℝ) = (x.scale : ℝ) * (t.2 : ℝ) := fun t ht =>
    Sample.exists_int_of_den_dvd t.2 x.scale (x.dvd_scale t ht)
  have hf2 : ∀ t ∈ x.terms, (((f t).2 : Int) : ℝ) / (x.order : ℝ) = (t.1 : ℝ) := by
    intro t ht
    rw [show (((f t).2 : Int) : ℝ) = (x.order : ℝ) * (t.1 : ℝ) from
      Sample.exists_int_of_den_dvd t.1 x.order (x.dvd_order t ht)]
    field_simp
  have hsum : ((x.terms.map f).map fun t => 2 * ((t.1 : ℝ) * Real.cos (2 * Real.pi * ((t.2 : ℝ) / x.order)))).sum
      = 2 * ((x.scale : ℝ) * x.toReal) := by
    rw [Sample.toReal, Sample.termsReal, List.map_map, ← List.sum_map_mul_left, ← List.sum_map_mul_left]
    refine congrArg List.sum (List.map_congr_left fun t ht => ?_)
    simp only [Function.comp]
    rw [hf1 t ht, hf2 t ht]
    ring
  have hheight : ((x.terms.map f).map fun t => 2 * |(t.1 : ℝ)|).sum = (x.height : ℝ) := by
    rw [Sample.height_eq, List.map_map, ← List.sum_map_mul_left, ← List.sum_map_mul_left]
    refine congrArg List.sum (List.map_congr_left fun t ht => ?_)
    simp only [Function.comp]
    rw [hf1 t ht, abs_mul, abs_of_nonneg (a := (x.scale : ℝ)) (by positivity)]
  have hne : ((x.terms.map f).map fun t => 2 * ((t.1 : ℝ) * Real.cos (2 * Real.pi * ((t.2 : ℝ) / x.order)))).sum
      ≠ 0 := by
    rw [hsum]
    exact mul_ne_zero two_ne_zero (mul_ne_zero hD hx)
  have hext := CyclotomicField.isCyclotomicExtension x.order ℚ
  have h := @Sample.one_le_cos_combination (CyclotomicField x.order ℚ) _ _ x.order _ hext (x.terms.map f) hne
  rw [hsum, hheight] at h
  refine h.trans ?_
  have h1 : (1 : ℝ) ≤ (x.height : ℝ) := by
    have : x.height ≠ 0 := fun h0 => hx (x.toReal_eq_zero_of_height h0)
    exact_mod_cast Nat.one_le_iff_ne_zero.mpr this
  exact mul_le_mul_of_nonneg_left (pow_le_pow_right₀ h1 (Nat.sub_le _ _)) (abs_nonneg _)

/-! ### The sign -/

theorem Sample.signFrom_of_error {v e r : ℝ} {v' e' : Rat} (hv : (v' : ℝ) = v) (he : (e' : ℝ) = e)
    (herr : |v - r| ≤ e) :
    (Sample.signFrom v' e' = .lt → r < 0) ∧ (Sample.signFrom v' e' = .gt → 0 < r) := by
  rw [abs_le] at herr
  subst hv he
  unfold Sample.signFrom
  constructor
  · split_ifs with h1 h2
    · intro _
      have : (v' : ℝ) < ((-e' : Rat) : ℝ) := by exact_mod_cast h1
      push_cast at this
      linarith [herr.1]
    · simp
    · simp
  · split_ifs with h1 h2
    · simp
    · intro _
      have : (e' : ℝ) < (v' : ℝ) := by exact_mod_cast h2
      linarith [herr.2]
    · simp

theorem Sample.signFrom_of_separated {v e r : ℝ} {v' e' : Rat} (hv : (v' : ℝ) = v) (he : (e' : ℝ) = e)
    (herr : |v - r| < e) (hsep : r = 0 ∨ 2 * e ≤ |r|) :
    (Sample.signFrom v' e' = .lt ↔ r < 0) ∧ (Sample.signFrom v' e' = .gt ↔ 0 < r) := by
  obtain ⟨h1, h2⟩ := Sample.signFrom_of_error hv he herr.le
  subst hv he
  rw [abs_lt] at herr
  refine ⟨⟨h1, fun hr => ?_⟩, ⟨h2, fun hr => ?_⟩⟩
  · rcases hsep with h | h
    · exact absurd h hr.ne
    · rw [abs_of_neg hr] at h
      unfold Sample.signFrom
      have : (v' : Rat) < -e' := by
        have : (v' : ℝ) < ((-e' : Rat) : ℝ) := by push_cast; linarith [herr.2]
        exact_mod_cast this
      rw [if_pos this]
  · rcases hsep with h | h
    · exact absurd h hr.ne'
    · rw [abs_of_pos hr] at h
      unfold Sample.signFrom
      have h3 : ¬ (v' : Rat) < -e' := by
        have : ((-e' : Rat) : ℝ) ≤ (v' : ℝ) := by push_cast; linarith [herr.1]
        exact not_lt.mpr (by exact_mod_cast this)
      have h4 : e' < v' := by
        have : (e' : ℝ) < (v' : ℝ) := by linarith [herr.1]
        exact_mod_cast this
      rw [if_neg h3, if_pos h4]

/-- `Sample.sign` compares the real number with 0. -/
theorem Sample.sign_spec (x : Sample) :
    (x.sign = .lt ↔ x.toReal < 0) ∧ (x.sign = .gt ↔ 0 < x.toReal) := by
  rw [← Sample.toReal_canon x]
  have hok := Sample.termOk_canon x
  unfold Sample.sign
  simp only
  set y := x.canon
  split_ifs with hy
  · have : y.toReal = 0 := by rw [Sample.toReal, hy]; rfl
    simp [this]
  · have hD : (0 : ℝ) < (y.scale : ℝ) := by exact_mod_cast y.scale_pos
    have hD1 : (1 : ℝ) ≤ (y.scale : ℝ) := by exact_mod_cast y.scale_pos
    set S := (y.terms.map fun t => |(t.2 : ℝ)|).sum with hS
    have hS0 : 0 ≤ S := List.sum_nonneg fun r hr => by
      obtain ⟨t, _, rfl⟩ := List.mem_map.mp hr
      exact abs_nonneg _
    have hH : (y.height : ℝ) = 2 * ((y.scale : ℝ) * S) := y.height_eq
    have hSH : S ≤ (y.height : ℝ) := by rw [hH]; nlinarith
    have herr40 := Sample.approx_error 40 y hok
    have h40 := Sample.signFrom_of_error (v' := Sample.approx 40 y)
      (e' := (y.height : Rat) / ((2 ^ 40 : Nat) : Rat)) rfl rfl (r := y.toReal) (by
        refine herr40.trans ?_
        push_cast
        rw [div_eq_mul_one_div (y.height : ℝ)]
        have : (0 : ℝ) ≤ 1 / 2 ^ 40 := by positivity
        norm_num at this ⊢
        linarith)
    cases hc : Sample.signFrom (Sample.approx 40 y) ((y.height : Rat) / ((2 ^ 40 : Nat) : Rat)) with
    | lt =>
      have := h40.1 hc
      simp [this, this.le]
    | gt =>
      have := h40.2 hc
      simp [this, this.le]
    | eq =>
      simp only
      set g := y.height ^ y.order.totient with hg
      set b := Nat.log2 (4 * y.height * g) + 1 with hb
      rcases eq_or_ne y.height 0 with h0 | h0
      · have hr := y.toReal_eq_zero_of_height h0
        have he := Sample.approx_error b y hok
        rw [y.sum_abs_eq_zero_of_height h0, hr, zero_mul, sub_zero] at he
        have hv : Sample.approx b y = 0 := by
          have := abs_eq_zero.mp (le_antisymm he (abs_nonneg _))
          exact_mod_cast this
        have hq : ¬ (1 / ((4 * y.scale * g : Nat) : Rat)) < 0 := not_lt.mpr (by positivity)
        have hq' : ¬ (0 : Rat) < -(1 / ((4 * y.scale * g : Nat) : Rat)) := by
          rw [Left.neg_pos_iff]
          exact hq
        rw [hv, hr, Sample.signFrom, if_neg hq', if_neg hq]
        simp
      · have hh1 : (1 : ℝ) ≤ (y.height : ℝ) := by exact_mod_cast Nat.one_le_iff_ne_zero.mpr h0
        have hg0 : (0 : ℝ) < (g : ℝ) := by rw [hg]; push_cast; positivity
        have hpow : 4 * (y.height : ℝ) * g < 2 ^ b := by exact_mod_cast Nat.lt_log2_self
        have herr := Sample.approx_error b y hok
        apply Sample.signFrom_of_separated rfl rfl
        · refine herr.trans_lt ?_
          push_cast
          rw [← hS, mul_one_div, div_lt_div_iff₀ (by positivity) (by positivity)]
          have : S * (4 * (y.scale : ℝ) * g) ≤ 4 * (y.height : ℝ) * g := by
            rw [hH]
            have : 0 ≤ (y.scale : ℝ) * S * g := by positivity
            nlinarith
          linarith
        · rcases eq_or_ne y.toReal 0 with hr | hr
          · exact .inl hr
          · right
            have hs := y.separation hr
            rw [abs_mul, abs_mul, abs_of_pos hD, abs_of_pos (by norm_num : (0 : ℝ) < 2)] at hs
            push_cast
            rw [mul_one_div, div_le_iff₀ (by positivity)]
            have : (g : ℝ) = (y.height : ℝ) ^ y.order.totient := by rw [hg]; push_cast; rfl
            rw [this]
            linarith

/-! ### The comparisons of the rules, on the real numbers -/

@[simp] theorem Sample.lt_iff (x y : Sample) : Sample.lt x y = true ↔ x.toReal < y.toReal := by
  rw [Sample.lt, beq_iff_eq, (Sample.sign_spec _).1, Sample.toReal_sub, sub_neg]

@[simp] theorem Sample.le_iff (x y : Sample) : Sample.le x y = true ↔ x.toReal ≤ y.toReal := by
  rw [Sample.le, Bool.not_eq_true', ← not_lt, ← Sample.lt_iff, Bool.not_eq_true]

@[simp] theorem Sample.isNeg_iff (x : Sample) : x.isNeg = true ↔ x.toReal < 0 := by
  rw [Sample.isNeg, beq_iff_eq, (Sample.sign_spec x).1]

@[simp] theorem Sample.isZero_iff (x : Sample) : x.isZero = true ↔ x.toReal = 0 := by
  have h := Sample.sign_spec x
  rw [Sample.isZero, beq_iff_eq]
  cases hs : x.sign with
  | lt => simpa using (h.1.mp hs).ne
  | gt => simpa using (h.2.mp hs).ne'
  | eq =>
    have h1 : ¬ x.toReal < 0 := fun hr => by simpa [hs] using h.1.mpr hr
    have h2 : ¬ 0 < x.toReal := fun hr => by simpa [hs] using h.2.mpr hr
    simpa using le_antisymm (not_lt.mp h2) (not_lt.mp h1)

@[simp] theorem Sample.toReal_abs (x : Sample) : x.abs.toReal = |x.toReal| := by
  unfold Sample.abs
  split_ifs with h
  · rw [Sample.toReal_neg, abs_of_neg ((Sample.isNeg_iff x).mp h)]
  · rw [abs_of_nonneg (not_lt.mp fun hn => h ((Sample.isNeg_iff x).mpr hn))]

end Sys2Proof
end

