-- ==== Sys2Proof/Laws/Arith.lean ====
section
/-!
SUPPORT. The arithmetic of Machine/Sample.lean computes with the real numbers, and what the derived operations of an arithmetic
that does so are on them: sums, means, correlations, the tests against 0.
-/

namespace Sys2Proof

open Machine

theorem toReal_ofTurns (fs f k : Nat) : 2 * Real.pi * ((phaseTurns fs f k : Rat) : ℝ) = theta fs f k := by
  unfold phaseTurns theta
  push_cast
  ring

/-- The exact reals that R7 recommends: every operation, comparison and reference is the one on the real numbers. -/
theorem exact_isReal : Arith.exact.IsReal Sample.toReal where
  ofRat := Sample.toReal_ofRat
  add := Sample.toReal_add
  sub := Sample.toReal_sub
  mul := Sample.toReal_mul
  neg := Sample.toReal_neg
  abs := Sample.toReal_abs
  lt := Sample.lt_iff
  le := Sample.le_iff
  eq := fun x y => by
    show (Sample.sub x y).isZero = true ↔ _
    rw [Sample.isZero_iff, Sample.toReal_sub, sub_eq_zero]
  divNat := fun x n => by
    show (Sample.smul _ x).toReal = _
    rw [Sample.toReal_smul]
    push_cast
    ring
  ltQuot := fun x y b hy => by
    show Sample.lt x (Sample.mul b y) = true ↔ _
    rw [Sample.lt_iff, Sample.toReal_mul, div_lt_iff₀ hy]
  sinAt := fun fs f k => by
    show (Sample.sinTurn _).toReal = _
    rw [Sample.toReal_sinTurn, toReal_ofTurns]
  cosAt := fun fs f k => by
    show (Sample.cosTurn _).toReal = _
    rw [Sample.toReal_cosTurn, toReal_ofTurns]
  cosShiftAt := fun fs f k e => by
    show (Sample.cosTurn _).toReal = _
    rw [Sample.toReal_cosTurn, Rat.cast_add, mul_add, toReal_ofTurns]
    congr 1
    push_cast
    ring

/-- The default parameters compute with the real numbers. -/
theorem default_isReal : Params.default.arith.IsReal Sample.toReal := exact_isReal

variable {ar : Arith} {ρ : Sample → ℝ}

theorem Arith.IsReal.zero (h : ar.IsReal ρ) : ρ Sample.zero = 0 := by
  simpa [Sample.ofRat, Sample.zero] using h.ofRat 0

theorem Arith.IsReal.ofNat (h : ar.IsReal ρ) (n : Nat) : ρ (Sample.ofNat n) = n := by
  rw [Sample.ofNat, h.ofRat]
  push_cast
  rfl

theorem Arith.IsReal.isPos (h : ar.IsReal ρ) (x : Sample) : ar.isPos x = true ↔ 0 < ρ x := by
  rw [Arith.isPos, h.lt, h.zero]

theorem Arith.IsReal.isNeg (h : ar.IsReal ρ) (x : Sample) : ar.isNeg x = true ↔ ρ x < 0 := by
  rw [Arith.isNeg, h.lt, h.zero]

theorem Arith.IsReal.isZero (h : ar.IsReal ρ) (x : Sample) : ar.isZero x = true ↔ ρ x = 0 := by
  rw [Arith.isZero, h.eq, h.zero]

theorem Arith.IsReal.sumFrom (h : ar.IsReal ρ) (acc : Sample) (xs : List Sample) :
    ρ (ar.sumFrom acc xs) = ρ acc + (xs.map ρ).sum := by
  unfold Arith.sumFrom
  induction xs generalizing acc with
  | nil => simp
  | cons x xs ih => rw [List.foldl_cons, ih, h.add, List.map_cons, List.sum_cons, add_assoc]

theorem Arith.IsReal.sum (h : ar.IsReal ρ) (xs : List Sample) : ρ (ar.sum xs) = (xs.map ρ).sum := by
  cases xs with
  | nil => simpa [Arith.sum] using h.zero
  | cons x xs => rw [Arith.sum, h.sumFrom, List.map_cons, List.sum_cons]

theorem Arith.IsReal.dot (h : ar.IsReal ρ) (xs ys : List Sample) :
    ρ (ar.dot xs ys) = (List.zipWith (· * ·) (xs.map ρ) (ys.map ρ)).sum := by
  rw [Arith.dot, h.sum, List.map_zipWith, List.zipWith_map]
  simp only [h.mul]

theorem Arith.IsReal.mean (h : ar.IsReal ρ) (xs : List Sample) : ρ (ar.mean xs) = realMean (xs.map ρ) := by
  rw [Arith.mean, h.divNat, h.sum, realMean, List.length_map]

/-- A correlation of samples with a reference given by its values is the correlation of the reals. -/
theorem Arith.IsReal.dot_map_range (h : ar.IsReal ρ) (w : List Sample) (r : Nat → Sample) (g : Nat → ℝ)
    (hg : ∀ k, ρ (r k) = g k) :
    ρ (ar.dot w ((List.range w.length).map r)) = realCorrelation (w.map ρ) g := by
  rw [h.dot, realCorrelation, List.zipIdx_map]
  simp only [List.map_map, Function.comp_def]
  congr 1
  apply List.ext_getElem
  · simp
  · intro i h1 h2
    simp [hg]

end Sys2Proof
end

