-- ==== Sys2Proof/Laws/Bits.lean ====
section
/-!
SUPPORT. The laws of sequences, blocks and the conversions between numbers, bytes and bits.
-/

namespace Sys2Proof.Machine

/-! ### Slices and blocks -/

theorem length_slice {α : Type} (s : List α) (a b : Nat) : (slice s a b).length = min (b - a) (s.length - a) := by
  simp [slice]

theorem slice_zero {α : Type} (s : List α) (n : Nat) : slice s 0 n = s.take n := by
  simp [slice]

theorem slice_all {α : Type} (s : List α) (a : Nat) : slice s a s.length = s.drop a := by
  simp [slice, List.take_of_length_le]

theorem slice_append_right {α : Type} (a s : List α) (m n : Nat) :
    slice (a ++ s) (a.length + m) (a.length + n) = slice s m n := by
  have h : List.drop (a.length + m) a = [] := List.drop_eq_nil_of_le (by omega)
  simp [slice, List.drop_append, Nat.add_sub_add_left, h]

/-- A block of `n` elements is `n` elements after those before it. -/
theorem slice_add {α : Type} (s : List α) (a n : Nat) : slice s a (a + n) = (s.drop a).take n := by
  rw [slice, Nat.add_sub_cancel_left]

@[simp] theorem length_blocks {α : Type} (p : Nat) (s : List α) : (blocks p s).length = s.length / p := by
  simp [blocks]

theorem blocks_of_lt {α : Type} {p : Nat} {s : List α} (h : s.length < p) : blocks p s = [] := by
  simp [blocks, Nat.div_eq_of_lt h]

/-- The first complete block comes first. -/
theorem blocks_append {α : Type} {p : Nat} (hp : 0 < p) {a : List α} (ha : a.length = p) (s : List α) :
    blocks p (a ++ s) = a :: blocks p s := by
  have hd : (a ++ s).length / p = s.length / p + 1 := by
    rw [List.length_append, ha, Nat.add_div_left _ hp]
  unfold blocks
  rw [hd, List.range_succ_eq_map, List.map_cons, List.map_map]
  congr 1
  · simp [slice, ha]
  · refine List.map_congr_left fun i _ => ?_
    have h1 : p * Nat.succ i = a.length + p * i := by rw [ha, Nat.mul_succ, Nat.add_comm]
    show slice (a ++ s) (p * Nat.succ i) (p * Nat.succ i + p) = _
    rw [h1, Nat.add_assoc, slice_append_right]

theorem length_of_mem_blocks {α : Type} {p : Nat} {s w : List α} (h : w ∈ blocks p s) : w.length = p := by
  simp only [blocks, List.mem_map, List.mem_range] at h
  obtain ⟨i, hi, rfl⟩ := h
  have h1 : p * (i + 1) ≤ s.length := (Nat.mul_le_mul_left p hi).trans (Nat.mul_div_le s.length p)
  rw [length_slice, Nat.add_sub_cancel_left, Nat.min_eq_left]
  rw [Nat.mul_add, Nat.mul_one] at h1
  omega

/-- The complete blocks, joined, are the sequence without its incomplete block. -/
theorem flatten_blocks {α : Type} (p : Nat) (s : List α) : (blocks p s).flatten = s.take (p * (s.length / p)) := by
  suffices h : ∀ n, (((List.range n).map fun i => slice s (p * i) (p * i + p)).flatten) = s.take (p * n) from h _
  intro n
  induction n with
  | zero => simp
  | succ n ih =>
    rw [List.range_succ, List.map_append, List.flatten_append, ih]
    simp [slice, Nat.mul_succ, List.take_add]

/-! ### Numbers and bits -/

@[simp] theorem length_bitsOfNat (v w : Nat) : (bitsOfNat v w).length = w := by
  simp [bitsOfNat]

theorem natOfBits_foldl (s : List Bit) (n : Nat) :
    s.foldl (fun n b => 2 * n + b.toNat) n = n * 2 ^ s.length + natOfBits s := by
  unfold natOfBits
  induction s generalizing n with
  | nil => simp
  | cons b s ih =>
    rw [List.foldl_cons, List.foldl_cons, ih, ih (2 * 0 + b.toNat), List.length_cons, pow_succ]
    ring

@[simp] theorem natOfBits_nil : natOfBits [] = 0 := rfl

theorem natOfBits_cons (b : Bit) (s : List Bit) : natOfBits (b :: s) = b.toNat * 2 ^ s.length + natOfBits s := by
  show s.foldl _ (2 * 0 + b.toNat) = _
  rw [natOfBits_foldl]
  simp

theorem natOfBits_append (a s : List Bit) : natOfBits (a ++ s) = natOfBits a * 2 ^ s.length + natOfBits s := by
  rw [← natOfBits_foldl, natOfBits, List.foldl_append]
  rfl

theorem natOfBits_lt (s : List Bit) : natOfBits s < 2 ^ s.length := by
  induction s with
  | nil => simp
  | cons b s ih =>
    rw [natOfBits_cons, List.length_cons, pow_succ]
    cases b <;> simp <;> omega

theorem bitsOfNat_succ (v w : Nat) : bitsOfNat v (w + 1) = v.testBit w :: bitsOfNat v w := by
  unfold bitsOfNat
  rw [List.range_succ_eq_map, List.map_cons, List.map_map]
  congr 1
  refine List.map_congr_left fun i _ => ?_
  show v.testBit (w + 1 - 1 - (i + 1)) = v.testBit (w - 1 - i)
  congr 1
  omega

/-- Reading back a field gives the number modulo the field's range. -/
theorem natOfBits_bitsOfNat (v w : Nat) : natOfBits (bitsOfNat v w) = v % 2 ^ w := by
  induction w with
  | zero => simp [bitsOfNat, Nat.mod_one]
  | succ w ih =>
    rw [bitsOfNat_succ, natOfBits_cons, ih, length_bitsOfNat, Nat.mod_pow_succ, Nat.testBit_eq_decide_div_mod_eq]
    rcases Nat.mod_two_eq_zero_or_one (v / 2 ^ w) with h | h <;> simp [h, Nat.add_comm]

theorem bitsOfNat_natOfBits (s : List Bit) : bitsOfNat (natOfBits s) s.length = s := by
  induction s with
  | nil => simp [bitsOfNat]
  | cons b s ih =>
    rw [List.length_cons, bitsOfNat_succ]
    have hlt := natOfBits_lt s
    congr 1
    · rw [natOfBits_cons, Nat.testBit_eq_decide_div_mod_eq, Nat.mul_comm, Nat.mul_add_div (by positivity),
        Nat.div_eq_of_lt hlt]
      cases b <;> simp
    · conv_rhs => rw [← ih]
      unfold bitsOfNat
      refine List.map_congr_left fun i hi => ?_
      rw [natOfBits_cons, Nat.mul_comm, Nat.testBit_two_pow_mul_add _ hlt, if_pos]
      have := List.mem_range.1 hi
      omega

/-! ### The model's conversions are those of 20_memory.md R71 -/

theorem natOfBits_eq_numberOf (s : List Bit) : natOfBits s = numberOf s := by
  induction s with
  | nil => rfl
  | cons b s ih =>
    rw [natOfBits_cons, ih, numberOf, numberOf, List.length_cons, List.range_succ_eq_map, List.map_cons, List.sum_cons,
      List.map_map]
    simp only [List.getD_cons_zero, Nat.add_sub_cancel, Nat.sub_zero, Function.comp_def, List.getD_cons_succ]
    congr 2
    refine List.map_congr_left fun i _ => ?_
    rw [Nat.succ_eq_add_one, Nat.add_comm i, Nat.sub_add_eq]

theorem bitsOfNat_eq_fieldOf (v w : Nat) : bitsOfNat v w = fieldOf v w := by
  simp only [bitsOfNat, fieldOf, Nat.testBit_eq_decide_div_mod_eq]

/-! ### Bytes -/

@[simp] theorem length_bytesOf (s : List Bit) : (bytesOf s).length = s.length / 8 := by
  simp [bytesOf]

theorem lt_of_mem_bytesOf {s : List Bit} {v : Nat} (h : v ∈ bytesOf s) : v < 256 := by
  simp only [bytesOf, List.mem_map] at h
  obtain ⟨w, hw, rfl⟩ := h
  simpa [length_of_mem_blocks hw] using natOfBits_lt w

/-- The complete bytes as bits again: the sequence without its tail. -/
theorem bitsOfBytes_bytesOf (s : List Bit) : bitsOfBytes (bytesOf s) = s.take (8 * (s.length / 8)) := by
  rw [← flatten_blocks, bitsOfBytes, bytesOf, List.flatMap_map, List.flatMap_def]
  congr 1
  conv_rhs => rw [← List.map_id (blocks 8 s)]
  refine List.map_congr_left fun w hw => ?_
  show bitsOfNat (natOfBits w) 8 = w
  rw [← length_of_mem_blocks hw, bitsOfNat_natOfBits]

theorem tailBits_eq (s : List Bit) : tailBits s = s.drop (8 * (s.length / 8)) := slice_all s _

/-! ### Padding -/

theorem padZeros_eq (p : Nat) (s : List Bit) :
    padZeros p s = s ++ List.replicate ((p - s.length % p) % p) false := by
  unfold padZeros
  split
  · simp [*]
  · rename_i h
    rcases Nat.eq_zero_or_pos p with rfl | hp
    · simp
    · rw [Nat.mod_eq_of_lt (by omega : p - s.length % p < p)]

end Sys2Proof.Machine
end

