-- ==== Sys2Proof/Laws/Edc.lean ====
section
/-!
SUPPORT. The bytes covered, the CRC table and the CRC loop in the arithmetic of spec 41_edc.md R185, R196 and R197: shifts as
products and quotients, masks as remainders.
-/

namespace Sys2Proof.Machine

/-- The covered bytes are the complete bytes of the sequence, zero-padded first under `zeropad` (R185). -/
theorem edcBytes_eq (t : EdcTail) (s : List Bit) :
    edcBytes t s = bytesOf (if t = .zeropad then s ++ List.replicate ((8 - s.length % 8) % 8) false else s) := by
  cases t <;> rfl

/-- The complete bytes, one by one (20_memory.md R72). -/
theorem bytesOf_eq (s : List Bit) :
    bytesOf s = (List.range (s.length / 8)).map fun i => numberOf (slice s (8 * i) (8 * i + 8)) := by
  rw [bytesOf, blocks, List.map_map]
  exact List.map_congr_left fun i _ => natOfBits_eq_numberOf _

/-- One shift of R196: where a 1 leaves at the top, the polynomial is XORed. -/
theorem crcShift_eq (wd p c : Nat) :
    crcShift wd p c = (if c / 2 ^ (wd - 1) % 2 = 1 then 2 * c ^^^ p else 2 * c) % 2 ^ wd := by
  have h : c &&& 2 ^ (wd - 1) ≠ 0 ↔ c / 2 ^ (wd - 1) % 2 = 1 := by
    rw [Nat.and_two_pow, Nat.testBit_eq_decide_div_mod_eq]
    by_cases h : c / 2 ^ (wd - 1) % 2 = 1 <;> simp [h]
  simp only [crcShift, h, Nat.and_two_pow_sub_one_eq_mod, Nat.shiftLeft_eq, pow_one, Nat.mul_comm c 2]
  split_ifs <;> rfl

/-- A table entry of R196 is eight shifts of the index in the top byte. -/
theorem crcTableEntry_eq (wd p i : Nat) :
    crcTableEntry wd p i = (crcShift wd p)^[8] (i * 2 ^ (wd - 8)) := by
  rw [crcTableEntry, Nat.shiftLeft_eq]
  rfl

/-- One byte of the loop of R197. -/
theorem crcByte_eq (wd p c b : Nat) :
    crcByte wd p c b = (c * 256 % 2 ^ wd) ^^^ crcTableEntry wd p ((c / 2 ^ (wd - 8) ^^^ b) % 256) := by
  rw [crcByte, Nat.and_two_pow_sub_one_eq_mod, Nat.shiftLeft_eq, Nat.shiftRight_eq_div_pow,
    show (0xFF : Nat) = 2 ^ 8 - 1 from rfl, Nat.and_two_pow_sub_one_eq_mod]

/-- The CRC of R197: from CRC_INIT over the covered bytes, XORed with CRC_XOROUT. -/
theorem crc_eq (q : Params) (p : Nat) (s : List Bit) (wd : Nat) :
    crc q p s wd
      = (edcBytes q.edcTail s).foldl (crcByte wd p) (q.crcInit % 2 ^ wd) ^^^ (q.crcXorOut % 2 ^ wd) := by
  rw [crc, Nat.and_two_pow_sub_one_eq_mod, Nat.and_two_pow_sub_one_eq_mod]

end Sys2Proof.Machine
end

