-- ==== Sys2Proof/Laws/State.lean ====
section
/-!
SUPPORT. What each field of the state is after each named update: one lemma per field per update, so that no proof unfolds a
record update.
-/

namespace Sys2Proof.Machine

/-! ### State.setErr -/

@[simp] theorem State.setErr_w (s : State) (e : Bool) : (s.setErr e).w = s.w := rfl
@[simp] theorem State.setErr_cfg (s : State) (e : Bool) : (s.setErr e).cfg = s.cfg := rfl
@[simp] theorem State.setErr_params (s : State) (e : Bool) : (s.setErr e).params = s.params := rfl
@[simp] theorem State.setErr_program (s : State) (e : Bool) : (s.setErr e).program = s.program := rfl
@[simp] theorem State.setErr_returned (s : State) (e : Bool) : (s.setErr e).returned = s.returned := rfl
@[simp] theorem State.setErr_err (s : State) (e : Bool) : (s.setErr e).st.err = e := rfl
@[simp] theorem State.setErr_corr (s : State) (e : Bool) : (s.setErr e).st.corr = s.st.corr := rfl
@[simp] theorem State.setErr_synd (s : State) (e : Bool) : (s.setErr e).st.synd = s.st.synd := rfl
@[simp] theorem State.setErr_fault (s : State) (e : Bool) : (s.setErr e).st.fault = s.st.fault := rfl
@[simp] theorem State.setErr_finfo0 (s : State) (e : Bool) : (s.setErr e).st.finfo0 = s.st.finfo0 := rfl
@[simp] theorem State.setErr_finfo1 (s : State) (e : Bool) : (s.setErr e).st.finfo1 = s.st.finfo1 := rfl

/-! ### State.setCorr -/

@[simp] theorem State.setCorr_w (s : State) (n : Nat) : (s.setCorr n).w = s.w := rfl
@[simp] theorem State.setCorr_cfg (s : State) (n : Nat) : (s.setCorr n).cfg = s.cfg := rfl
@[simp] theorem State.setCorr_params (s : State) (n : Nat) : (s.setCorr n).params = s.params := rfl
@[simp] theorem State.setCorr_program (s : State) (n : Nat) : (s.setCorr n).program = s.program := rfl
@[simp] theorem State.setCorr_returned (s : State) (n : Nat) : (s.setCorr n).returned = s.returned := rfl
@[simp] theorem State.setCorr_err (s : State) (n : Nat) : (s.setCorr n).st.err = s.st.err := rfl
@[simp] theorem State.setCorr_corr (s : State) (n : Nat) : (s.setCorr n).st.corr = n := rfl
@[simp] theorem State.setCorr_synd (s : State) (n : Nat) : (s.setCorr n).st.synd = s.st.synd := rfl
@[simp] theorem State.setCorr_fault (s : State) (n : Nat) : (s.setCorr n).st.fault = s.st.fault := rfl
@[simp] theorem State.setCorr_finfo0 (s : State) (n : Nat) : (s.setCorr n).st.finfo0 = s.st.finfo0 := rfl
@[simp] theorem State.setCorr_finfo1 (s : State) (n : Nat) : (s.setCorr n).st.finfo1 = s.st.finfo1 := rfl

/-! ### State.setSynd -/

@[simp] theorem State.setSynd_w (s : State) (v : Nat) : (s.setSynd v).w = s.w := rfl
@[simp] theorem State.setSynd_cfg (s : State) (v : Nat) : (s.setSynd v).cfg = s.cfg := rfl
@[simp] theorem State.setSynd_params (s : State) (v : Nat) : (s.setSynd v).params = s.params := rfl
@[simp] theorem State.setSynd_program (s : State) (v : Nat) : (s.setSynd v).program = s.program := rfl
@[simp] theorem State.setSynd_returned (s : State) (v : Nat) : (s.setSynd v).returned = s.returned := rfl
@[simp] theorem State.setSynd_err (s : State) (v : Nat) : (s.setSynd v).st.err = s.st.err := rfl
@[simp] theorem State.setSynd_corr (s : State) (v : Nat) : (s.setSynd v).st.corr = s.st.corr := rfl
@[simp] theorem State.setSynd_synd (s : State) (v : Nat) : (s.setSynd v).st.synd = BitVec.ofNat 8 v := rfl
@[simp] theorem State.setSynd_fault (s : State) (v : Nat) : (s.setSynd v).st.fault = s.st.fault := rfl
@[simp] theorem State.setSynd_finfo0 (s : State) (v : Nat) : (s.setSynd v).st.finfo0 = s.st.finfo0 := rfl
@[simp] theorem State.setSynd_finfo1 (s : State) (v : Nat) : (s.setSynd v).st.finfo1 = s.st.finfo1 := rfl

/-! ### State.clearStats -/

@[simp] theorem State.clearStats_w (s : State) : (s.clearStats).w = s.w := rfl
@[simp] theorem State.clearStats_cfg (s : State) : (s.clearStats).cfg = s.cfg := rfl
@[simp] theorem State.clearStats_params (s : State) : (s.clearStats).params = s.params := rfl
@[simp] theorem State.clearStats_program (s : State) : (s.clearStats).program = s.program := rfl
@[simp] theorem State.clearStats_returned (s : State) : (s.clearStats).returned = s.returned := rfl
@[simp] theorem State.clearStats_err (s : State) : (s.clearStats).st.err = false := rfl
@[simp] theorem State.clearStats_corr (s : State) : (s.clearStats).st.corr = 0 := rfl
@[simp] theorem State.clearStats_synd (s : State) : (s.clearStats).st.synd = 0 := rfl
@[simp] theorem State.clearStats_fault (s : State) : (s.clearStats).st.fault = s.st.fault := rfl
@[simp] theorem State.clearStats_finfo0 (s : State) : (s.clearStats).st.finfo0 = s.st.finfo0 := rfl
@[simp] theorem State.clearStats_finfo1 (s : State) : (s.clearStats).st.finfo1 = s.st.finfo1 := rfl

/-! ### State.clearFault -/

@[simp] theorem State.clearFault_w (s : State) : (s.clearFault).w = s.w := rfl
@[simp] theorem State.clearFault_cfg (s : State) : (s.clearFault).cfg = s.cfg := rfl
@[simp] theorem State.clearFault_params (s : State) : (s.clearFault).params = s.params := rfl
@[simp] theorem State.clearFault_program (s : State) : (s.clearFault).program = s.program := rfl
@[simp] theorem State.clearFault_returned (s : State) : (s.clearFault).returned = s.returned := rfl
@[simp] theorem State.clearFault_err (s : State) : (s.clearFault).st.err = s.st.err := rfl
@[simp] theorem State.clearFault_corr (s : State) : (s.clearFault).st.corr = s.st.corr := rfl
@[simp] theorem State.clearFault_synd (s : State) : (s.clearFault).st.synd = s.st.synd := rfl
@[simp] theorem State.clearFault_fault (s : State) : (s.clearFault).st.fault = .none := rfl
@[simp] theorem State.clearFault_finfo0 (s : State) : (s.clearFault).st.finfo0 = 0 := rfl
@[simp] theorem State.clearFault_finfo1 (s : State) : (s.clearFault).st.finfo1 = 0 := rfl

/-! ### State.raise -/

@[simp] theorem State.raise_w (s : State) (f : CmdFault) : (s.raise f).w = s.w := rfl
@[simp] theorem State.raise_cfg (s : State) (f : CmdFault) : (s.raise f).cfg = s.cfg := rfl
@[simp] theorem State.raise_params (s : State) (f : CmdFault) : (s.raise f).params = s.params := rfl
@[simp] theorem State.raise_program (s : State) (f : CmdFault) : (s.raise f).program = s.program := rfl
@[simp] theorem State.raise_returned (s : State) (f : CmdFault) : (s.raise f).returned = s.returned := rfl
@[simp] theorem State.raise_err (s : State) (f : CmdFault) : (s.raise f).st.err = s.st.err := rfl
@[simp] theorem State.raise_corr (s : State) (f : CmdFault) : (s.raise f).st.corr = s.st.corr := rfl
@[simp] theorem State.raise_synd (s : State) (f : CmdFault) : (s.raise f).st.synd = s.st.synd := rfl
@[simp] theorem State.raise_fault (s : State) (f : CmdFault) : (s.raise f).st.fault = f.code := rfl
@[simp] theorem State.raise_finfo0 (s : State) (f : CmdFault) : (s.raise f).st.finfo0 = BitVec.ofNat 32 f.info0 := rfl
@[simp] theorem State.raise_finfo1 (s : State) (f : CmdFault) : (s.raise f).st.finfo1 = BitVec.ofNat 32 f.info1 := rfl

/-! ### State.resetCore -/

@[simp] theorem State.resetCore_w (s : State) : (s.resetCore).w = .bits [] := rfl
@[simp] theorem State.resetCore_cfg (s : State) : (s.resetCore).cfg = Cfg.reset := rfl
@[simp] theorem State.resetCore_params (s : State) : (s.resetCore).params = s.params := rfl
@[simp] theorem State.resetCore_program (s : State) : (s.resetCore).program = s.program := rfl
@[simp] theorem State.resetCore_returned (s : State) : (s.resetCore).returned = s.returned := rfl
@[simp] theorem State.resetCore_err (s : State) : (s.resetCore).st.err = false := rfl
@[simp] theorem State.resetCore_corr (s : State) : (s.resetCore).st.corr = 0 := rfl
@[simp] theorem State.resetCore_synd (s : State) : (s.resetCore).st.synd = 0 := rfl
@[simp] theorem State.resetCore_fault (s : State) : (s.resetCore).st.fault = .none := rfl
@[simp] theorem State.resetCore_finfo0 (s : State) : (s.resetCore).st.finfo0 = 0 := rfl
@[simp] theorem State.resetCore_finfo1 (s : State) : (s.resetCore).st.finfo1 = 0 := rfl

/-! ### State.give -/

@[simp] theorem State.give_w (s : State) (v : HostValue) : (s.give v).w = s.w := rfl
@[simp] theorem State.give_cfg (s : State) (v : HostValue) : (s.give v).cfg = s.cfg := rfl
@[simp] theorem State.give_params (s : State) (v : HostValue) : (s.give v).params = s.params := rfl
@[simp] theorem State.give_program (s : State) (v : HostValue) : (s.give v).program = s.program := rfl
@[simp] theorem State.give_returned (s : State) (v : HostValue) : (s.give v).returned = s.returned ++ [v] := rfl
@[simp] theorem State.give_err (s : State) (v : HostValue) : (s.give v).st.err = s.st.err := rfl
@[simp] theorem State.give_corr (s : State) (v : HostValue) : (s.give v).st.corr = s.st.corr := rfl
@[simp] theorem State.give_synd (s : State) (v : HostValue) : (s.give v).st.synd = s.st.synd := rfl
@[simp] theorem State.give_fault (s : State) (v : HostValue) : (s.give v).st.fault = s.st.fault := rfl
@[simp] theorem State.give_finfo0 (s : State) (v : HostValue) : (s.give v).st.finfo0 = s.st.finfo0 := rfl
@[simp] theorem State.give_finfo1 (s : State) (v : HostValue) : (s.give v).st.finfo1 = s.st.finfo1 := rfl

/-! ### State.withCommand -/

@[simp] theorem State.withCommand_w (s : State) (c : Nat) : (s.withCommand c).w = s.w := rfl
@[simp] theorem State.withCommand_cfg (s : State) (c : Nat) : (s.withCommand c).cfg = s.cfg := rfl
@[simp] theorem State.withCommand_params (s : State) (c : Nat) : (s.withCommand c).params = s.params := rfl
@[simp] theorem State.withCommand_program (s : State) (c : Nat) : (s.withCommand c).program = .exec (BitVec.ofNat 8 c) :: s.program := rfl
@[simp] theorem State.withCommand_returned (s : State) (c : Nat) : (s.withCommand c).returned = s.returned := rfl
@[simp] theorem State.withCommand_err (s : State) (c : Nat) : (s.withCommand c).st.err = s.st.err := rfl
@[simp] theorem State.withCommand_corr (s : State) (c : Nat) : (s.withCommand c).st.corr = s.st.corr := rfl
@[simp] theorem State.withCommand_synd (s : State) (c : Nat) : (s.withCommand c).st.synd = s.st.synd := rfl
@[simp] theorem State.withCommand_fault (s : State) (c : Nat) : (s.withCommand c).st.fault = s.st.fault := rfl
@[simp] theorem State.withCommand_finfo0 (s : State) (c : Nat) : (s.withCommand c).st.finfo0 = s.st.finfo0 := rfl
@[simp] theorem State.withCommand_finfo1 (s : State) (c : Nat) : (s.withCommand c).st.finfo1 = s.st.finfo1 := rfl

/-! ### writeAmplitude -/

@[simp] theorem writeAmplitude_w (a : Sample) (s : State) : (writeAmplitude a s).w = s.w := rfl
@[simp] theorem writeAmplitude_cfg (a : Sample) (s : State) : (writeAmplitude a s).cfg = { s.cfg with amplitude := a } := rfl
@[simp] theorem writeAmplitude_params (a : Sample) (s : State) : (writeAmplitude a s).params = s.params := rfl
@[simp] theorem writeAmplitude_program (a : Sample) (s : State) : (writeAmplitude a s).program = s.program := rfl
@[simp] theorem writeAmplitude_returned (a : Sample) (s : State) : (writeAmplitude a s).returned = s.returned := rfl
@[simp] theorem writeAmplitude_err (a : Sample) (s : State) : (writeAmplitude a s).st.err = s.st.err := rfl
@[simp] theorem writeAmplitude_corr (a : Sample) (s : State) : (writeAmplitude a s).st.corr = s.st.corr := rfl
@[simp] theorem writeAmplitude_synd (a : Sample) (s : State) : (writeAmplitude a s).st.synd = s.st.synd := rfl
@[simp] theorem writeAmplitude_fault (a : Sample) (s : State) : (writeAmplitude a s).st.fault = s.st.fault := rfl
@[simp] theorem writeAmplitude_finfo0 (a : Sample) (s : State) : (writeAmplitude a s).st.finfo0 = s.st.finfo0 := rfl
@[simp] theorem writeAmplitude_finfo1 (a : Sample) (s : State) : (writeAmplitude a s).st.finfo1 = s.st.finfo1 := rfl

/-! ### writeReg: a register write touches the configuration only -/

@[simp] theorem writeReg_w (n : Byte) (v : Word32) (s : State) : (writeReg n v s).w = s.w := by
  unfold writeReg; split_ifs <;> rfl

@[simp] theorem writeReg_params (n : Byte) (v : Word32) (s : State) : (writeReg n v s).params = s.params := by
  unfold writeReg; split_ifs <;> rfl

@[simp] theorem writeReg_program (n : Byte) (v : Word32) (s : State) : (writeReg n v s).program = s.program := by
  unfold writeReg; split_ifs <;> rfl

@[simp] theorem writeReg_returned (n : Byte) (v : Word32) (s : State) : (writeReg n v s).returned = s.returned := by
  unfold writeReg; split_ifs <;> rfl

@[simp] theorem writeReg_err (n : Byte) (v : Word32) (s : State) : (writeReg n v s).st.err = s.st.err := by
  unfold writeReg; split_ifs <;> rfl

@[simp] theorem writeReg_corr (n : Byte) (v : Word32) (s : State) : (writeReg n v s).st.corr = s.st.corr := by
  unfold writeReg; split_ifs <;> rfl

@[simp] theorem writeReg_synd (n : Byte) (v : Word32) (s : State) : (writeReg n v s).st.synd = s.st.synd := by
  unfold writeReg; split_ifs <;> rfl

@[simp] theorem writeReg_fault (n : Byte) (v : Word32) (s : State) : (writeReg n v s).st.fault = s.st.fault := by
  unfold writeReg; split_ifs <;> rfl

@[simp] theorem writeReg_finfo0 (n : Byte) (v : Word32) (s : State) : (writeReg n v s).st.finfo0 = s.st.finfo0 := by
  unfold writeReg; split_ifs <;> rfl

@[simp] theorem writeReg_finfo1 (n : Byte) (v : Word32) (s : State) : (writeReg n v s).st.finfo1 = s.st.finfo1 := by
  unfold writeReg; split_ifs <;> rfl

@[simp] theorem writeReg_samplingRate (n : Byte) (v : Word32) (s : State) :
    (writeReg n v s).cfg.samplingRate = if n = 0x10 then some v else s.cfg.samplingRate := by
  unfold writeReg; split_ifs <;> simp_all

@[simp] theorem writeReg_bitRate (n : Byte) (v : Word32) (s : State) :
    (writeReg n v s).cfg.bitRate = if n = 0x11 then some v else s.cfg.bitRate := by
  unfold writeReg; split_ifs <;> simp_all

@[simp] theorem writeReg_carrierFreq (n : Byte) (v : Word32) (s : State) :
    (writeReg n v s).cfg.carrierFreq = if n = 0x12 then some v else s.cfg.carrierFreq := by
  unfold writeReg; split_ifs <;> simp_all

@[simp] theorem writeReg_amplitude (n : Byte) (v : Word32) (s : State) :
    (writeReg n v s).cfg.amplitude = if n = 0x13 then amplitudeOf v else s.cfg.amplitude := by
  unfold writeReg; split_ifs <;> simp_all

@[simp] theorem writeReg_maxFrameBytes (n : Byte) (v : Word32) (s : State) :
    (writeReg n v s).cfg.maxFrameBytes = if n = 0x14 then some v else s.cfg.maxFrameBytes := by
  unfold writeReg; split_ifs <;> simp_all

@[simp] theorem writeReg_edcWidth (n : Byte) (v : Word32) (s : State) :
    (writeReg n v s).cfg.edcWidth = if n = 0x15 then some v else s.cfg.edcWidth := by
  unfold writeReg; split_ifs <;> simp_all

@[simp] theorem writeReg_crcPoly (n : Byte) (v : Word32) (s : State) :
    (writeReg n v s).cfg.crcPoly = if n = 0x16 then crcPolyOf v else s.cfg.crcPoly := by
  unfold writeReg; split_ifs <;> simp_all

@[simp] theorem writeReg_hamM (n : Byte) (v : Word32) (s : State) :
    (writeReg n v s).cfg.hamM = if n = 0x17 then v else s.cfg.hamM := by
  unfold writeReg; split_ifs <;> simp_all

end Sys2Proof.Machine
end

