-- ==== Sys2Proof/Laws/Ops.lean ====
section
/-!
SUPPORT. What each shared operation can do, said once: the gate of the execution sequence, the buffer write, the kind checks,
the configuration check and the configuration reads.
-/

namespace Sys2Proof.Machine

/-! ### The gate -/

@[simp] theorem State.pending_iff (s : State) : s.pending = true ↔ s.st.fault ≠ .none := by
  simp [State.pending]

theorem runCommand_of_fault {s : State} (h : s.st.fault ≠ .none) (body : CmdResult State) :
    runCommand s body = .next s := by
  simp [runCommand, h]

@[simp] theorem runCommand_ok {s : State} (h : s.st.fault = .none) (t : State) :
    runCommand s (.ok t) = .next t := by
  simp [runCommand, State.pending, h]

@[simp] theorem runCommand_error {s : State} (h : s.st.fault = .none) (f : CmdFault) :
    runCommand s (.error f) = .next (s.raise f) := by
  simp [runCommand, State.pending, h]

/-- A gated command always answers a next state: `s` itself while a fault is pending, else its body's result or the
fault entry. -/
theorem runCommand_cases (s : State) (body : CmdResult State) :
    (s.st.fault ≠ .none ∧ runCommand s body = .next s) ∨
    (s.st.fault = .none ∧ ∃ t, body = .ok t ∧ runCommand s body = .next t) ∨
    (s.st.fault = .none ∧ ∃ f, body = .error f ∧ runCommand s body = .next (s.raise f)) := by
  by_cases h : s.st.fault = .none
  · cases body with
    | ok t => exact .inr (.inl ⟨h, t, rfl, runCommand_ok h t⟩)
    | error f => exact .inr (.inr ⟨h, f, rfl, runCommand_error h f⟩)
  · exact .inl ⟨h, runCommand_of_fault h body⟩

/-! ### Capacity -/

theorem bufWrite_of_fits {s : State} {v : Buffer} (h : bufFits s.params v.length = true) :
    bufWrite s v = .ok { s with w := v } := by
  unfold bufFits at h
  unfold bufWrite
  split at h <;> rename_i hc <;> simp_all

theorem bufWrite_of_over {s : State} {v : Buffer} {cap : Nat} (hc : s.params.bufCap = some cap) (h : cap < v.length) :
    bufWrite s v = .error ⟨.overflow, v.length, cap⟩ := by
  simp [bufWrite, hc, h]

theorem bufFits_of_none {p : Params} (h : p.bufCap = none) (n : Nat) : bufFits p n = true := by
  simp [bufFits, h]

theorem bufFits_iff {p : Params} (n : Nat) : bufFits p n = true ↔ ∀ cap, p.bufCap = some cap → n ≤ cap := by
  unfold bufFits
  split <;> simp_all

theorem bufFits_mono {p : Params} {m n : Nat} (hmn : m ≤ n) (h : bufFits p n = true) : bufFits p m = true :=
  (bufFits_iff m).2 fun cap hc => hmn.trans ((bufFits_iff n).1 h cap hc)

/-- `BufWrite` replaces W by a value that fits, or raises F_OVERFLOW. -/
theorem bufWrite_cases (s : State) (v : Buffer) :
    (bufFits s.params v.length = true ∧ bufWrite s v = .ok { s with w := v }) ∨
    (∃ cap, s.params.bufCap = some cap ∧ cap < v.length ∧ bufWrite s v = .error ⟨.overflow, v.length, cap⟩) := by
  by_cases h : bufFits s.params v.length = true
  · exact .inl ⟨h, bufWrite_of_fits h⟩
  · rw [bufFits_iff] at h
    push Not at h
    obtain ⟨cap, hc, hv⟩ := h
    exact .inr ⟨cap, hc, hv, bufWrite_of_over hc hv⟩

/-! ### Kinds -/

theorem needBits_of_bits {s : State} {b : List Bit} (h : s.w = .bits b) : needBits s = .ok b := by
  simp [needBits, h]

theorem needBits_of_samples {s : State} {x : List Sample} (h : s.w = .samples x) :
    needBits s = .error ⟨.badKind, 1, 0⟩ := by
  simp [needBits, h]

theorem needSamples_of_samples {s : State} {x : List Sample} (h : s.w = .samples x) : needSamples s = .ok x := by
  simp [needSamples, h]

theorem needSamples_of_bits {s : State} {b : List Bit} (h : s.w = .bits b) :
    needSamples s = .error ⟨.badKind, 0, 1⟩ := by
  simp [needSamples, h]

/-! ### Configuration -/

/-- The configuration check passes when every field the command reads is set and legal. -/
theorem configCheck_of_legal {i : Instr} {s : State}
    (h : ∀ f ∈ fieldsRead i, s.cfg.isUnset f = false ∧ s.cfg.isLegal s.params.arith i f = true) : configCheck i s = .ok () := by
  have h1 : (fieldsRead i).find? (fun f => s.cfg.isUnset f) = none := by
    simpa [List.find?_eq_none] using fun f hf => (h f hf).1
  have h2 : (fieldsRead i).find? (fun f => !s.cfg.isLegal s.params.arith i f) = none := by
    simpa [List.find?_eq_none] using fun f hf => (h f hf).2
  simp [configCheck, h1, h2]

/-- The configuration check passes only then. -/
theorem configCheck_ok_iff {i : Instr} {s : State} :
    configCheck i s = .ok () ↔ ∀ f ∈ fieldsRead i, s.cfg.isUnset f = false ∧ s.cfg.isLegal s.params.arith i f = true := by
  refine ⟨fun h => ?_, configCheck_of_legal⟩
  unfold configCheck at h
  split at h
  · cases h
  · split at h
    · cases h
    · rename_i _ h1 _ h2
      simp only [List.find?_eq_none] at h1 h2
      exact fun f hf => ⟨by simpa using h1 f hf, by simpa using h2 f hf⟩

/-- What the configuration check answers: it passes, or it names a field the command reads that is unset, or illegal. -/
theorem configCheck_cases (i : Instr) (s : State) :
    configCheck i s = .ok () ∨
    (∃ f ∈ fieldsRead i, s.cfg.isUnset f = true ∧ configCheck i s = .error ⟨.cfgUnset, f.number, 0⟩) ∨
    (∃ f ∈ fieldsRead i, s.cfg.isLegal s.params.arith i f = false ∧ configCheck i s = .error ⟨.cfgInvalid, f.number, 0⟩) := by
  unfold configCheck
  split
  · rename_i f hf
    exact .inr (.inl ⟨f, List.mem_of_find?_eq_some hf, by simpa using List.find?_some hf, rfl⟩)
  · split
    · rename_i f hf
      exact .inr (.inr ⟨f, List.mem_of_find?_eq_some hf, by simpa using List.find?_some hf, rfl⟩)
    · exact .inl rfl

/-- A field that is set reads as its value. -/
theorem cfgRead_of_set {f : CfgField} {o : Option Word32} (h : o.isNone = false) : cfgRead f o = .ok (regNat o) := by
  cases o <;> simp_all [cfgRead, regNat]

theorem readSamplingRate_of_set {s : State} (h : s.cfg.isUnset .samplingRate = false) :
    readSamplingRate s = .ok (regNat s.cfg.samplingRate) := cfgRead_of_set h

theorem readCarrierFreq_of_set {s : State} (h : s.cfg.isUnset .carrierFreq = false) :
    readCarrierFreq s = .ok (regNat s.cfg.carrierFreq) := cfgRead_of_set h

theorem readMaxFrameBytes_of_set {s : State} (h : s.cfg.isUnset .maxFrameBytes = false) :
    readMaxFrameBytes s = .ok (regNat s.cfg.maxFrameBytes) := cfgRead_of_set h

theorem readEdcWidth_of_set {s : State} (h : s.cfg.isUnset .edcWidth = false) :
    readEdcWidth s = .ok (regNat s.cfg.edcWidth) := cfgRead_of_set h

theorem readSpb_of_set {s : State} (h1 : s.cfg.isUnset .samplingRate = false) (h2 : s.cfg.isUnset .bitRate = false) :
    readSpb s = .ok (regNat s.cfg.samplingRate / regNat s.cfg.bitRate) := by
  unfold readSpb
  rw [cfgRead_of_set h1, cfgRead_of_set h2]
  rfl

/-! ### The frame limit -/

theorem checkFrameSize_of_le {b : List Bit} {mfb : Nat} (h : b.length ≤ 8 * mfb) : checkFrameSize b mfb = .ok () := by
  simp [checkFrameSize, Nat.not_lt.2 h]

theorem checkFrameSize_of_over {b : List Bit} {mfb : Nat} (h : 8 * mfb < b.length) :
    checkFrameSize b mfb = .error ⟨.frameTooLarge, b.length, 8 * mfb⟩ := by
  simp [checkFrameSize, h]

/-! ### Sequencing in a command's body -/

theorem bind_eq_ok {α β : Type} {x : CmdResult α} {f : α → CmdResult β} {b : β} :
    (x >>= f) = .ok b ↔ ∃ a, x = .ok a ∧ f a = .ok b := by
  cases x <;> simp [bind, Except.bind]

theorem bind_eq_error {α β : Type} {x : CmdResult α} {f : α → CmdResult β} {e : CmdFault} :
    (x >>= f) = .error e ↔ x = .error e ∨ ∃ a, x = .ok a ∧ f a = .error e := by
  cases x <;> simp [bind, Except.bind]

@[simp] theorem ok_bind {α β : Type} (a : α) (f : α → CmdResult β) : ((.ok a : CmdResult α) >>= f) = f a := rfl

@[simp] theorem error_bind {α β : Type} (e : CmdFault) (f : α → CmdResult β) :
    ((.error e : CmdResult α) >>= f) = .error e := rfl

end Sys2Proof.Machine
end

