-- ==== Sys2Proof/Laws/Exec.lean ====
section
/-!
SUPPORT. What any command can do, said once: with no fault pending, a command that reads W either completes, writing W and the
statistics and nothing else, or raises one of the faults of 60_exceptions.md R420 for a reason found in the state.
-/

namespace Sys2Proof.Machine

/-- The faults of R420 a command can raise in a state, with their information words. -/
def State.CanRaise (s : State) (f : CmdFault) : Prop :=
  (f.code = .cfgUnset ∧ f.info1 = 0 ∧ ∃ g : CfgField, s.cfg.isUnset g = true ∧ f.info0 = g.number) ∨
  (f.code = .cfgInvalid ∧ f.info1 = 0 ∧ ∃ g : CfgField, f.info0 = g.number) ∨
  (f.code = .badKind ∧ f.info0 = s.w.kind ∧ f.info1 = 1 - s.w.kind) ∨
  (f.code = .badLength ∧ s.cfg.isLegal s.params.arith .hamEnc1 .hamM = true ∧
    (f.info1 = s.cfg.hamM.toNat ∨ f.info1 = nOf s.cfg.hamM.toNat)) ∨
  (f.code = .frameTooLarge ∧ s.cfg.isLegal s.params.arith .bcfFrm .maxFrameBytes = true ∧
    f.info1 = 8 * regNat s.cfg.maxFrameBytes) ∨
  (f.code = .overflow ∧ s.params.bufCap = some f.info1)

/-- `t` is `s` with a W that fits and new statistics. -/
def State.Completes (s t : State) : Prop :=
  bufFits s.params t.w.length = true ∧
    t = { s with w := t.w, st := { s.st with err := t.st.err, corr := t.st.corr, synd := t.st.synd } }

/-- A part of a command's body answers a value with `P`, or a fault the state can raise. -/
def State.Sat {α : Type} (s : State) (P : α → Prop) : CmdResult α → Prop
  | .ok a => P a
  | .error f => s.CanRaise f

theorem State.Sat.bind {α β : Type} {s : State} {P : α → Prop} {Q : β → Prop} {x : CmdResult α}
    {f : α → CmdResult β} (hx : s.Sat P x) (hf : ∀ a, P a → s.Sat Q (f a)) : s.Sat Q (x >>= f) := by
  cases x with
  | ok a => exact hf a hx
  | error e => exact hx

theorem sat_needBits (s : State) : s.Sat (fun b => s.w = .bits b) (needBits s) := by
  cases h : s.w <;> simp [needBits, h, State.Sat, State.CanRaise, Buffer.kind]

theorem sat_needSamples (s : State) : s.Sat (fun x => s.w = .samples x) (needSamples s) := by
  cases h : s.w <;> simp [needSamples, h, State.Sat, State.CanRaise, Buffer.kind]

theorem sat_configCheck (i : Instr) (s : State) :
    s.Sat (fun _ => ∀ f ∈ fieldsRead i, s.cfg.isUnset f = false ∧ s.cfg.isLegal s.params.arith i f = true) (configCheck i s) := by
  rcases configCheck_cases i s with h | ⟨g, _, hu, h⟩ | ⟨g, _, _, h⟩
  · rw [h]
    exact configCheck_ok_iff.1 h
  · rw [h]
    exact .inl ⟨rfl, rfl, g, hu, rfl⟩
  · rw [h]
    exact .inr (.inl ⟨rfl, rfl, g, rfl⟩)

theorem sat_cfgRead {s : State} {g : CfgField} {o : Option Word32} (h : s.cfg.isUnset g = o.isNone) :
    s.Sat (fun v => v = regNat o) (cfgRead g o) := by
  cases o with
  | some v => rfl
  | none => exact .inl ⟨rfl, rfl, g, h, rfl⟩

theorem sat_readSpb (s : State) : s.Sat (fun p => p = s.spb) (readSpb s) :=
  (sat_cfgRead rfl).bind fun _ ha => (sat_cfgRead rfl).bind fun _ hb => by
    subst ha hb
    rfl

theorem sat_bufWrite (s : State) (v : Buffer) : s.Sat (fun t => s.Completes t ∧ t.w = v ∧ t.st = s.st) (bufWrite s v) := by
  rcases bufWrite_cases s v with ⟨hf, h⟩ | ⟨cap, hc, _, h⟩
  · rw [h]
    exact ⟨⟨hf, rfl⟩, rfl, rfl⟩
  · rw [h]
    exact .inr (.inr (.inr (.inr (.inr ⟨rfl, hc⟩))))

theorem sat_bufWrite' (s : State) (v : Buffer) : s.Sat s.Completes (bufWrite s v) := by
  have h := sat_bufWrite s v
  revert h
  cases bufWrite s v with
  | ok t => exact fun h => h.1
  | error f => exact fun h => h

theorem sat_checkFrameSize (s : State) (b : List Bit) (h : s.cfg.isLegal s.params.arith .bcfFrm .maxFrameBytes = true) :
    s.Sat (fun _ => True) (checkFrameSize b (regNat s.cfg.maxFrameBytes)) := by
  unfold checkFrameSize
  split
  · exact .inr (.inr (.inr (.inr (.inl ⟨rfl, h, rfl⟩))))
  · trivial

theorem sat_energyCheck (s : State) (ar : Arith) (fs f p : Nat) : s.Sat (fun _ => True) (energyCheck ar fs f p) := by
  unfold energyCheck
  split
  · exact .inr (.inl ⟨rfl, rfl, .carrierFreq, rfl⟩)
  · trivial

/-- A gated command whose body is as above completes or raises a fault the state can raise. -/
theorem runCommand_sat {s : State} {body : CmdResult State} (h : s.st.fault = .none) (hb : s.Sat s.Completes body) :
    (∃ t, runCommand s body = .next t ∧ s.Completes t) ∨
    (∃ f, runCommand s body = .next (s.raise f) ∧ s.CanRaise f) := by
  cases body with
  | ok t => exact .inl ⟨t, runCommand_ok h t, hb⟩
  | error f => exact .inr ⟨f, runCommand_error h f, hb⟩

theorem exec_nop (s : State) : exec .nop s = runCommand s (.ok s) := rfl

theorem exec_clrf (s : State) : exec .clrf s = .next s.clearFault := rfl

theorem exec_clrs (s : State) : exec .clrs s = runCommand s (.ok s.clearStats) := rfl

theorem exec_srst (s : State) : exec .srst s = .next s.resetCore := rfl

/-- While a fault is pending, a command that reads W changes nothing. -/
theorem exec_of_fault {i : Instr} {s : State} (hi : kindNeeded i ≠ none) (h : s.st.fault ≠ .none) :
    exec i s = .next s := by
  cases i <;> first | exact absurd rfl hi | exact runCommand_of_fault h _

/-- With no fault pending, a command that reads W completes or raises a fault. -/
theorem exec_cases {i : Instr} {s : State} (hi : kindNeeded i ≠ none) (h : s.st.fault = .none) :
    (∃ t, exec i s = .next t ∧ s.Completes t) ∨ (∃ f, exec i s = .next (s.raise f) ∧ s.CanRaise f) := by
  cases i
  case nop | clrf | clrs | srst => exact absurd rfl hi
  case hamEnc1 =>
    refine runCommand_sat h ((sat_configCheck _ s).bind fun _ hc => (sat_needBits s).bind fun d _ => ?_)
    have hl := (hc .hamM (by decide)).2
    show State.Sat s _ (if _ then _ else _)
    split
    · exact .inr (.inr (.inr (.inl ⟨rfl, hl, .inl rfl⟩)))
    · exact sat_bufWrite' s _
  case hamDec1 =>
    refine runCommand_sat h ((sat_configCheck _ s).bind fun _ hc => (sat_needBits s).bind fun d _ => ?_)
    have hl := (hc .hamM (by decide)).2
    show State.Sat s _ (if _ then _ else _)
    split
    · exact .inr (.inr (.inr (.inl ⟨rfl, hl, .inr rfl⟩)))
    · exact (sat_bufWrite' s _).bind fun t ht => ⟨ht.1, by rw [ht.2]; rfl⟩
  case hamEnc =>
    exact runCommand_sat h ((sat_configCheck _ s).bind fun _ _ => (sat_needBits s).bind fun d _ => sat_bufWrite' s _)
  case hamDec =>
    exact runCommand_sat h ((sat_configCheck _ s).bind fun _ _ => (sat_needBits s).bind fun d _ =>
      (sat_bufWrite' s _).bind fun t ht => ⟨ht.1, by rw [ht.2]; rfl⟩)
  case parAdd | bcfUnf | bsfUnf | ysfUnf =>
    exact runCommand_sat h ((sat_configCheck _ s).bind fun _ _ => (sat_needBits s).bind fun d _ => sat_bufWrite' s _)
  case parChk =>
    exact runCommand_sat h ((sat_configCheck _ s).bind fun _ _ => (sat_needBits s).bind fun d _ =>
      (sat_bufWrite' s _).bind fun t ht => ⟨ht.1, by rw [ht.2]; rfl⟩)
  case cksAdd | crcAdd =>
    exact runCommand_sat h ((sat_configCheck _ s).bind fun _ _ => (sat_needBits s).bind fun d _ =>
      (sat_cfgRead rfl).bind fun _ _ => sat_bufWrite' s _)
  case cksChk | crcChk =>
    exact runCommand_sat h ((sat_configCheck _ s).bind fun _ _ => (sat_needBits s).bind fun d _ =>
      (sat_cfgRead rfl).bind fun _ _ => (sat_bufWrite' s _).bind fun t ht => ⟨ht.1, by rw [ht.2]; rfl⟩)
  case bcfFrm | bsfFrm | ysfFrm =>
    refine runCommand_sat h ((sat_configCheck _ s).bind fun _ hc => (sat_needBits s).bind fun d _ =>
      (sat_cfgRead rfl).bind fun m hm => ?_)
    have hl := (hc .maxFrameBytes (by decide)).2
    subst hm
    exact (sat_checkFrameSize s d hl).bind fun _ _ => sat_bufWrite' s _
  case nrzMod | manMod | amiMod =>
    exact runCommand_sat h ((sat_configCheck _ s).bind fun _ _ => (sat_needBits s).bind fun d _ =>
      (sat_readSpb s).bind fun _ _ => sat_bufWrite' s _)
  case nrzDem | manDem | amiDem | askDem =>
    exact runCommand_sat h ((sat_configCheck _ s).bind fun _ _ => (sat_needSamples s).bind fun d _ =>
      (sat_readSpb s).bind fun _ _ => sat_bufWrite' s _)
  case askMod | fskMod | qpskMod | qamMod =>
    exact runCommand_sat h ((sat_configCheck _ s).bind fun _ _ => (sat_needBits s).bind fun d _ =>
      (sat_cfgRead rfl).bind fun _ _ => (sat_readSpb s).bind fun _ _ =>
      (sat_cfgRead rfl).bind fun _ _ => sat_bufWrite' s _)
  case fskDem | qpskDem =>
    exact runCommand_sat h ((sat_configCheck _ s).bind fun _ _ => (sat_needSamples s).bind fun d _ =>
      (sat_cfgRead rfl).bind fun _ _ => (sat_readSpb s).bind fun _ _ =>
      (sat_cfgRead rfl).bind fun _ _ => sat_bufWrite' s _)
  case qamDem =>
    exact runCommand_sat h ((sat_configCheck _ s).bind fun _ _ => (sat_cfgRead rfl).bind fun _ _ =>
      (sat_readSpb s).bind fun _ _ => (sat_cfgRead rfl).bind fun _ _ => (sat_energyCheck s _ _ _ _).bind fun _ _ =>
      (sat_needSamples s).bind fun d _ => sat_bufWrite' s _)

end Sys2Proof.Machine
end

