-- ==== Sys2Proof/Laws/Framers.lean ====
section
/-!
SUPPORT. The stuffing and escaping functions are the loops of spec 42_framers.md R234, R236 and R240.
-/

namespace Sys2Proof.Machine

/-- `stuff` is the loop of R234: it keeps the bits so far and the number of 1-bits that end them. -/
theorem stuff_eq_foldl (s : List Bit) :
    stuff s = (s.foldl (fun (r : List Bit × Nat) x =>
      if x = true ∧ r.2 + 1 = 5 then (r.1 ++ [true, false], 0)
      else if x = true then (r.1 ++ [true], r.2 + 1)
      else (r.1 ++ [false], 0)) ([], 0)).1 := by
  suffices h : ∀ (s out : List Bit) (c : Nat), (s.foldl (fun (r : List Bit × Nat) x =>
      if x = true ∧ r.2 + 1 = 5 then (r.1 ++ [true, false], 0)
      else if x = true then (r.1 ++ [true], r.2 + 1)
      else (r.1 ++ [false], 0)) (out, c)).1 = out ++ stuffFrom c s from (h s [] 0).symm
  intro s
  induction s with
  | nil => simp [stuffFrom]
  | cons x s ih =>
    intro out c
    cases x
    · rw [List.foldl_cons, if_neg (by simp), if_neg (by simp), ih, stuffFrom]
      simp
    · rw [List.foldl_cons]
      by_cases h : c + 1 = 5
      · rw [if_pos ⟨rfl, h⟩, ih, stuffFrom, if_pos h]
        simp
      · rw [if_neg (fun hc => h hc.2), if_pos rfl, ih, stuffFrom, if_neg h]
        simp

/-- `unstuff` is the loop of R236: after the fifth 1-bit the next bit is left out. -/
theorem unstuff_eq_foldl (b : List Bit) :
    unstuff b = (b.foldl (fun (r : List Bit × Nat) x =>
      if r.2 = 5 then (r.1, 0) else (r.1 ++ [x], if x = true then r.2 + 1 else 0)) ([], 0)).1 := by
  suffices h : ∀ (b out : List Bit) (c : Nat), (b.foldl (fun (r : List Bit × Nat) x =>
      if r.2 = 5 then (r.1, 0) else (r.1 ++ [x], if x = true then r.2 + 1 else 0)) (out, c)).1
        = out ++ unstuffFrom c b from (h b [] 0).symm
  intro b
  induction b with
  | nil => simp [unstuffFrom]
  | cons x b ih =>
    intro out c
    by_cases h : c = 5 <;> simp [unstuffFrom, h, ih]

theorem tailBits_append {a : List Bit} (ha : a.length = 8) (s : List Bit) : tailBits (a ++ s) = tailBits s := by
  have h : (a ++ s).length / 8 = 1 + s.length / 8 := by rw [List.length_append, ha]; omega
  rw [tailBits_eq, tailBits_eq, h, Nat.mul_add, ← List.drop_drop, show 8 * 1 = a.length by omega, List.drop_left]

theorem unescape_of_short {r : List Bit} (h : r.length < 8) : unescape r = r := by
  rw [unescape, blocks_of_lt h, tailBits_eq, Nat.div_eq_of_lt h]
  rfl

theorem unescape_append {a : List Bit} (ha : a.length = 8) (s : List Bit) :
    unescape (a ++ s) = unescapeBytes (tailBits s) (a :: blocks 8 s) := by
  rw [unescape, blocks_append (by omega) ha, tailBits_append ha]

/-- `unescape` is the scan of R240: the first byte decides, and the scan goes on after what it took. -/
theorem unescape_eq (r : List Bit) :
    unescape r = if r.length < 8 then r
      else if r.take 8 = escBits then
        (if r.length < 16 then [] else xorBits ((r.drop 8).take 8) maskBits ++ unescape (r.drop 16))
      else r.take 8 ++ unescape (r.drop 8) := by
  split_ifs with h8 hesc h16
  · exact unescape_of_short h8
  · conv_lhs => rw [← List.take_append_drop 8 r]
    rw [unescape_append (by simp; omega), unescapeBytes.eq_def, blocks_of_lt (by simp; omega)]
    simp only [if_pos hesc]
  · have hd : (r.drop 8).take 8 ++ r.drop 16 = r.drop 8 := by
      rw [show 16 = 8 + 8 from rfl, ← List.drop_drop, List.take_append_drop]
    conv_lhs => rw [← List.take_append_drop 8 r]
    rw [unescape_append (by simp; omega), ← hd,
      blocks_append (by omega) (by simp; omega), tailBits_append (by simp; omega), unescapeBytes.eq_def]
    simp only [if_pos hesc]
    rw [hd]
    rfl
  · conv_lhs => rw [← List.take_append_drop 8 r]
    rw [unescape_append (by simp; omega), unescapeBytes.eq_def]
    simp only [if_neg hesc]
    rfl

end Sys2Proof.Machine
end

