-- ==== Sys2Proof/Laws/HostProgram.lean ====
section
/-!
SUPPORT. What a line of a host program that is a mnemonic assembles to (spec 30_encoding.md R111, R112, R121 to R124).
-/

namespace Sys2Proof.Machine

/-- R111 has one mnemonic for each command, and `mnemonics` lists it. -/
theorem mnemonics_complete (i : Instr) : ∃ name, (name, i) ∈ mnemonics := by
  cases i <;> simp [mnemonics]

/-- A list of names holds a name exactly when looking the name up finds something. -/
theorem lookup_isSome_iff {α : Type} (name : String) (l : List (String × α)) :
    (l.lookup name).isSome = true ↔ name ∈ l.map Prod.fst := by
  induction l with
  | nil => simp
  | cons p l ih => by_cases h : name = p.1 <;> simp_all [beq_iff_eq]

/-- R121: the spellings read are those of R111, TX and RX, and no other. -/
theorem readMnemonic_isSome_iff (name : String) :
    (readMnemonic name).isSome = true ↔ name ∈ mnemonics.map Prod.fst ∨ name = "TX" ∨ name = "RX" := by
  simp only [readMnemonic, Option.isSome_or, Option.isSome_map, Bool.or_eq_true, lookup_isSome_iff]
  simp [pseudoMnemonics]

/-- R120: a command's mnemonic alone is one write of its word to CMD. -/
theorem assemble_command : ∀ p ∈ mnemonics, assemble p.1 none = some [command p.2] := by
  decide +kernel

/-- R112: no command has an operand. -/
theorem assemble_command_operands (o : PseudoOperands) : ∀ p ∈ mnemonics, assemble p.1 (some o) = none := by
  intro p hp
  have h : readMnemonic p.1 = some (.command p.2) := by
    revert p
    decide +kernel
  simp [assemble, h]

/-- R123: a TX line with components of R122 is its expansion. -/
theorem assemble_tx (ham : Bool) : ∀ f ∈ framerNames, ∀ d ∈ detectorNames, ∀ m ∈ modulatorNames,
    assemble "TX" (some ⟨f.1, d.1, m.1, ham⟩) = some (tx f.2 d.2 m.2 ham) := by
  revert ham
  decide +kernel

/-- R124: an RX line with components of R122 is its expansion. -/
theorem assemble_rx (ham : Bool) : ∀ f ∈ framerNames, ∀ d ∈ detectorNames, ∀ m ∈ modulatorNames,
    assemble "RX" (some ⟨f.1, d.1, m.1, ham⟩) = some (rx f.2 d.2 m.2 ham) := by
  revert ham
  decide +kernel

/-- R121: a line whose mnemonic is in neither R111 nor R122 is no program. -/
theorem assemble_none {name : String} (h : name ∉ mnemonics.map Prod.fst) (htx : name ≠ "TX") (hrx : name ≠ "RX")
    (operands : Option PseudoOperands) : assemble name operands = none := by
  have hn : readMnemonic name = none := by
    rw [← Option.not_isSome_iff_eq_none, readMnemonic_isSome_iff]
    simp_all
  simp [assemble, hn]

end Sys2Proof.Machine
end

