-- ==== Sys2Proof/Laws/Modulators.lean ====
section
/-!
SUPPORT. The modulators' shared operations: their lengths in any arithmetic, and the real numbers they stand for in one that
computes with the reals.
-/

namespace Sys2Proof.Machine

variable {ar : Arith} {ρ : Sample → ℝ}

@[simp] theorem length_hold (p : Nat) (v : Sample) : (hold p v).length = p := List.length_replicate

@[simp] theorem length_sinRef (ar : Arith) (fs f p : Nat) : (sinRef ar fs f p).length = p := by
  simp [sinRef]

@[simp] theorem length_cosRef (ar : Arith) (fs f p : Nat) : (cosRef ar fs f p).length = p := by
  simp [cosRef]

@[simp] theorem length_nrzSymbol (ar : Arith) (p : Nat) (a : Sample) (b : Bit) : (nrzSymbol ar p a b).length = p :=
  length_hold p _

@[simp] theorem length_manSymbol (ar : Arith) (p : Nat) (a : Sample) (b : Bit) : (manSymbol ar p a b).length = p := by
  have h := Nat.div_le_self p 2
  cases b <;> simp [manSymbol, h]

@[simp] theorem length_amiFrom (ar : Arith) (p : Nat) (a : Sample) (pos : Bool) (b : List Bit) :
    (amiFrom ar p a pos b).length = b.length * p := by
  induction b generalizing pos with
  | nil => simp [amiFrom]
  | cons x b ih => cases x <;> simp [amiFrom, ih, Nat.succ_mul, Nat.add_comm]

@[simp] theorem length_askSymbol (ar : Arith) (fs f p : Nat) (a : Sample) (b : Bit) :
    (askSymbol ar fs f p a b).length = p := by
  cases b <;> simp [askSymbol]

@[simp] theorem length_fskSymbol (ar : Arith) (fs f p : Nat) (a : Sample) (b : Bit) :
    (fskSymbol ar fs f p a b).length = p := by
  simp [fskSymbol]

@[simp] theorem length_qpskSymbol (ar : Arith) (fs f p : Nat) (a : Sample) (b : List Bit) :
    (qpskSymbol ar fs f p a b).length = p := by
  simp [qpskSymbol]

@[simp] theorem length_qamSymbol (ar : Arith) (fs f p : Nat) (a g : Sample) (b : List Bit) :
    (qamSymbol ar fs f p a g b).length = p := by
  simp [qamSymbol]

theorem map_sinRef (h : ar.IsReal ρ) (fs f p : Nat) :
    (sinRef ar fs f p).map ρ = (List.range p).map fun k => Real.sin (theta fs f k) := by
  simp [sinRef, Function.comp_def, h.sinAt]

theorem map_cosRef (h : ar.IsReal ρ) (fs f p : Nat) :
    (cosRef ar fs f p).map ρ = (List.range p).map fun k => Real.cos (theta fs f k) := by
  simp [cosRef, Function.comp_def, h.cosAt]

theorem map_hold (p : Nat) (v : Sample) : (hold p v).map ρ = List.replicate p (ρ v) := by
  simp [hold]

/-- `n·A` is `n` times the amplitude. -/
theorem real_scaled (h : ar.IsReal ρ) (n : Int) (a : Sample) : ρ (scaled ar n a) = n * ρ a := by
  unfold scaled
  split_ifs with h1 h2
  · simp [h1]
  · simp [h2, h.neg]
  · rw [h.mul, h.ofRat]
    push_cast
    rfl

/-- The zero-energy check is on the energies of R331. -/
theorem zeroEnergy_iff (s : State) :
    zeroEnergy s.params.arith (regNat s.cfg.samplingRate) (regNat s.cfg.carrierFreq) s.spb = true ↔ s.ZeroEnergy := by
  simp only [zeroEnergy, energyC, energyQ, Arith.isZero, Arith.dot, cosRef, sinRef, List.zipWith_self, Bool.or_eq_true,
    List.map_map, State.ZeroEnergy, Function.comp_def]

theorem blocks_eq_map_range {α : Type} (p : Nat) (s : List α) :
    blocks p s = (List.range (s.length / p)).map fun i => slice s (p * i) (p * i + p) := rfl

end Sys2Proof.Machine
end

