-- ==== Sys2Proof/Laws/PerInstr.lean ====
section
/-!
SUPPORT. What holds of each command as a form: it is well formed, its word is UNIT in bits 7:4 and OP in bits 3:0, and the
fields it reads are listed in increasing register number (the order of the configuration check, 10_state.md R49).
-/

namespace Sys2Proof.Laws.Form

def Statement (i : Instr) : Prop :=
  i.wellFormed = true ∧ (encode i).toNat = 16 * i.unit.toNat + i.op.toNat ∧
    ((Machine.fieldsRead i).map Machine.CfgField.number).Pairwise (· < ·)

theorem nop : Statement .nop := ⟨rfl, rfl, by decide⟩

theorem clrf : Statement .clrf := ⟨rfl, rfl, by decide⟩

theorem clrs : Statement .clrs := ⟨rfl, rfl, by decide⟩

theorem srst : Statement .srst := ⟨rfl, rfl, by decide⟩

theorem hamEnc : Statement .hamEnc := ⟨rfl, rfl, by decide⟩

theorem hamDec : Statement .hamDec := ⟨rfl, rfl, by decide⟩

theorem hamEnc1 : Statement .hamEnc1 := ⟨rfl, rfl, by decide⟩

theorem hamDec1 : Statement .hamDec1 := ⟨rfl, rfl, by decide⟩

theorem parAdd : Statement .parAdd := ⟨rfl, rfl, by decide⟩

theorem parChk : Statement .parChk := ⟨rfl, rfl, by decide⟩

theorem cksAdd : Statement .cksAdd := ⟨rfl, rfl, by decide⟩

theorem cksChk : Statement .cksChk := ⟨rfl, rfl, by decide⟩

theorem crcAdd : Statement .crcAdd := ⟨rfl, rfl, by decide⟩

theorem crcChk : Statement .crcChk := ⟨rfl, rfl, by decide⟩

theorem bcfFrm : Statement .bcfFrm := ⟨rfl, rfl, by decide⟩

theorem bcfUnf : Statement .bcfUnf := ⟨rfl, rfl, by decide⟩

theorem bsfFrm : Statement .bsfFrm := ⟨rfl, rfl, by decide⟩

theorem bsfUnf : Statement .bsfUnf := ⟨rfl, rfl, by decide⟩

theorem ysfFrm : Statement .ysfFrm := ⟨rfl, rfl, by decide⟩

theorem ysfUnf : Statement .ysfUnf := ⟨rfl, rfl, by decide⟩

theorem nrzMod : Statement .nrzMod := ⟨rfl, rfl, by decide⟩

theorem nrzDem : Statement .nrzDem := ⟨rfl, rfl, by decide⟩

theorem manMod : Statement .manMod := ⟨rfl, rfl, by decide⟩

theorem manDem : Statement .manDem := ⟨rfl, rfl, by decide⟩

theorem amiMod : Statement .amiMod := ⟨rfl, rfl, by decide⟩

theorem amiDem : Statement .amiDem := ⟨rfl, rfl, by decide⟩

theorem askMod : Statement .askMod := ⟨rfl, rfl, by decide⟩

theorem askDem : Statement .askDem := ⟨rfl, rfl, by decide⟩

theorem fskMod : Statement .fskMod := ⟨rfl, rfl, by decide⟩

theorem fskDem : Statement .fskDem := ⟨rfl, rfl, by decide⟩

theorem qpskMod : Statement .qpskMod := ⟨rfl, rfl, by decide⟩

theorem qpskDem : Statement .qpskDem := ⟨rfl, rfl, by decide⟩

theorem qamMod : Statement .qamMod := ⟨rfl, rfl, by decide⟩

theorem qamDem : Statement .qamDem := ⟨rfl, rfl, by decide⟩

end Sys2Proof.Laws.Form
end

