-- ==== Sys2Proof/Tests/Slice0.lean ====
section
/-!
SUPPORT. Tests of single operations. Every expected value is from spec/95_test_vectors.md (the vector is named) or, where a
rule is named instead, worked out from that rule.
-/

namespace Sys2Proof.Tests

-- One test after another: each holds a thread of its own while it is checked.
set_option Elab.async false

open Sys2Proof Sys2Proof.Machine

/-- A bit sequence written with 0 and 1. -/
def bl (l : List Nat) : List Bit := l.map (· == 1)

/-- Rational samples. -/
def sl (l : List Rat) : List Sample := l.map Sample.ofRat

/-- `c · √2/2`, the square root of two being twice the cosine of an eighth of a turn. -/
def rt (c : Rat) : Sample := ⟨[(1 / 8, c)]⟩

/-- W's bits in the next state. -/
def outBits : Result → Option (List Bit)
  | .next s => match s.w with
    | .bits b => some b
    | .samples _ => none
  | .fault _ => none
  | .refused _ => none

/-- W's samples in the next state. -/
def outSamples : Result → Option (List Sample)
  | .next s => match s.w with
    | .samples x => some x
    | .bits _ => none
  | .fault _ => none
  | .refused _ => none

/-- ERR, CORR and SYND in the next state. -/
def outStats : Result → Option (Bool × Nat × Byte)
  | .next s => some (s.st.err, s.st.corr, s.st.synd)
  | .fault _ => none
  | .refused _ => none

/-- FAULT, FINFO0 and FINFO1 in the next state. -/
def outFault : Result → Option (FaultCode × Word32 × Word32)
  | .next s => some (s.st.fault, s.st.finfo0, s.st.finfo1)
  | .fault _ => none
  | .refused _ => none

/-- V-SYS-1: NOP with a fault pending changes nothing. -/
theorem test_nop_pending : outFault (exec .nop { State.reset with st := { Status.reset with fault := .frameTooLarge, finfo0 := 513, finfo1 := 512 } }) = some (.frameTooLarge, 513, 512) := by decide +kernel

/-- V-SYS-2: CLRF clears FAULT, FINFO0, FINFO1 and leaves W. -/
theorem test_clrf : outFault (exec .clrf { State.reset with w := .bits (bl [1, 0, 1]), st := { Status.reset with fault := .frameTooLarge, finfo0 := 513, finfo1 := 512 } }) = some (.none, 0, 0) ∧ outBits (exec .clrf { State.reset with w := .bits (bl [1, 0, 1]), st := { Status.reset with fault := .frameTooLarge, finfo0 := 513, finfo1 := 512 } }) = some (bl [1, 0, 1]) := by decide +kernel

/-- V-SYS-1: CLRS is ignored while a fault is pending. -/
theorem test_clrs_pending : outStats (exec .clrs { State.reset with st := { Status.reset with err := true, fault := .frameTooLarge } }) = some (true, 0, 0) := by decide +kernel

/-- V-SYS-6: ERR 1, CORR 3, SYND 5, then CLRS. -/
theorem test_clrs : outStats (exec .clrs { State.reset with st := { Status.reset with err := true, corr := 3, synd := 5 } }) = some (false, 0, 0) := by decide +kernel

/-- V-SYS-7: SRST runs while a fault is pending and gives the reset state of R471. -/
theorem test_srst_pending : exec .srst { State.reset with w := .bits (bl [1, 0, 1]), cfg := { Cfg.reset with hamM := 9 }, st := { Status.reset with fault := .frameTooLarge, finfo0 := 513, finfo1 := 512 } } = .next State.reset := by rfl

/-- Section 1.1: HAM.ENC1 of 1011 is 0110011 (m = 4); V-HAM-7 (m = 8). -/
theorem test_ham_enc1 : outBits (exec .hamEnc1 { State.reset with w := .bits (bl [1, 0, 1, 1]) }) = some (bl [0, 1, 1, 0, 0, 1, 1]) ∧ outBits (exec .hamEnc1 { State.reset with w := .bits (bl [1, 0, 1, 1, 0, 0, 1, 0]), cfg := { Cfg.reset with hamM := 8 } }) = some (bl [1, 0, 1, 0, 0, 1, 1, 1, 0, 0, 1, 0]) := by decide +kernel

/-- V-HAM-9: a block of the wrong length. -/
theorem test_ham_enc1_length : outFault (exec .hamEnc1 { State.reset with w := .bits (bl [1, 0, 1]) }) = some (.badLength, 3, 4) := by decide +kernel

/-- Section 1.1: position 5 flipped; V-HAM-5: a double error is miscorrected. -/
theorem test_ham_dec1 : outBits (exec .hamDec1 { State.reset with w := .bits (bl [0, 1, 1, 0, 1, 1, 1]) }) = some (bl [1, 0, 1, 1]) ∧ outStats (exec .hamDec1 { State.reset with w := .bits (bl [0, 1, 1, 0, 1, 1, 1]) }) = some (false, 0, 5) ∧ outBits (exec .hamDec1 { State.reset with w := .bits (bl [1, 0, 1, 0, 0, 1, 1]) }) = some (bl [0, 0, 1, 1]) := by decide +kernel

/-- V-HAM-8: syndrome 13 beyond n = 12 flips nothing. -/
theorem test_ham_dec1_beyond : outBits (exec .hamDec1 { State.reset with w := .bits (bl [0, 0, 1, 0, 0, 1, 1, 1, 0, 0, 1, 1]), cfg := { Cfg.reset with hamM := 8 } }) = some (bl [1, 0, 1, 1, 0, 0, 1, 1]) ∧ outStats (exec .hamDec1 { State.reset with w := .bits (bl [0, 0, 1, 0, 0, 1, 1, 1, 0, 0, 1, 1]), cfg := { Cfg.reset with hamM := 8 } }) = some (false, 0, 13) := by decide +kernel

/-- V-HAM-11: "Hi" with m = 4; V-HAM-17: m = 3, padded to 18 bits. -/
theorem test_ham_enc : outBits (exec .hamEnc { State.reset with w := .bits (bl [0, 1, 0, 0, 1, 0, 0, 0, 0, 1, 1, 0, 1, 0, 0, 1]) }) = some (bl [1, 0, 0, 1, 1, 0, 0, 1, 1, 1, 0, 0, 0, 0, 1, 1, 0, 0, 1, 1, 0, 0, 0, 1, 1, 0, 0, 1]) ∧ outBits (exec .hamEnc { State.reset with w := .bits (bl [0, 1, 0, 0, 1, 0, 0, 0, 0, 1, 1, 0, 1, 0, 0, 1]), cfg := { Cfg.reset with hamM := 3 } }) = some (bl [1, 0, 0, 1, 1, 0, 1, 0, 0, 1, 1, 0, 0, 0, 0, 0, 0, 0, 0, 1, 1, 1, 1, 0, 1, 1, 1, 0, 0, 0, 1, 1, 1, 0, 0, 0]) := by decide +kernel

/-- V-HAM-14: the 5 bits of the partial byte are dropped. -/
theorem test_ham_enc_partial : outBits (exec .hamEnc { State.reset with w := .bits (bl [0, 1, 0, 0, 1, 0, 0, 0, 0, 1, 1, 0, 1]) }) = some (bl [1, 0, 0, 1, 1, 0, 0, 1, 1, 1, 0, 0, 0, 0]) := by decide +kernel

/-- V-HAM-13: bit 3 flipped counts one correction. -/
theorem test_ham_dec : outBits (exec .hamDec { State.reset with w := .bits (bl [1, 0, 1, 1, 1, 0, 0, 1, 1, 1, 0, 0, 0, 0, 1, 1, 0, 0, 1, 1, 0, 0, 0, 1, 1, 0, 0, 1]) }) = some (bl [0, 1, 0, 0, 1, 0, 0, 0, 0, 1, 1, 0, 1, 0, 0, 1]) ∧ outStats (exec .hamDec { State.reset with w := .bits (bl [1, 0, 1, 1, 1, 0, 0, 1, 1, 1, 0, 0, 0, 0, 1, 1, 0, 0, 1, 1, 0, 0, 0, 1, 1, 0, 0, 1]) }) = some (false, 1, 0) := by decide +kernel

/-- V-HAM-20: the padding of m = 16 returns as a zero byte. -/
theorem test_ham_dec_padding : outBits (exec .hamDec { State.reset with w := .bits (bl [1, 0, 0, 0, 1, 0, 0, 1, 0, 0, 0, 1, 0, 0, 0, 0, 0, 0, 0, 0, 0]), cfg := { Cfg.reset with hamM := 16 } }) = some (bl [0, 1, 0, 0, 0, 0, 0, 1, 0, 0, 0, 0, 0, 0, 0, 0]) := by decide +kernel

/-- V-PAR-1, V-PAR-7: one parity bit per byte, the last 4 bits dropped. -/
theorem test_par_add : outBits (exec .parAdd { State.reset with w := .bits (bl [0, 1, 0, 0, 0, 0, 0, 1, 0, 1, 0, 0, 0, 0, 1, 1]) }) = some (bl [0, 1, 0, 0, 0, 0, 0, 1, 0, 0, 1, 0, 0, 0, 0, 1, 1, 1]) ∧ outBits (exec .parAdd { State.reset with w := .bits (bl [1, 0, 0, 1, 1, 0, 0, 1, 1, 1, 0, 0, 0, 0, 1, 1, 0, 0, 1, 1, 0, 0, 0, 1, 1, 0, 0, 1]) }) = some (bl [1, 0, 0, 1, 1, 0, 0, 1, 0, 1, 1, 0, 0, 0, 0, 1, 1, 0, 0, 0, 1, 1, 0, 0, 0, 1, 1]) := by decide +kernel

/-- V-PAR-4: one bit flipped in block 2. -/
theorem test_par_chk : outBits (exec .parChk { State.reset with w := .bits (bl [0, 1, 0, 0, 1, 0, 0, 0, 0, 0, 1, 1, 0, 1, 0, 0, 1, 1]) }) = some (bl [0, 1, 0, 0, 1, 0, 0, 0, 0, 1, 1, 0, 1, 0, 0, 1]) ∧ outStats (exec .parChk { State.reset with w := .bits (bl [0, 1, 0, 0, 1, 0, 0, 0, 0, 0, 1, 1, 0, 1, 0, 0, 1, 1]) }) = some (true, 0, 0) := by decide +kernel

/-- V-PAR-5: an even number of flips passes; ERR is overwritten with 0. -/
theorem test_par_chk_even : outBits (exec .parChk { State.reset with w := .bits (bl [1, 1, 0, 0, 1, 0, 0, 0, 1, 0, 1, 1, 0, 1, 0, 0, 1, 0]) }) = some (bl [1, 1, 0, 0, 1, 0, 0, 0, 0, 1, 1, 0, 1, 0, 0, 1]) ∧ outStats (exec .parChk { State.reset with w := .bits (bl [1, 1, 0, 0, 1, 0, 0, 0, 1, 0, 1, 1, 0, 1, 0, 0, 1, 0]), st := { Status.reset with err := true } }) = some (false, 0, 0) := by decide +kernel

/-- V-CKS-1, V-CKS-5: EDC_WIDTH 8. -/
theorem test_cks_add : outBits (exec .cksAdd { State.reset with w := .bits (bl [0, 1, 0, 0, 1, 0, 0, 0, 0, 1, 1, 0, 1, 0, 0, 1]), cfg := { Cfg.reset with edcWidth := some 8 } }) = some (bl [0, 1, 0, 0, 1, 0, 0, 0, 0, 1, 1, 0, 1, 0, 0, 1, 0, 1, 0, 0, 1, 1, 1, 0]) ∧ outBits (exec .cksAdd { State.reset with w := .bits (bl [1, 1, 1, 1, 1, 1, 1, 1, 1, 1, 1, 1, 1, 1, 1, 1]), cfg := { Cfg.reset with edcWidth := some 8 } }) = some (bl [1, 1, 1, 1, 1, 1, 1, 1, 1, 1, 1, 1, 1, 1, 1, 1, 0, 0, 0, 0, 0, 0, 0, 1]) := by decide +kernel

/-- V-CKS-11, V-CKS-12: an illegal width, and an unset one. -/
theorem test_cks_add_width : outFault (exec .cksAdd { State.reset with cfg := { Cfg.reset with edcWidth := some 12 } }) = some (.cfgInvalid, 0x15, 0) ∧ outFault (exec .cksAdd State.reset) = some (.cfgUnset, 0x15, 0) := by decide +kernel

/-- V-CKS-8: two flips that cancel in the sum. -/
theorem test_cks_chk : outBits (exec .cksChk { State.reset with w := .bits (bl [0, 1, 0, 0, 1, 0, 0, 1, 0, 1, 1, 0, 1, 0, 0, 0, 0, 1, 0, 0, 1, 1, 1, 0]), cfg := { Cfg.reset with edcWidth := some 8 } }) = some (bl [0, 1, 0, 0, 1, 0, 0, 1, 0, 1, 1, 0, 1, 0, 0, 0]) ∧ outStats (exec .cksChk { State.reset with w := .bits (bl [0, 1, 0, 0, 1, 0, 0, 1, 0, 1, 1, 0, 1, 0, 0, 0, 0, 1, 0, 0, 1, 1, 1, 0]), cfg := { Cfg.reset with edcWidth := some 8 } }) = some (false, 0, 0) := by decide +kernel

/-- V-CKS-9: 4 bits are fewer than the field. -/
theorem test_cks_chk_short : outBits (exec .cksChk { State.reset with w := .bits (bl [0, 1, 0, 1]), cfg := { Cfg.reset with edcWidth := some 16 } }) = some [] ∧ outStats (exec .cksChk { State.reset with w := .bits (bl [0, 1, 0, 1]), cfg := { Cfg.reset with edcWidth := some 16 } }) = some (true, 0, 0) := by decide +kernel

/-- V-CRC-3: the four check values of the string 123456789; V-CRC-1: T[255] for 0xD5. -/
theorem test_crc_values : [8, 16, 24, 32].map (fun wd => crc Params.default (stdPoly wd) (bitsOfBytes [49, 50, 51, 52, 53, 54, 55, 56, 57]) wd) = [0xBC, 0xFEE8, 0xCDE703, 0x89A1897F] ∧ crcTableEntry 8 0xD5 255 = 0xF9 := by decide +kernel

/-- V-CRC-5; V-CRC-8: 28 bits, 3 covered bytes. -/
theorem test_crc_add : outBits (exec .crcAdd { State.reset with w := .bits (bl [0, 1, 0, 0, 1, 0, 0, 0, 0, 1, 1, 0, 1, 0, 0, 1]), cfg := { Cfg.reset with edcWidth := some 16 } }) = some (bl [0, 1, 0, 0, 1, 0, 0, 0, 0, 1, 1, 0, 1, 0, 0, 1, 0, 0, 1, 1, 0, 0, 0, 1, 0, 1, 1, 1, 0, 0, 1, 1]) ∧ outBits (exec .crcAdd { State.reset with w := .bits (bl [1, 0, 0, 1, 1, 0, 0, 1, 1, 1, 0, 0, 0, 0, 1, 1, 0, 0, 1, 1, 0, 0, 0, 1, 1, 0, 0, 1]), cfg := { Cfg.reset with edcWidth := some 32 } }) = some (bl [1, 0, 0, 1, 1, 0, 0, 1, 1, 1, 0, 0, 0, 0, 1, 1, 0, 0, 1, 1, 0, 0, 0, 1, 1, 0, 0, 1, 1, 0, 0, 1, 1, 1, 1, 1, 0, 0, 0, 1, 0, 0, 1, 1, 1, 1, 0, 1, 1, 0, 0, 0, 0, 1, 1, 0, 1, 1, 1, 1]) := by decide +kernel

/-- V-CRC-11 (EDC_TAIL = zeropad, 0x2B97D2BD) and V-CRC-12 (CRC_INIT = 0xFF, 0x5A). -/
theorem test_crc_add_params : outBits (exec .crcAdd { State.reset with w := .bits (bl [1, 0, 0, 1, 1, 0, 0, 1, 1, 1, 0, 0, 0, 0, 1, 1, 0, 0, 1, 1, 0, 0, 0, 1, 1, 0, 0, 1]), cfg := { Cfg.reset with edcWidth := some 32 }, params := { Params.default with edcTail := .zeropad } }) = some (bl [1, 0, 0, 1, 1, 0, 0, 1, 1, 1, 0, 0, 0, 0, 1, 1, 0, 0, 1, 1, 0, 0, 0, 1, 1, 0, 0, 1, 0, 0, 1, 0, 1, 0, 1, 1, 1, 0, 0, 1, 0, 1, 1, 1, 1, 1, 0, 1, 0, 0, 1, 0, 1, 0, 1, 1, 1, 1, 0, 1]) ∧ outBits (exec .crcAdd { State.reset with w := .bits (bl [0, 1, 0, 0, 1, 0, 0, 0, 0, 1, 1, 0, 1, 0, 0, 1]), cfg := { Cfg.reset with edcWidth := some 8 }, params := { Params.default with crcInit := 0xFF } }) = some (bl [0, 1, 0, 0, 1, 0, 0, 0, 0, 1, 1, 0, 1, 0, 0, 1, 0, 1, 0, 1, 1, 0, 1, 0]) := by decide +kernel

/-- V-CRC-9: payload bit 27, a tail bit, is not covered. -/
theorem test_crc_chk_tail : outStats (exec .crcChk { State.reset with w := .bits (bl [1, 0, 0, 1, 1, 0, 0, 1, 1, 1, 0, 0, 0, 0, 1, 1, 0, 0, 1, 1, 0, 0, 0, 1, 1, 0, 0, 0, 1, 0, 0, 1, 1, 1, 1, 1, 0, 0, 0, 1, 0, 0, 1, 1, 1, 1, 0, 1, 1, 0, 0, 0, 0, 1, 1, 0, 1, 1, 1, 1]), cfg := { Cfg.reset with edcWidth := some 32 } }) = some (false, 0, 0) := by decide +kernel

/-- V-CRC-10: payload bit 5 flipped. -/
theorem test_crc_chk : outStats (exec .crcChk { State.reset with w := .bits (bl [1, 0, 0, 1, 1, 1, 0, 1, 1, 1, 0, 0, 0, 0, 1, 1, 0, 0, 1, 1, 0, 0, 0, 1, 1, 0, 0, 1, 1, 0, 0, 1, 1, 1, 1, 1, 0, 0, 0, 1, 0, 0, 1, 1, 1, 1, 0, 1, 1, 0, 0, 0, 0, 1, 1, 0, 1, 1, 1, 1]), cfg := { Cfg.reset with edcWidth := some 32 } }) = some (true, 0, 0) := by decide +kernel

/-- V-BCF-1; V-FRM-1: MAX_FRAME_BYTES 63 is illegal. -/
theorem test_bcf_frm : outBits (exec .bcfFrm { State.reset with w := .bits (bl [1, 0, 1]), cfg := { Cfg.reset with maxFrameBytes := some 64 } }) = some (bl [0, 0, 0, 0, 0, 0, 0, 0, 0, 0, 0, 0, 0, 0, 1, 1, 1, 0, 1]) ∧ outFault (exec .bcfFrm { State.reset with w := .bits (bl [1, 0, 1]), cfg := { Cfg.reset with maxFrameBytes := some 63 } }) = some (.cfgInvalid, 0x14, 0) := by decide +kernel

/-- V-BCF-4: 513 bits; V-BCF-3: 512 bits are accepted. -/
theorem test_bcf_frm_too_large : outFault (exec .bcfFrm { State.reset with w := .bits (List.replicate 513 true), cfg := { Cfg.reset with maxFrameBytes := some 64 } }) = some (.frameTooLarge, 513, 512) ∧ outFault (exec .bcfFrm { State.reset with w := .bits (List.replicate 512 true), cfg := { Cfg.reset with maxFrameBytes := some 64 } }) = some (.none, 0, 0) := by decide +kernel

/-- V-BCF-5, V-BCF-6: a short and a long frame. -/
theorem test_bcf_unf : outBits (exec .bcfUnf { State.reset with w := .bits (bl [0, 0, 0, 0, 0, 0, 0, 0, 0, 0, 0, 0, 0, 1, 0, 1, 1, 1]) }) = some (bl [1, 1]) ∧ outBits (exec .bcfUnf { State.reset with w := .bits (bl [0, 0, 0, 0, 0, 0, 0, 0, 0, 0, 0, 0, 0, 0, 1, 0, 1, 1, 0, 1]) }) = some (bl [1, 1]) := by decide +kernel

/-- V-BCF-7: 12 bits. -/
theorem test_bcf_unf_short : outBits (exec .bcfUnf { State.reset with w := .bits (bl [0, 0, 0, 0, 0, 0, 0, 0, 0, 0, 0, 1]) }) = some [] := by decide +kernel

/-- V-BSF-2, V-BSF-4. -/
theorem test_bsf_frm : outBits (exec .bsfFrm { State.reset with w := .bits (bl [1, 1, 1, 1, 1, 1]), cfg := { Cfg.reset with maxFrameBytes := some 64 } }) = some (bl [0, 1, 1, 1, 1, 1, 1, 0, 1, 1, 1, 1, 1, 0, 1, 0, 1, 1, 1, 1, 1, 1, 0]) ∧ outBits (exec .bsfFrm { State.reset with w := .bits (bl [0, 1, 1, 1, 1, 1, 1, 0]), cfg := { Cfg.reset with maxFrameBytes := some 64 } }) = some (bl [0, 1, 1, 1, 1, 1, 1, 0, 0, 1, 1, 1, 1, 1, 0, 1, 0, 0, 1, 1, 1, 1, 1, 1, 0]) := by decide +kernel

/-- V-BSF-11: the check is before stuffing. -/
theorem test_bsf_frm_too_large : outFault (exec .bsfFrm { State.reset with w := .bits (List.replicate 513 true), cfg := { Cfg.reset with maxFrameBytes := some 64 } }) = some (.frameTooLarge, 513, 512) := by decide +kernel

/-- V-BSF-8: a corrupted stuffed bit is skipped; V-BSF-10: flags are not compared. -/
theorem test_bsf_unf : outBits (exec .bsfUnf { State.reset with w := .bits (bl [0, 1, 1, 1, 1, 1, 1, 0, 1, 1, 1, 1, 1, 1, 0, 1, 1, 1, 1, 1, 1, 0]) }) = some (bl [1, 1, 1, 1, 1]) ∧ outBits (exec .bsfUnf { State.reset with w := .bits (bl [0, 0, 0, 0, 0, 0, 0, 0, 1, 0, 1, 1, 1, 1, 1, 1, 1, 1, 1]) }) = some (bl [1, 0, 1]) := by decide +kernel

/-- V-BSF-9: 16 bits. -/
theorem test_bsf_unf_short : outBits (exec .bsfUnf { State.reset with w := .bits (bl [0, 1, 1, 1, 1, 1, 1, 0, 0, 1, 1, 1, 1, 1, 1, 0]) }) = some [] := by decide +kernel

/-- V-YSF-4. -/
theorem test_ysf_frm : outBits (exec .ysfFrm { State.reset with w := .bits (bl [0, 1, 1, 1, 1, 1, 1, 0, 0, 1, 0, 0, 0, 0, 0, 1, 0, 1, 1, 1, 1, 1, 0, 1, 1, 0, 1]), cfg := { Cfg.reset with maxFrameBytes := some 64 } }) = some (bl [0, 1, 1, 1, 1, 1, 1, 0, 0, 1, 1, 1, 1, 1, 0, 1, 0, 1, 0, 1, 1, 1, 1, 0, 0, 1, 0, 0, 0, 0, 0, 1, 0, 1, 1, 1, 1, 1, 0, 1, 0, 1, 0, 1, 1, 1, 0, 1, 1, 0, 1, 0, 1, 1, 1, 1, 1, 1, 0]) := by decide +kernel

/-- V-YSF-10. -/
theorem test_ysf_frm_too_large : outFault (exec .ysfFrm { State.reset with w := .bits (List.replicate 513 true), cfg := { Cfg.reset with maxFrameBytes := some 64 } }) = some (.frameTooLarge, 513, 512) := by decide +kernel

/-- V-YSF-6 and V-YSF-8. -/
theorem test_ysf_unf : outBits (exec .ysfUnf { State.reset with w := .bits (bl [0, 1, 1, 1, 1, 1, 1, 0, 0, 1, 1, 1, 1, 1, 0, 1, 0, 1, 0, 1, 1, 1, 1, 0, 0, 1, 0, 0, 0, 0, 0, 1, 0, 1, 1, 1, 1, 1, 0, 1, 0, 1, 0, 1, 1, 1, 0, 1, 1, 0, 1, 0, 1, 1, 1, 1, 1, 1, 0]) }) = some (bl [0, 1, 1, 1, 1, 1, 1, 0, 0, 1, 0, 0, 0, 0, 0, 1, 0, 1, 1, 1, 1, 1, 0, 1, 1, 0, 1]) ∧ outBits (exec .ysfUnf { State.reset with w := .bits (bl [0, 1, 1, 1, 1, 1, 1, 0, 0, 1, 1, 1, 1, 1, 0, 1, 0, 1, 0, 0, 0, 0, 0, 1, 0, 1, 1, 1, 1, 1, 1, 0]) }) = some (bl [0, 1, 1, 0, 0, 0, 0, 1]) := by decide +kernel

/-- V-YSF-7: the bits after a final ESC are discarded. -/
theorem test_ysf_unf_final_esc : outBits (exec .ysfUnf { State.reset with w := .bits (bl [0, 1, 1, 1, 1, 1, 1, 0, 0, 1, 0, 0, 0, 0, 0, 1, 0, 1, 1, 1, 1, 1, 0, 1, 1, 0, 1, 0, 1, 1, 1, 1, 1, 1, 0]) }) = some (bl [0, 1, 0, 0, 0, 0, 0, 1]) := by decide +kernel

/-- V-NRZ-1; V-NRZ-6: 1000 mod 300 is not 0. -/
theorem test_nrz_mod : outSamples (exec .nrzMod { State.reset with w := .bits (bl [1, 0]), cfg := { Cfg.reset with samplingRate := some 1000, bitRate := some 250 } }) = some (sl [5, 5, 5, 5, -5, -5, -5, -5]) ∧ outFault (exec .nrzMod { State.reset with w := .bits (bl [1, 0]), cfg := { Cfg.reset with samplingRate := some 1000, bitRate := some 300 } }) = some (.cfgInvalid, 0x11, 0) := by decide +kernel

/-- V-SYS-8: BUF_CAP = 10. -/
theorem test_nrz_mod_overflow : outFault (exec .nrzMod { State.reset with w := .bits (bl [1, 0, 1]), cfg := { Cfg.reset with samplingRate := some 1000, bitRate := some 250 }, params := { Params.default with bufCap := some 10 } }) = some (.overflow, 12, 10) := by decide +kernel

/-- V-NRZ-3: means 0, 0, 0.25; V-NRZ-4: a partial window is dropped. -/
theorem test_nrz_dem : outBits (exec .nrzDem { State.reset with w := .samples (sl [1, -1, 0, 0, 0, 0, 0, 0, -3, 2, 2, 0]), cfg := { Cfg.reset with samplingRate := some 1000, bitRate := some 250 } }) = some (bl [0, 0, 1]) ∧ outBits (exec .nrzDem { State.reset with w := .samples (sl [5, 5, 5, 5, 5, 5]), cfg := { Cfg.reset with samplingRate := some 1000, bitRate := some 250 } }) = some (bl [1]) := by decide +kernel

/-- V-NRZ-7: W = Bits. -/
theorem test_nrz_dem_kind : outFault (exec .nrzDem { State.reset with w := .bits (bl [1]), cfg := { Cfg.reset with samplingRate := some 1000, bitRate := some 250 } }) = some (.badKind, 0, 1) := by decide +kernel

/-- V-MAN-1; V-MAN-3: SPB 3. -/
theorem test_man_mod : outSamples (exec .manMod { State.reset with w := .bits (bl [1, 0]), cfg := { Cfg.reset with samplingRate := some 1000, bitRate := some 250 } }) = some (sl [-5, -5, 5, 5, 5, 5, -5, -5]) ∧ outSamples (exec .manMod { State.reset with w := .bits (bl [1]), cfg := { Cfg.reset with samplingRate := some 1500, bitRate := some 500 } }) = some (sl [-5, 5, 5]) := by decide +kernel

/-- V-MAN-7: SPB 1. -/
theorem test_man_mod_spb1 : outFault (exec .manMod { State.reset with w := .bits (bl [1]), cfg := { Cfg.reset with samplingRate := some 1000, bitRate := some 1000 } }) = some (.cfgInvalid, 0x11, 0) := by decide +kernel

/-- V-MAN-2; V-MAN-4 with SPB 3. -/
theorem test_man_dem : outBits (exec .manDem { State.reset with w := .samples (sl [-5, -5, 5, 5, 5, 5, -5, -5]), cfg := { Cfg.reset with samplingRate := some 1000, bitRate := some 250 } }) = some (bl [1, 0]) ∧ outBits (exec .manDem { State.reset with w := .samples (sl [5, -5, -5, -5, 5, 5, -5, 5, 5, 5, -5, -5]), cfg := { Cfg.reset with samplingRate := some 1500, bitRate := some 500 } }) = some (bl [0, 1, 1, 0]) := by decide +kernel

/-- V-MAN-5: half means -1, -0.5 under both settings of MAN_DECIDE. -/
theorem test_man_dem_decide : outBits (exec .manDem { State.reset with w := .samples (sl [-1, -1, -1/2, -1/2]), cfg := { Cfg.reset with samplingRate := some 1000, bitRate := some 250 } }) = some (bl [1]) ∧ outBits (exec .manDem { State.reset with w := .samples (sl [-1, -1, -1/2, -1/2]), cfg := { Cfg.reset with samplingRate := some 1000, bitRate := some 250 }, params := { Params.default with manDecide := .signs } }) = some (bl [0]) := by decide +kernel

/-- V-AMI-1. -/
theorem test_ami_mod : outSamples (exec .amiMod { State.reset with w := .bits (bl [1, 1, 0, 1]), cfg := { Cfg.reset with samplingRate := some 1000, bitRate := some 500 } }) = some (sl [5, 5, -5, -5, 0, 0, 5, 5]) := by decide +kernel

/-- V-AMI-3: the threshold 2.5 is strict; V-AMI-5: a bipolar violation. -/
theorem test_ami_dem : outBits (exec .amiDem { State.reset with w := .samples (sl [5/2, 5/2, 26/10, 24/10, -3, -3]), cfg := { Cfg.reset with samplingRate := some 1000, bitRate := some 500 } }) = some (bl [0, 0, 1]) ∧ outBits (exec .amiDem { State.reset with w := .samples (sl [5, 5, 5, 5]), cfg := { Cfg.reset with samplingRate := some 1000, bitRate := some 500 } }) = some (bl [1, 1]) := by decide +kernel

/-- V-ASK-1, V-ASK-2. -/
theorem test_ask_mod : outSamples (exec .askMod { State.reset with w := .bits (bl [1, 0]), cfg := { Cfg.reset with samplingRate := some 1000, bitRate := some 125, carrierFreq := some 125 } }) = some [Sample.ofRat (0), rt (5), Sample.ofRat (5), rt (5), Sample.ofRat (0), rt (-5), Sample.ofRat (-5), rt (-5), Sample.ofRat (0), Sample.ofRat (0), Sample.ofRat (0), Sample.ofRat (0), Sample.ofRat (0), Sample.ofRat (0), Sample.ofRat (0), Sample.ofRat (0)] := by decide +kernel

/-- V-ASK-3, V-ASK-4, V-ASK-5: energies 100, 0, 25, 26 against 25. -/
theorem test_ask_dem : outBits (exec .askDem { State.reset with w := .samples [Sample.ofRat (0), rt (5), Sample.ofRat (5), rt (5), Sample.ofRat (0), rt (-5), Sample.ofRat (-5), rt (-5), Sample.ofRat (0), Sample.ofRat (0), Sample.ofRat (0), Sample.ofRat (0), Sample.ofRat (0), Sample.ofRat (0), Sample.ofRat (0), Sample.ofRat (0), Sample.ofRat (5), Sample.ofRat (0), Sample.ofRat (0), Sample.ofRat (0), Sample.ofRat (0), Sample.ofRat (0), Sample.ofRat (0), Sample.ofRat (0), Sample.ofRat (5), Sample.ofRat (1), Sample.ofRat (0), Sample.ofRat (0), Sample.ofRat (0), Sample.ofRat (0), Sample.ofRat (0), Sample.ofRat (0)], cfg := { Cfg.reset with samplingRate := some 1000, bitRate := some 125, carrierFreq := some 125 } }) = some (bl [1, 0, 0, 1]) := by decide +kernel

/-- V-FSK-1. -/
theorem test_fsk_mod : outSamples (exec .fskMod { State.reset with w := .bits (bl [0, 1]), cfg := { Cfg.reset with samplingRate := some 1000, bitRate := some 125, carrierFreq := some 125 } }) = some [Sample.ofRat (0), rt (5), Sample.ofRat (5), rt (5), Sample.ofRat (0), rt (-5), Sample.ofRat (-5), rt (-5), Sample.ofRat (0), Sample.ofRat (5), Sample.ofRat (0), Sample.ofRat (-5), Sample.ofRat (0), Sample.ofRat (5), Sample.ofRat (0), Sample.ofRat (-5)] := by decide +kernel

/-- V-FSK-2, V-FSK-3: correlations 20/0, 0/20 and a tie. -/
theorem test_fsk_dem : outBits (exec .fskDem { State.reset with w := .samples [Sample.ofRat (0), rt (5), Sample.ofRat (5), rt (5), Sample.ofRat (0), rt (-5), Sample.ofRat (-5), rt (-5), Sample.ofRat (0), Sample.ofRat (5), Sample.ofRat (0), Sample.ofRat (-5), Sample.ofRat (0), Sample.ofRat (5), Sample.ofRat (0), Sample.ofRat (-5), Sample.ofRat (0), Sample.ofRat (0), Sample.ofRat (0), Sample.ofRat (0), Sample.ofRat (0), Sample.ofRat (0), Sample.ofRat (0), Sample.ofRat (0)], cfg := { Cfg.reset with samplingRate := some 1000, bitRate := some 125, carrierFreq := some 125 } }) = some (bl [0, 1, 0]) := by decide +kernel

/-- V-QPSK-1, V-QPSK-3: all four symbols, an odd trailing bit dropped. -/
theorem test_qpsk_mod : outSamples (exec .qpskMod { State.reset with w := .bits (bl [1, 1, 1, 0, 0, 0, 0, 1, 1]), cfg := { Cfg.reset with samplingRate := some 1000, bitRate := some 125, carrierFreq := some 125 } }) = some [rt (5), Sample.ofRat (0), rt (-5), Sample.ofRat (-5), rt (-5), Sample.ofRat (0), rt (5), Sample.ofRat (5), rt (-5), Sample.ofRat (-5), rt (-5), Sample.ofRat (0), rt (5), Sample.ofRat (5), rt (5), Sample.ofRat (0), rt (-5), Sample.ofRat (0), rt (5), Sample.ofRat (5), rt (5), Sample.ofRat (0), rt (-5), Sample.ofRat (-5), rt (5), Sample.ofRat (5), rt (5), Sample.ofRat (0), rt (-5), Sample.ofRat (-5), rt (-5), Sample.ofRat (0)] := by decide +kernel

/-- V-QPSK-2: each window decodes to its own pair. -/
theorem test_qpsk_dem : outBits (exec .qpskDem { State.reset with w := .samples [rt (5), Sample.ofRat (0), rt (-5), Sample.ofRat (-5), rt (-5), Sample.ofRat (0), rt (5), Sample.ofRat (5), rt (-5), Sample.ofRat (-5), rt (-5), Sample.ofRat (0), rt (5), Sample.ofRat (5), rt (5), Sample.ofRat (0), rt (-5), Sample.ofRat (0), rt (5), Sample.ofRat (5), rt (5), Sample.ofRat (0), rt (-5), Sample.ofRat (-5), rt (5), Sample.ofRat (5), rt (5), Sample.ofRat (0), rt (-5), Sample.ofRat (-5), rt (-5), Sample.ofRat (0)], cfg := { Cfg.reset with samplingRate := some 1000, bitRate := some 125, carrierFreq := some 125 } }) = some (bl [1, 1, 1, 0, 0, 0, 0, 1]) := by decide +kernel

/-- V-QPSK-4 to V-QPSK-7: I = Q = 0, then the axes. -/
theorem test_qpsk_dem_boundaries : outBits (exec .qpskDem { State.reset with w := .samples [Sample.ofRat (0), Sample.ofRat (0), Sample.ofRat (0), Sample.ofRat (0), Sample.ofRat (0), Sample.ofRat (0), Sample.ofRat (0), Sample.ofRat (0), Sample.ofRat (-1), Sample.ofRat (0), Sample.ofRat (0), Sample.ofRat (0), Sample.ofRat (0), Sample.ofRat (0), Sample.ofRat (0), Sample.ofRat (0), Sample.ofRat (0), Sample.ofRat (0), Sample.ofRat (1), Sample.ofRat (0), Sample.ofRat (0), Sample.ofRat (0), Sample.ofRat (0), Sample.ofRat (0), Sample.ofRat (0), Sample.ofRat (0), Sample.ofRat (-1), Sample.ofRat (0), Sample.ofRat (0), Sample.ofRat (0), Sample.ofRat (0), Sample.ofRat (0)], cfg := { Cfg.reset with samplingRate := some 1000, bitRate := some 125, carrierFreq := some 125 } }) = some (bl [1, 1, 0, 0, 0, 1, 1, 0]) := by decide +kernel

/-- V-QAM-1, V-QAM-2 (sqrt 2 = 2r): the second symbol is zero-padded. -/
theorem test_qam_mod : outSamples (exec .qamMod { State.reset with w := .bits (bl [1, 0, 1, 1, 1, 0]), cfg := { Cfg.reset with samplingRate := some 1000, bitRate := some 125, carrierFreq := some 125, amplitude := Sample.ofRat 1 } }) = some [Sample.ofRat (-3), rt (-2), Sample.ofRat (1), rt (4), Sample.ofRat (3), rt (2), Sample.ofRat (-1), rt (-4), Sample.ofRat (-3), rt (-6), Sample.ofRat (-3), Sample.ofRat (0), Sample.ofRat (3), rt (6), Sample.ofRat (3), Sample.ofRat (0)] := by decide +kernel

/-- V-QAM-3: Ec = Eq = 4. -/
theorem test_qam_dem : outBits (exec .qamDem { State.reset with w := .samples [Sample.ofRat (-3), rt (-2), Sample.ofRat (1), rt (4), Sample.ofRat (3), rt (2), Sample.ofRat (-1), rt (-4), Sample.ofRat (-3), rt (-6), Sample.ofRat (-3), Sample.ofRat (0), Sample.ofRat (3), rt (6), Sample.ofRat (3), Sample.ofRat (0)], cfg := { Cfg.reset with samplingRate := some 1000, bitRate := some 125, carrierFreq := some 125, amplitude := Sample.ofRat 1 } }) = some (bl [1, 0, 1, 1, 1, 0, 0, 0]) := by decide +kernel

/-- V-QAM-6: Eq = 0, raised before the kind check. -/
theorem test_qam_dem_energy : outFault (exec .qamDem { State.reset with w := .bits (bl [1]), cfg := { Cfg.reset with samplingRate := some 400, bitRate := some 100, carrierFreq := some 200 } }) = some (.cfgInvalid, 0x12, 0) := by decide +kernel

/-- V-SYS-9: the configuration check comes before the kind check. -/
theorem test_fault_priority : outFault (exec .hamEnc1 { State.reset with w := .samples [], cfg := { Cfg.reset with hamM := 0 } }) = some (.cfgInvalid, 0x17, 0) := by decide +kernel

/-- V-HAM-22: W = Samples. -/
theorem test_fault_kind : outFault (exec .hamEnc { State.reset with w := .samples (sl [1]) }) = some (.badKind, 1, 0) := by decide +kernel

/-- V-SYS-4, V-SYS-5: 0x14 faults, and is ignored while a fault is pending. -/
theorem test_reserved_word : outFault (execWord 0x14 State.reset) = some (.badOpcode, 0x14, 0) ∧ outFault (execWord 0x14 { State.reset with st := { Status.reset with fault := .cfgUnset } }) = some (.cfgUnset, 0, 0) := by decide +kernel

/-- V-SYS-10: STATUS, CRC_POLY, HAM_M, AMPLITUDE, SAMPLING_RATE after reset. -/
theorem test_read_registers : [0x01, 0x16, 0x17, 0x13, 0x10].map (readReg · State.reset) = [.nat 0, .nat 0, .nat 4, .sample (Sample.ofRat 5), .nat 0] := by decide +kernel

/-- R35, R36, R46: a write of 0 to CRC_POLY is STD, a status or reserved number ignores a write. -/
theorem test_write_registers : (writeReg 0x16 0 (writeReg 0x16 7 State.reset)).cfg.crcPoly = .std ∧ writeReg 0x05 7 (writeReg 0x40 7 State.reset) = State.reset := by decide +kernel

/-- P4: samples 1 and 2 of a sequence get the draw added. -/
theorem test_chan : outSamples (runChan (.seq (sl [0, 10])) { State.reset with w := .samples (sl [-5, -5]) }) = some (sl [-5, 5]) := by decide +kernel

/-- Section 1.2 and R382: "Hi" to bits; a byte 7 and a partial byte are skipped. -/
theorem test_text : textToBits ['H', 'i'] = some (bl [0, 1, 0, 0, 1, 0, 0, 0, 0, 1, 1, 0, 1, 0, 0, 1]) ∧ bitsToText (bl [0, 1, 0, 0, 1, 0, 0, 0, 0, 0, 0, 0, 0, 1, 1, 1, 0, 1, 1, 0, 1, 0, 0, 1, 1, 0, 1]) = ['H', 'i'] := by decide +kernel

/-- A step with EXEC(0x20) next runs PAR.ADD. -/
theorem test_step_runs_command : outBits (step ({ State.reset with w := .bits (bl [0, 1, 0, 0, 0, 0, 0, 1]) }.withFetchWord 8 0x20)) = some (bl [0, 1, 0, 0, 0, 0, 0, 1, 0]) := by decide +kernel

/-- R111: the words of the system commands, bit by bit. -/
theorem test_decode_system : [0b00000000, 0b00000001, 0b00000010, 0b00000011].map decode = [.nop, .clrf, .clrs, .srst].map Except.ok := by rfl

/-- R111: the words of the hamming commands, bit by bit. -/
theorem test_decode_hamming : [0b00010000, 0b00010001, 0b00010010, 0b00010011].map decode = [.hamEnc, .hamDec, .hamEnc1, .hamDec1].map Except.ok := by rfl

/-- R111: the words of the edc commands, bit by bit. -/
theorem test_decode_edc : [0b00100000, 0b00100001, 0b00110000, 0b00110001, 0b01000000, 0b01000001].map decode = [.parAdd, .parChk, .cksAdd, .cksChk, .crcAdd, .crcChk].map Except.ok := by rfl

/-- R111: the words of the framers commands, bit by bit. -/
theorem test_decode_framers : [0b01010000, 0b01010001, 0b01100000, 0b01100001, 0b01110000, 0b01110001].map decode = [.bcfFrm, .bcfUnf, .bsfFrm, .bsfUnf, .ysfFrm, .ysfUnf].map Except.ok := by rfl

/-- R111: the words of the baseband commands, bit by bit. -/
theorem test_decode_baseband : [0b10000000, 0b10000001, 0b10010000, 0b10010001, 0b10100000, 0b10100001].map decode = [.nrzMod, .nrzDem, .manMod, .manDem, .amiMod, .amiDem].map Except.ok := by rfl

/-- R111: the words of the carrier commands, bit by bit. -/
theorem test_decode_carrier : [0b10110000, 0b10110001, 0b11000000, 0b11000001, 0b11010000, 0b11010001, 0b11100000, 0b11100001].map decode = [.askMod, .askDem, .fskMod, .fskDem, .qpskMod, .qpskDem, .qamMod, .qamDem].map Except.ok := by rfl

/-- R113: reserved words of units 0, 1, 2 and 15. -/
theorem test_decode_reserved : [0x04, 0x14, 0x22, 0xE2, 0xF0, 0xFF].all (fun c => (decode c).toOption == none) = true := by decide

/-- The table numbers bit 0 of the one byte least: 0xE1 is QAM.DEM; R114: a command has exactly 8 bits. -/
theorem test_decode_table_word : decodeTableWord 8 0xE1 = some .qamDem ∧ decodeTableWord 8 0xF0 = none ∧ decodeTableWord 4 1 = none ∧ decodeTableWord 9 1 = none := by decide

/-- R111, R120, R121: a command by its spelling; another spelling is no program, nor is a command with operands (R112). -/
theorem test_assemble : assemble "QAM.DEM" none = some [.exec 0xE1] ∧ assemble "qam.dem" none = none ∧ assemble "QAM.DEM" (some ⟨"BCF", "CRC", "NRZ", true⟩) = none ∧ registerNumber "HAM_M" = some 0x17 := by decide +kernel

/-- R121, R122 and the words of program P1: TX and RX with BCF, CRC, NRZ, ham; a component outside R122 is no program. -/
theorem test_assemble_pseudo : assemble "TX" (some ⟨"BCF", "CRC", "NRZ", true⟩) = some [.exec 0x10, .exec 0x40, .exec 0x50, .exec 0x80] ∧ assemble "RX" (some ⟨"BCF", "CRC", "NRZ", true⟩) = some [.exec 0x02, .exec 0x81, .exec 0x51, .exec 0x41, .exec 0x11] ∧ assemble "RX" (some ⟨"HAM", "CRC", "NRZ", true⟩) = none ∧ assemble "tx" (some ⟨"BCF", "CRC", "NRZ", true⟩) = none := by decide +kernel

/-- WellFormed refuses QAM16_SCALE = 0 and a negative scale (00_scope.md R7). -/
theorem test_smoke_params : Params.wellFormed Params.default = true ∧ Params.wellFormed { Params.default with qamScale := Sample.zero } = false ∧ Params.wellFormed { Params.default with qamScale := Sample.ofRat (-1) } = false := by decide +kernel

/-- WellFormed refuses a write of 256 to CMD (R56). -/
theorem test_smoke_action : HostAction.wellFormed (.wrreg 0x00 0xFF) = true ∧ HostAction.wellFormed (.wrreg 0x00 0x100) = false := by decide

/-- WellFormed refuses a text with a code point over 255 (R381); textToBits has no value on it. -/
theorem test_smoke_text : textWellFormed ['H', 'i'] = true ∧ textWellFormed [Char.ofNat 256] = false ∧ textToBits [Char.ofNat 256] = none := by decide

/-- 93 I19, I20: LOADW over BUF_CAP and chan on bits are refused. -/
theorem test_refused_actions : runLoadw (.bits [true, true]) { State.reset with params := { Params.default with bufCap := some 1 } } = .refused .loadwOverCapacity ∧ runChan .zero State.reset = .refused .chanOnBits := ⟨by rfl, by rfl⟩

/-! ### Witnesses: for each statement with hypotheses, values that meet them together, one per clause -/

/-- With the default parameters the arithmetic is real, and a command that answers without a fault reaches a next state that
is not faulted. -/
theorem completes_of {i : Instr} {s : State} {v : Buffer} {a c : Word32} (hr : s.Ready i) (hw : s.w = v)
    (hp : s.params = Params.default) (h : outFault (exec i s) = some (.none, a, c)) :
    ∃ (s t : State) (ρ : Sample → ℝ), s.params.arith.IsReal ρ ∧ s.Ready i ∧ s.w = v ∧ exec i s = .next t ∧
      ¬ t.Faulted := by
  cases he : exec i s with
  | next t =>
    rw [he] at h
    simp only [outFault, Option.some.injEq, Prod.mk.injEq] at h
    exact ⟨s, t, _, hp ▸ default_isReal, hr, hw, he, by simp [h.1]⟩
  | fault r => cases r
  | refused r => simp [he, outFault] at h

/-- SPB = 2 at a quarter turn per sample: the reference cosine is 1, 0 and the reference sine 0, 1. -/
def qamState (v : Buffer) : State :=
  { State.reset with w := v, cfg := { Cfg.reset with samplingRate := some 400, bitRate := some 200, carrierFreq := some 100 } }

theorem qamState_not_zeroEnergy (v : Buffer) : ¬ (qamState v).ZeroEnergy := by
  show ¬ (qamState (.bits [])).ZeroEnergy
  unfold State.ZeroEnergy
  decide +kernel

/-- Hypotheses of OpcodeMapWords: the first reserved word -/
theorem witness_OpcodeMapWords :
    ∀ i : Instr, encode i ≠ 0x04 :=
  by intro i; cases i <;> decide

/-- Hypotheses of StepRunsCommand: one per clause, a reserved word and the greatest 8-bit value -/
theorem witness_StepRunsCommand :
    (∃ s : State, s.program = .exec 0x04 :: [.readw] ∧ ¬ IsCommandWord 0x04) ∧
    (∃ (s : State) (v : Word32), s.program = .wrreg 0x00 v :: [] ∧ v.toNat = 255) ∧
    decode 0xE1 = .ok .qamDem ∧ (∃ s : State, s.program = .exec 0xE1 :: []) ∧
    ∃ s : State, s.program = .wrreg 0x00 ((0xE1 : Byte).setWidth 32) :: [] :=
  ⟨⟨{ State.reset with program := [.exec 0x04, .readw] }, rfl, (fun ⟨i, h⟩ => by cases h)⟩,
    ⟨{ State.reset with program := [.wrreg 0x00 255] }, 255, rfl, by decide⟩, rfl,
    ⟨{ State.reset with program := [.exec 0xE1] }, rfl⟩, ⟨{ State.reset with program := [.wrreg 0x00 0xE1] }, rfl⟩⟩

/-- Hypotheses of ClrsResult: one per clause -/
theorem witness_ClrsResult :
    (¬ State.Faulted State.reset) ∧ State.Faulted { State.reset with st := { Status.reset with fault := .badKind, finfo0 := 1 } } :=
  ⟨by decide, by decide⟩

/-- Hypotheses of PendingFaultIgnored. -/
theorem witness_PendingFaultIgnored :
    State.Faulted { State.reset with st := { Status.reset with fault := .badKind, finfo0 := 1 } } ∧ Instr.nop ≠ .clrf ∧ Instr.nop ≠ .srst ∧ (0x02 : Byte) ≠ 0x01 ∧ (0x02 : Byte) ≠ 0x03 :=
  ⟨by decide, by decide, by decide, by decide, by decide⟩

/-- Hypotheses of ReservedWordFaults: the first and the last reserved word -/
theorem witness_ReservedWordFaults :
    (¬ IsCommandWord 0x04) ∧ (¬ IsCommandWord 0xFF) ∧ ¬ State.Faulted State.reset ∧ State.Faulted { State.reset with st := { Status.reset with fault := .badKind, finfo0 := 1 } } :=
  ⟨(fun ⟨i, h⟩ => by cases h), (fun ⟨i, h⟩ => by cases h), by decide, by decide⟩

/-- Hypotheses of FaultEntry: an empty W is no block -/
theorem witness_FaultEntry :
    ∃ t, exec .hamEnc1 State.reset = .next t ∧ ¬ State.Faulted State.reset ∧ t.Faulted :=
  ⟨_, rfl, by decide, by decide⟩

/-- Hypotheses of ConfigCheck: one per clause; the polynomial 2^8 is the first illegal one at width 8 -/
theorem witness_ConfigCheck :
    (∃ s : State, ¬ s.Faulted ∧ CfgField.edcWidth ∈ fieldsRead .crcAdd ∧ s.cfg.isUnset .edcWidth = true ∧
      ∀ g ∈ fieldsRead .crcAdd, g.number < CfgField.edcWidth.number → s.cfg.isUnset g = false) ∧
    (∃ s : State, ¬ s.Faulted ∧ CfgField.crcPoly ∈ fieldsRead .crcAdd ∧ (∀ g ∈ fieldsRead .crcAdd, s.cfg.isUnset g = false) ∧
      s.cfg.isLegal s.params.arith .crcAdd .crcPoly = false ∧
      ∀ g ∈ fieldsRead .crcAdd, g.number < CfgField.crcPoly.number → s.cfg.isLegal s.params.arith .crcAdd g = true) :=
  ⟨⟨State.reset, by decide +kernel⟩, ⟨{ State.reset with cfg := { Cfg.reset with edcWidth := some 8, crcPoly := .poly 256 } }, by decide +kernel⟩⟩

/-- Hypotheses of LegalValues: one per clause -/
theorem witness_LegalValues :
    (∃ c : Cfg, c.samplingRate = some 100 ∧ c.bitRate = some 50 ∧ c.carrierFreq = some 10 ∧ c.maxFrameBytes = some 64 ∧
      c.edcWidth = some 8 ∧ c.crcPoly = .std) ∧ (∃ c : Cfg, c.edcWidth = some 8 ∧ c.crcPoly = .poly 255) ∧
    ∃ (ar : Arith) (ρ : Sample → ℝ), ar.IsReal ρ :=
  ⟨⟨{ Cfg.reset with samplingRate := some 100, bitRate := some 50, carrierFreq := some 10, maxFrameBytes := some 64, edcWidth := some 8 }, rfl, rfl, rfl, rfl, rfl, rfl⟩, ⟨{ Cfg.reset with edcWidth := some 8, crcPoly := .poly 255 }, rfl, rfl⟩,
    ⟨_, _, exact_isReal⟩⟩

/-- Hypotheses of ReadsOnlyItsFields. -/
theorem witness_ReadsOnlyItsFields :
    ∃ (s t : State) (c : Cfg), Instr.nop ≠ .srst ∧ (∀ f ∈ fieldsRead .hamEnc1, s.cfg.Agrees c f) ∧ s.cfg ≠ c ∧
      exec .hamEnc1 s = .next t :=
  ⟨{ State.reset with w := .bits (bl [1, 0, 1, 1]) }, _, { Cfg.reset with edcWidth := some 8 }, by decide, by simp [fieldsRead, Cfg.Agrees, State.reset, Cfg.reset],
    by decide, rfl⟩

/-- Hypotheses of WrongKindFaults: empty sequences of the wrong kind -/
theorem witness_WrongKindFaults :
    (∃ s : State, s.Ready .hamEnc ∧ s.w = .samples []) ∧ (∃ s : State, s.Ready .nrzDem ∧ s.w = .bits []) ∧
    (∃ s : State, s.Ready .qamDem ∧ s.w = .bits [] ∧ ¬ s.ZeroEnergy) :=
  ⟨⟨{ State.reset with w := .samples [] }, by decide +kernel⟩, ⟨{ State.reset with cfg := { Cfg.reset with samplingRate := some 1000, bitRate := some 250 } }, by decide +kernel⟩,
    ⟨qamState (.bits []), by decide +kernel, rfl, qamState_not_zeroEnergy _⟩⟩

/-- Hypotheses of QamZeroEnergy: both sides of the condition -/
theorem witness_QamZeroEnergy :
    (∃ s : State, s.Ready .qamDem ∧ s.spb = 1 ∧ ∃ ρ, s.params.arith.IsReal ρ) ∧
    (∃ s : State, s.Ready .qamDem ∧ s.spb ≠ 1 ∧ regNat s.cfg.samplingRate ∣ 2 * regNat s.cfg.carrierFreq) ∧
    (∃ s : State, s.Ready .qamDem ∧ s.spb ≠ 1 ∧ ¬ regNat s.cfg.samplingRate ∣ 2 * regNat s.cfg.carrierFreq) :=
  ⟨⟨{ State.reset with cfg := { Cfg.reset with samplingRate := some 400, bitRate := some 400, carrierFreq := some 100 } }, by decide +kernel, by decide, _, default_isReal⟩, ⟨{ State.reset with cfg := { Cfg.reset with samplingRate := some 400, bitRate := some 200, carrierFreq := some 200 } }, by decide +kernel⟩,
    ⟨qamState (.bits []), by decide +kernel⟩⟩

/-- Hypotheses of CapacityFault: 9 bits against the capacities 8 and 9, and a command that faults without a bound -/
theorem witness_CapacityFault :
    (∃ s t : State, s.params.bufCap = some 8 ∧ exec .parAdd { s with params := { s.params with bufCap := none } } = .next t ∧
      Instr.parAdd ∉ [Instr.nop, .clrf, .clrs, .srst] ∧ ¬ t.Faulted ∧ 8 < t.w.length) ∧
    (∃ s t : State, s.params.bufCap = some 9 ∧ exec .parAdd { s with params := { s.params with bufCap := none } } = .next t ∧
      ¬ t.Faulted ∧ ¬ 9 < t.w.length) ∧
    (∃ s t : State, s.params.bufCap = some 8 ∧ exec .hamEnc1 { s with params := { s.params with bufCap := none } } = .next t ∧
      t.Faulted) ∧
    ∃ s t : State, s.params.bufCap = none ∧ ¬ s.Faulted ∧ exec .hamEnc1 s = .next t :=
  ⟨⟨{ State.reset with w := .bits (bl [0, 1, 0, 0, 0, 0, 0, 1]), params := { Params.default with bufCap := some 8 } }, _, rfl, rfl, by decide, by decide, by decide⟩,
    ⟨{ State.reset with w := .bits (bl [0, 1, 0, 0, 0, 0, 0, 1]), params := { Params.default with bufCap := some 9 } }, _, rfl, rfl, by decide, by decide⟩,
    ⟨{ State.reset with w := .bits [], params := { Params.default with bufCap := some 8 } }, _, rfl, rfl, by decide⟩, ⟨State.reset, _, rfl, by decide, rfl⟩⟩

/-- Hypotheses of ConfigurationKept. -/
theorem witness_ConfigurationKept :
    ∃ t, exec .parAdd State.reset = .next t ∧ Instr.parAdd ≠ .srst :=
  ⟨_, rfl, by decide⟩

/-- Hypotheses of StatusWriters. -/
theorem witness_StatusWriters :
    (∃ t, exec .parAdd State.reset = .next t ∧ ¬ t.Faulted) ∧ (∃ t, exec .nop { State.reset with st := { Status.reset with fault := .badKind, finfo0 := 1 } } = .next t) ∧
    Instr.parAdd ∉ [Instr.parChk, .cksChk, .crcChk, .clrs, .srst] ∧ Instr.parAdd ∉ [Instr.hamDec, .clrs, .srst] ∧
    Instr.parAdd ∉ [Instr.hamDec1, .clrs, .srst] ∧ Instr.parAdd ∉ [Instr.clrf, .srst] ∧ Instr.clrs ∈ [Instr.nop, .clrf, .clrs] :=
  ⟨⟨_, rfl, by decide⟩, ⟨_, rfl⟩, by decide, by decide, by decide, by decide, by decide⟩

/-- Hypotheses of HamEnc1Result: the least and the greatest m -/
theorem witness_HamEnc1Result :
    (∃ (s : State) (d : List Bit), s.Ready .hamEnc1 ∧ s.w = .bits d ∧ IsParityCount s.cfg.hamM.toNat 2 ∧
      d.length = s.cfg.hamM.toNat ∧ bufFits s.params (s.cfg.hamM.toNat + 2) = true) ∧
    (∃ (s : State) (d : List Bit), s.Ready .hamEnc1 ∧ s.w = .bits d ∧ IsParityCount s.cfg.hamM.toNat 8 ∧
      d.length ≠ s.cfg.hamM.toNat) :=
  ⟨⟨{ State.reset with w := .bits (bl [1]), cfg := { Cfg.reset with hamM := 1 } }, (bl [1]), by unfold IsParityCount; decide +kernel⟩,
    ⟨{ State.reset with w := .bits (bl [1]), cfg := { Cfg.reset with hamM := 247 } }, (bl [1]), by unfold IsParityCount; decide +kernel⟩⟩

/-- Hypotheses of HamDec1Result: the least and the greatest m -/
theorem witness_HamDec1Result :
    (∃ (s : State) (c : List Bit), s.Ready .hamDec1 ∧ s.w = .bits c ∧ IsParityCount s.cfg.hamM.toNat 2 ∧
      c.length = s.cfg.hamM.toNat + 2 ∧ ∀ d : List Bit, bufFits s.params d.length = true) ∧
    (∃ (s : State) (c : List Bit), s.Ready .hamDec1 ∧ s.w = .bits c ∧ IsParityCount s.cfg.hamM.toNat 8 ∧
      c.length ≠ s.cfg.hamM.toNat + 8) :=
  ⟨⟨{ State.reset with w := .bits (bl [1, 1, 0]), cfg := { Cfg.reset with hamM := 1 } }, (bl [1, 1, 0]), by decide +kernel, rfl, by unfold IsParityCount; decide +kernel, rfl, fun _ => rfl⟩,
    ⟨{ State.reset with w := .bits (bl [1]), cfg := { Cfg.reset with hamM := 247 } }, (bl [1]), by unfold IsParityCount; decide +kernel⟩⟩

/-- Hypotheses of HamEncResult. -/
theorem witness_HamEncResult :
    ∃ (s : State) (b : List Bit), s.Ready .hamEnc ∧ s.w = .bits b ∧ IsParityCount s.cfg.hamM.toNat 3 ∧
      ∀ n, bufFits s.params n = true :=
  ⟨{ State.reset with w := .bits (bl [0, 1, 0, 0, 1, 0, 0, 0, 0, 1, 1, 0, 1]), cfg := { Cfg.reset with hamM := 3 } }, (bl [0, 1, 0, 0, 1, 0, 0, 0, 0, 1, 1, 0, 1]), by decide +kernel, rfl, by unfold IsParityCount; decide +kernel, fun _ => rfl⟩

/-- Hypotheses of HamDecResult. -/
theorem witness_HamDecResult :
    ∃ (s : State) (b : List Bit), s.Ready .hamDec ∧ s.w = .bits b ∧ IsParityCount s.cfg.hamM.toNat 3 ∧
      ∀ n, bufFits s.params n = true :=
  ⟨{ State.reset with w := .bits (bl [1, 0, 1, 1, 1, 0, 0]) }, (bl [1, 0, 1, 1, 1, 0, 0]), by decide +kernel, rfl, by unfold IsParityCount; decide +kernel, fun _ => rfl⟩

/-- Hypotheses of HammingCorrectsOne: positions 1 to 7 -/
theorem witness_HammingCorrectsOne :
    ∃ (s t : State), s.Ready .hamEnc1 ∧ s.w = .bits (bl [1, 0, 1, 1]) ∧ exec .hamEnc1 s = .next t ∧ ¬ t.Faulted ∧ t.w = .bits (bl [0, 1, 1, 0, 0, 1, 1]) ∧
      1 ≤ 7 ∧ 7 ≤ ((bl [0, 1, 1, 0, 0, 1, 1])).length :=
  ⟨{ State.reset with w := .bits (bl [1, 0, 1, 1]) }, _, by decide +kernel, rfl, rfl, by decide +kernel, by decide +kernel, by decide, by decide⟩

/-- Hypotheses of HammingMiscorrectsTwo: positions 1 and 7, whose XOR is a position -/
theorem witness_HammingMiscorrectsTwo :
    ∃ (s t : State), s.Ready .hamEnc1 ∧ s.w = .bits (bl [1, 0, 1, 1]) ∧ exec .hamEnc1 s = .next t ∧ ¬ t.Faulted ∧ t.w = .bits (bl [0, 1, 1, 0, 0, 1, 1]) ∧
      1 ≤ 1 ∧ 1 < 7 ∧ 7 ≤ ((bl [0, 1, 1, 0, 0, 1, 1])).length ∧ 1 ^^^ 7 ≤ ((bl [0, 1, 1, 0, 0, 1, 1])).length :=
  ⟨{ State.reset with w := .bits (bl [1, 0, 1, 1]) }, _, by decide +kernel, rfl, rfl, by decide +kernel, by decide +kernel, by decide, by decide, by decide, by decide⟩

/-- Hypotheses of ParAddResult. -/
theorem witness_ParAddResult :
    ∃ s : State, s.Ready .parAdd ∧ s.w = .bits (bl [0, 1, 0, 0, 0, 0, 0, 1, 0, 1]) ∧ (∀ n, bufFits s.params n = true) :=
  ⟨{ State.reset with w := .bits (bl [0, 1, 0, 0, 0, 0, 0, 1, 0, 1]) }, by decide +kernel, rfl, fun _ => rfl⟩

/-- Hypotheses of ParChkResult. -/
theorem witness_ParChkResult :
    ∃ s : State, s.Ready .parChk ∧ s.w = .bits (bl [0, 1, 0, 0, 0, 0, 0, 1, 0, 1]) ∧ (∀ n, bufFits s.params n = true) :=
  ⟨{ State.reset with w := .bits (bl [0, 1, 0, 0, 0, 0, 0, 1, 0, 1]) }, by decide +kernel, rfl, fun _ => rfl⟩

/-- Hypotheses of CksAddResult. -/
theorem witness_CksAddResult :
    ∃ s : State, s.Ready .cksAdd ∧ s.w = .bits (bl [0, 1, 0, 0, 0, 0, 0, 1, 0, 1]) ∧ (∀ n, bufFits s.params n = true) :=
  ⟨{ State.reset with w := .bits (bl [0, 1, 0, 0, 0, 0, 0, 1, 0, 1]), cfg := { Cfg.reset with edcWidth := some 8 } }, by decide +kernel, rfl, fun _ => rfl⟩

/-- Hypotheses of CrcAddResult. -/
theorem witness_CrcAddResult :
    ∃ s : State, s.Ready .crcAdd ∧ s.w = .bits (bl [0, 1, 0, 0, 0, 0, 0, 1, 0, 1]) ∧ (∀ n, bufFits s.params n = true) ∧ regNat s.cfg.edcWidth = 8 ∧ s.cfg.crcPoly = .std ∧
      ∃ shift table : Nat → Nat, (∀ c, shift c = (if c / 2 ^ (8 - 1) % 2 = 1 then 2 * c ^^^ 0xD5 else 2 * c) % 2 ^ 8) ∧
      ∀ i, table i = shift (shift (shift (shift (shift (shift (shift (shift (i * 2 ^ (8 - 8))))))))) :=
  ⟨{ State.reset with w := .bits (bl [0, 1, 0, 0, 0, 0, 0, 1, 0, 1]), cfg := { Cfg.reset with edcWidth := some 8 } }, by decide +kernel, rfl, fun _ => rfl, rfl, rfl, _, _, fun _ => rfl, fun _ => rfl⟩

/-- Hypotheses of CksChkResult: 7 and 8 bits at width 8 -/
theorem witness_CksChkResult :
    (∃ s : State, s.Ready .cksChk ∧ s.w = .bits (bl [1, 0, 1, 0, 1, 0, 1]) ∧ ((bl [1, 0, 1, 0, 1, 0, 1])).length < regNat s.cfg.edcWidth) ∧
    (∃ s : State, s.Ready .cksChk ∧ s.w = .bits (bl [1, 0, 1, 0, 1, 0, 1, 0]) ∧ (bl [1, 0, 1, 0, 1, 0, 1, 0]) = [] ++ (bl [1, 0, 1, 0, 1, 0, 1, 0]) ∧
      ((bl [1, 0, 1, 0, 1, 0, 1, 0])).length = regNat s.cfg.edcWidth ∧ bufFits s.params 0 = true) :=
  ⟨⟨{ State.reset with w := .bits (bl [1, 0, 1, 0, 1, 0, 1]), cfg := { Cfg.reset with edcWidth := some 8 } }, by decide +kernel⟩, ⟨{ State.reset with w := .bits (bl [1, 0, 1, 0, 1, 0, 1, 0]), cfg := { Cfg.reset with edcWidth := some 8 } }, by decide +kernel⟩⟩

/-- Hypotheses of CrcChkResult: 7 and 8 bits at width 8 -/
theorem witness_CrcChkResult :
    (∃ s : State, s.Ready .crcChk ∧ s.w = .bits (bl [1, 0, 1, 0, 1, 0, 1]) ∧ ((bl [1, 0, 1, 0, 1, 0, 1])).length < regNat s.cfg.edcWidth) ∧
    (∃ s : State, s.Ready .crcChk ∧ s.w = .bits (bl [1, 0, 1, 0, 1, 0, 1, 0]) ∧ (bl [1, 0, 1, 0, 1, 0, 1, 0]) = [] ++ (bl [1, 0, 1, 0, 1, 0, 1, 0]) ∧
      ((bl [1, 0, 1, 0, 1, 0, 1, 0])).length = regNat s.cfg.edcWidth ∧ bufFits s.params 0 = true) ∧
    ∃ shift table : Nat → Nat, (∀ c, shift c = (if c / 2 ^ (8 - 1) % 2 = 1 then 2 * c ^^^ 0xD5 else 2 * c) % 2 ^ 8) ∧
      ∀ i, table i = shift (shift (shift (shift (shift (shift (shift (shift (i * 2 ^ (8 - 8))))))))) :=
  ⟨⟨{ State.reset with w := .bits (bl [1, 0, 1, 0, 1, 0, 1]), cfg := { Cfg.reset with edcWidth := some 8 } }, by decide +kernel⟩, ⟨{ State.reset with w := .bits (bl [1, 0, 1, 0, 1, 0, 1, 0]), cfg := { Cfg.reset with edcWidth := some 8 } }, by decide +kernel⟩, _, _, fun _ => rfl, fun _ => rfl⟩

/-- Hypotheses of EdcRoundTrip: one per pair -/
theorem witness_EdcRoundTrip :
    (∃ s t : State, s.Ready .parAdd ∧ s.w = .bits (bl [0, 1, 0, 0, 0, 0, 0, 1]) ∧ 8 ∣ ((bl [0, 1, 0, 0, 0, 0, 0, 1])).length ∧
      exec .parAdd s = .next t ∧ ¬ t.Faulted) ∧
    (∃ s t : State, s.Ready .cksAdd ∧ s.w = .bits (bl [0, 1, 0, 0, 0, 0, 0, 1]) ∧ 8 ∣ ((bl [0, 1, 0, 0, 0, 0, 0, 1])).length ∧
      exec .cksAdd s = .next t ∧ ¬ t.Faulted) ∧
    (∃ s t : State, s.Ready .crcAdd ∧ s.w = .bits (bl [0, 1, 0, 0, 0, 0, 0, 1]) ∧ 8 ∣ ((bl [0, 1, 0, 0, 0, 0, 0, 1])).length ∧
      exec .crcAdd s = .next t ∧ ¬ t.Faulted) :=
  ⟨⟨{ State.reset with w := .bits (bl [0, 1, 0, 0, 0, 0, 0, 1]), cfg := { Cfg.reset with edcWidth := some 8 } }, _, by decide +kernel, rfl, by decide, rfl, by decide +kernel⟩,
    ⟨{ State.reset with w := .bits (bl [0, 1, 0, 0, 0, 0, 0, 1]), cfg := { Cfg.reset with edcWidth := some 8 } }, _, by decide +kernel, rfl, by decide, rfl, by decide +kernel⟩,
    ⟨{ State.reset with w := .bits (bl [0, 1, 0, 0, 0, 0, 0, 1]), cfg := { Cfg.reset with edcWidth := some 8 } }, _, by decide +kernel, rfl, by decide, rfl, by decide +kernel⟩⟩

/-- Hypotheses of ParityDetectsOdd. -/
theorem witness_ParityDetectsOdd :
    ∃ (s t : State), s.Ready .parAdd ∧ s.w = .bits (bl [0, 1, 0, 0, 0, 0, 0, 1]) ∧ exec .parAdd s = .next t ∧ ¬ t.Faulted ∧ t.w = .bits (bl [0, 1, 0, 0, 0, 0, 0, 1, 0]) ∧
      ((bl [1, 0, 0, 0, 0, 0, 0, 0, 0])).length = ((bl [0, 1, 0, 0, 0, 0, 0, 1, 0])).length :=
  ⟨{ State.reset with w := .bits (bl [0, 1, 0, 0, 0, 0, 0, 1]) }, _, by decide +kernel, rfl, rfl, by decide +kernel, by decide +kernel, by decide⟩

/-- Hypotheses of CrcDetectsSingleBit: bits 0 to 15 are covered, 16 to 18 too under zeropad, 19 to 26 are the field -/
theorem witness_CrcDetectsSingleBit :
    (∃ s t : State, s.Ready .crcAdd ∧ s.w = .bits (bl [0, 1, 0, 0, 1, 0, 0, 0, 0, 1, 1, 0, 1, 0, 0, 1, 1, 0, 1]) ∧ exec .crcAdd s = .next t ∧ ¬ t.Faulted ∧
      (∃ c : List Bit, t.w = .bits c ∧ c.length = 27) ∧ 15 < 8 * (((bl [0, 1, 0, 0, 1, 0, 0, 0, 0, 1, 1, 0, 1, 0, 0, 1, 1, 0, 1])).length / 8) ∧ ((bl [0, 1, 0, 0, 1, 0, 0, 0, 0, 1, 1, 0, 1, 0, 0, 1, 1, 0, 1])).length ≤ 19) ∧
    (∃ s t : State, s.Ready .crcAdd ∧ s.w = .bits (bl [0, 1, 0, 0, 1, 0, 0, 0, 0, 1, 1, 0, 1, 0, 0, 1, 1, 0, 1]) ∧ exec .crcAdd s = .next t ∧ ¬ t.Faulted ∧
      (∃ c : List Bit, t.w = .bits c ∧ c.length = 27) ∧ s.params.edcTail = .zeropad ∧ 18 < ((bl [0, 1, 0, 0, 1, 0, 0, 0, 0, 1, 1, 0, 1, 0, 0, 1, 1, 0, 1])).length) :=
  ⟨⟨{ State.reset with w := .bits (bl [0, 1, 0, 0, 1, 0, 0, 0, 0, 1, 1, 0, 1, 0, 0, 1, 1, 0, 1]), cfg := { Cfg.reset with edcWidth := some 8 } }, _, by decide +kernel, rfl, rfl, by decide +kernel, ⟨_, rfl, by decide +kernel⟩, by decide, by decide⟩,
    ⟨{ State.reset with w := .bits (bl [0, 1, 0, 0, 1, 0, 0, 0, 0, 1, 1, 0, 1, 0, 0, 1, 1, 0, 1]), cfg := { Cfg.reset with edcWidth := some 8 }, params := { Params.default with edcTail := .zeropad } }, _, by decide +kernel, rfl, rfl, by decide +kernel, ⟨_, rfl, by decide +kernel⟩, rfl, by decide⟩⟩

/-- Hypotheses of BcfFrmResult: 512 and 513 bits at MAX_FRAME_BYTES 64 -/
theorem witness_BcfFrmResult :
    (∃ (s : State) (b : List Bit), s.Ready .bcfFrm ∧ s.w = .bits b ∧ b.length = 8 * regNat s.cfg.maxFrameBytes ∧
      ∀ n, bufFits s.params n = true) ∧
    (∃ (s : State) (b : List Bit), s.Ready .bcfFrm ∧ s.w = .bits b ∧ 8 * regNat s.cfg.maxFrameBytes < b.length) :=
  ⟨⟨{ State.reset with w := .bits (List.replicate 512 true), cfg := { Cfg.reset with maxFrameBytes := some 64 } }, _, by decide +kernel, rfl, by decide +kernel, fun _ => rfl⟩,
    ⟨{ State.reset with w := .bits (List.replicate 513 true), cfg := { Cfg.reset with maxFrameBytes := some 64 } }, _, by decide +kernel, rfl, by decide +kernel⟩⟩

/-- Hypotheses of BsfFrmResult: 512 and 513 bits at MAX_FRAME_BYTES 64 -/
theorem witness_BsfFrmResult :
    (∃ (s : State) (b : List Bit), s.Ready .bsfFrm ∧ s.w = .bits b ∧ b.length = 8 * regNat s.cfg.maxFrameBytes ∧
      ∀ n, bufFits s.params n = true) ∧
    (∃ (s : State) (b : List Bit), s.Ready .bsfFrm ∧ s.w = .bits b ∧ 8 * regNat s.cfg.maxFrameBytes < b.length) :=
  ⟨⟨{ State.reset with w := .bits (List.replicate 512 true), cfg := { Cfg.reset with maxFrameBytes := some 64 } }, _, by decide +kernel, rfl, by decide +kernel, fun _ => rfl⟩,
    ⟨{ State.reset with w := .bits (List.replicate 513 true), cfg := { Cfg.reset with maxFrameBytes := some 64 } }, _, by decide +kernel, rfl, by decide +kernel⟩⟩

/-- Hypotheses of YsfFrmResult: 512 and 513 bits at MAX_FRAME_BYTES 64 -/
theorem witness_YsfFrmResult :
    (∃ (s : State) (b : List Bit), s.Ready .ysfFrm ∧ s.w = .bits b ∧ b.length = 8 * regNat s.cfg.maxFrameBytes ∧
      ∀ n, bufFits s.params n = true) ∧
    (∃ (s : State) (b : List Bit), s.Ready .ysfFrm ∧ s.w = .bits b ∧ 8 * regNat s.cfg.maxFrameBytes < b.length) :=
  ⟨⟨{ State.reset with w := .bits (List.replicate 512 true), cfg := { Cfg.reset with maxFrameBytes := some 64 } }, _, by decide +kernel, rfl, by decide +kernel, fun _ => rfl⟩,
    ⟨{ State.reset with w := .bits (List.replicate 513 true), cfg := { Cfg.reset with maxFrameBytes := some 64 } }, _, by decide +kernel, rfl, by decide +kernel⟩⟩

/-- Hypotheses of UnframeResults: 17 bits, one more than both bounds -/
theorem witness_UnframeResults :
    (∃ s : State, ¬ s.Faulted ∧ s.w = .bits (bl [0, 0, 0, 0, 0, 0, 0, 0, 0, 0, 0, 0, 0, 0, 0, 1, 1]) ∧ ∀ n, bufFits s.params n = true) ∧
    ∃ scan : List Bit → List Bit, ∀ r, scan r = if r.length < 8 then r
      else if r.take 8 = [false, true, true, true, true, true, false, true] then
        (if r.length < 16 then [] else List.zipWith (· ^^ ·) ((r.drop 8).take 8)
          [false, false, true, false, false, false, false, false] ++ scan (r.drop 16))
      else r.take 8 ++ scan (r.drop 8) :=
  ⟨⟨{ State.reset with w := .bits (bl [0, 0, 0, 0, 0, 0, 0, 0, 0, 0, 0, 0, 0, 0, 0, 1, 1]) }, by decide, rfl, fun _ => rfl⟩, unescape, unescape_eq⟩

/-- Hypotheses of BcfRoundTrip. -/
theorem witness_BcfRoundTrip :
    ∃ (s t : State), s.Ready .bcfFrm ∧ s.w = .bits (bl [1, 1, 1, 1, 1, 1]) ∧ exec .bcfFrm s = .next t ∧ ¬ t.Faulted :=
  ⟨{ State.reset with w := .bits (bl [1, 1, 1, 1, 1, 1]), cfg := { Cfg.reset with maxFrameBytes := some 64 } }, _, by decide +kernel, rfl, rfl, by decide +kernel⟩

/-- Hypotheses of BsfRoundTrip. -/
theorem witness_BsfRoundTrip :
    ∃ (s t : State), s.Ready .bsfFrm ∧ s.w = .bits (bl [1, 1, 1, 1, 1, 1]) ∧ exec .bsfFrm s = .next t ∧ ¬ t.Faulted ∧ ∃ f, t.w = .bits f :=
  ⟨{ State.reset with w := .bits (bl [1, 1, 1, 1, 1, 1]), cfg := { Cfg.reset with maxFrameBytes := some 64 } }, _, by decide +kernel, rfl, rfl, by decide +kernel, ⟨_, rfl⟩⟩

/-- Hypotheses of YsfRoundTrip. -/
theorem witness_YsfRoundTrip :
    ∃ (s t : State), s.Ready .ysfFrm ∧ s.w = .bits (bl [0, 1, 1, 1, 1, 1, 1, 0, 1, 0, 1]) ∧ exec .ysfFrm s = .next t ∧ ¬ t.Faulted ∧ ∃ f, t.w = .bits f :=
  ⟨{ State.reset with w := .bits (bl [0, 1, 1, 1, 1, 1, 1, 0, 1, 0, 1]), cfg := { Cfg.reset with maxFrameBytes := some 64 } }, _, by decide +kernel, rfl, rfl, by decide +kernel, ⟨_, rfl⟩⟩

/-- Hypotheses of NrzModResult. -/
theorem witness_NrzModResult :
    ∃ s : State, s.Ready .nrzMod ∧ s.w = .bits (bl [1, 0, 1]) ∧ (∀ n, bufFits s.params n = true) ∧
      ∃ ρ, s.params.arith.IsReal ρ :=
  ⟨{ State.reset with w := .bits (bl [1, 0, 1]), cfg := { Cfg.reset with samplingRate := some 1000, bitRate := some 500 } }, by decide +kernel, rfl, fun _ => rfl, _, default_isReal⟩

/-- Hypotheses of ManModResult. -/
theorem witness_ManModResult :
    ∃ s : State, s.Ready .manMod ∧ s.w = .bits (bl [1, 0, 1]) ∧ (∀ n, bufFits s.params n = true) ∧
      ∃ ρ, s.params.arith.IsReal ρ :=
  ⟨{ State.reset with w := .bits (bl [1, 0, 1]), cfg := { Cfg.reset with samplingRate := some 1000, bitRate := some 500 } }, by decide +kernel, rfl, fun _ => rfl, _, default_isReal⟩

/-- Hypotheses of AmiModResult. -/
theorem witness_AmiModResult :
    ∃ s : State, s.Ready .amiMod ∧ s.w = .bits (bl [1, 0, 1]) ∧ (∀ n, bufFits s.params n = true) ∧
      ∃ ρ, s.params.arith.IsReal ρ :=
  ⟨{ State.reset with w := .bits (bl [1, 0, 1]), cfg := { Cfg.reset with samplingRate := some 1000, bitRate := some 500 } }, by decide +kernel, rfl, fun _ => rfl, _, default_isReal⟩

/-- Hypotheses of AskModResult. -/
theorem witness_AskModResult :
    ∃ s : State, s.Ready .askMod ∧ s.w = .bits (bl [1, 0, 1]) ∧ (∀ n, bufFits s.params n = true) ∧
      ∃ ρ, s.params.arith.IsReal ρ :=
  ⟨{ State.reset with w := .bits (bl [1, 0, 1]), cfg := { Cfg.reset with samplingRate := some 1000, bitRate := some 125, carrierFreq := some 125 } }, by decide +kernel, rfl, fun _ => rfl, _, default_isReal⟩

/-- Hypotheses of FskModResult. -/
theorem witness_FskModResult :
    ∃ s : State, s.Ready .fskMod ∧ s.w = .bits (bl [1, 0, 1]) ∧ (∀ n, bufFits s.params n = true) ∧
      ∃ ρ, s.params.arith.IsReal ρ :=
  ⟨{ State.reset with w := .bits (bl [1, 0, 1]), cfg := { Cfg.reset with samplingRate := some 1000, bitRate := some 125, carrierFreq := some 125 } }, by decide +kernel, rfl, fun _ => rfl, _, default_isReal⟩

/-- Hypotheses of QpskModResult. -/
theorem witness_QpskModResult :
    ∃ s : State, s.Ready .qpskMod ∧ s.w = .bits (bl [1, 0, 1]) ∧ (∀ n, bufFits s.params n = true) ∧
      ∃ ρ, s.params.arith.IsReal ρ :=
  ⟨{ State.reset with w := .bits (bl [1, 0, 1]), cfg := { Cfg.reset with samplingRate := some 1000, bitRate := some 125, carrierFreq := some 125 } }, by decide +kernel, rfl, fun _ => rfl, _, default_isReal⟩

/-- Hypotheses of QamModResult. -/
theorem witness_QamModResult :
    ∃ s : State, s.Ready .qamMod ∧ s.w = .bits (bl [1, 0, 1]) ∧ (∀ n, bufFits s.params n = true) ∧
      ∃ ρ, s.params.arith.IsReal ρ :=
  ⟨{ State.reset with w := .bits (bl [1, 0, 1]), cfg := { Cfg.reset with samplingRate := some 1000, bitRate := some 125, carrierFreq := some 125 } }, by decide +kernel, rfl, fun _ => rfl, _, default_isReal⟩

/-- Hypotheses of NrzDemResult. -/
theorem witness_NrzDemResult :
    ∃ s : State, s.Ready .nrzDem ∧ s.w = .samples (sl [1, -1, 2]) ∧ (∀ n, bufFits s.params n = true) ∧
      ∃ ρ, s.params.arith.IsReal ρ :=
  ⟨{ State.reset with w := .samples (sl [1, -1, 2]), cfg := { Cfg.reset with samplingRate := some 1000, bitRate := some 500 } }, by decide +kernel, rfl, fun _ => rfl, _, default_isReal⟩

/-- Hypotheses of ManDemResult. -/
theorem witness_ManDemResult :
    ∃ s : State, s.Ready .manDem ∧ s.w = .samples (sl [1, -1, 2]) ∧ (∀ n, bufFits s.params n = true) ∧
      ∃ ρ, s.params.arith.IsReal ρ :=
  ⟨{ State.reset with w := .samples (sl [1, -1, 2]), cfg := { Cfg.reset with samplingRate := some 1000, bitRate := some 500 } }, by decide +kernel, rfl, fun _ => rfl, _, default_isReal⟩

/-- Hypotheses of AmiDemResult. -/
theorem witness_AmiDemResult :
    ∃ s : State, s.Ready .amiDem ∧ s.w = .samples (sl [1, -1, 2]) ∧ (∀ n, bufFits s.params n = true) ∧
      ∃ ρ, s.params.arith.IsReal ρ :=
  ⟨{ State.reset with w := .samples (sl [1, -1, 2]), cfg := { Cfg.reset with samplingRate := some 1000, bitRate := some 500 } }, by decide +kernel, rfl, fun _ => rfl, _, default_isReal⟩

/-- Hypotheses of AskDemResult. -/
theorem witness_AskDemResult :
    ∃ s : State, s.Ready .askDem ∧ s.w = .samples (sl [1, -1, 2]) ∧ (∀ n, bufFits s.params n = true) ∧
      ∃ ρ, s.params.arith.IsReal ρ :=
  ⟨{ State.reset with w := .samples (sl [1, -1, 2]), cfg := { Cfg.reset with samplingRate := some 1000, bitRate := some 125, carrierFreq := some 125 } }, by decide +kernel, rfl, fun _ => rfl, _, default_isReal⟩

/-- Hypotheses of FskDemResult. -/
theorem witness_FskDemResult :
    ∃ s : State, s.Ready .fskDem ∧ s.w = .samples (sl [1, -1, 2]) ∧ (∀ n, bufFits s.params n = true) ∧
      ∃ ρ, s.params.arith.IsReal ρ :=
  ⟨{ State.reset with w := .samples (sl [1, -1, 2]), cfg := { Cfg.reset with samplingRate := some 1000, bitRate := some 125, carrierFreq := some 125 } }, by decide +kernel, rfl, fun _ => rfl, _, default_isReal⟩

/-- Hypotheses of QpskDemResult. -/
theorem witness_QpskDemResult :
    ∃ s : State, s.Ready .qpskDem ∧ s.w = .samples (sl [1, -1, 2]) ∧ (∀ n, bufFits s.params n = true) ∧
      ∃ ρ, s.params.arith.IsReal ρ :=
  ⟨{ State.reset with w := .samples (sl [1, -1, 2]), cfg := { Cfg.reset with samplingRate := some 1000, bitRate := some 125, carrierFreq := some 125 } }, by decide +kernel, rfl, fun _ => rfl, _, default_isReal⟩

/-- Hypotheses of QamDemResult. -/
theorem witness_QamDemResult :
    ∃ s : State, s.Ready .qamDem ∧ s.w = .samples (sl [1, -1, 2]) ∧ ¬ s.ZeroEnergy ∧ (∀ n, bufFits s.params n = true) ∧
      ∃ ρ, s.params.arith.IsReal ρ ∧ 0 < ρ s.params.qamScale :=
  ⟨qamState (.samples (sl [1, -1, 2])), by decide +kernel, rfl, qamState_not_zeroEnergy _, fun _ => rfl, _, default_isReal,
    by simp [qamState, State.reset, Params.default, Sample.toReal, Sample.termsReal]⟩

/-- Hypotheses of BasebandRoundTrip: one per modulator -/
theorem witness_BasebandRoundTrip :
    (∃ (s t : State) (ρ : Sample → ℝ), s.params.arith.IsReal ρ ∧ s.Ready .nrzMod ∧ s.w = .bits (bl [1, 0]) ∧
      exec .nrzMod s = .next t ∧ ¬ t.Faulted) ∧
    (∃ (s t : State) (ρ : Sample → ℝ), s.params.arith.IsReal ρ ∧ s.Ready .manMod ∧ s.w = .bits (bl [1, 0]) ∧
      exec .manMod s = .next t ∧ ¬ t.Faulted) ∧
    (∃ (s t : State) (ρ : Sample → ℝ), s.params.arith.IsReal ρ ∧ s.Ready .amiMod ∧ s.w = .bits (bl [1, 0]) ∧
      exec .amiMod s = .next t ∧ ¬ t.Faulted) :=
  ⟨completes_of (s := { State.reset with w := .bits (bl [1, 0]), cfg := { Cfg.reset with samplingRate := some 1000, bitRate := some 500 } }) (by decide +kernel) rfl rfl (a := 0) (c := 0) (by decide +kernel),
    completes_of (s := { State.reset with w := .bits (bl [1, 0]), cfg := { Cfg.reset with samplingRate := some 1000, bitRate := some 500 } }) (by decide +kernel) rfl rfl (a := 0) (c := 0) (by decide +kernel),
    completes_of (s := { State.reset with w := .bits (bl [1, 0]), cfg := { Cfg.reset with samplingRate := some 1000, bitRate := some 500 } }) (by decide +kernel) rfl rfl (a := 0) (c := 0) (by decide +kernel)⟩

/-- Hypotheses of HostWrites: one per clause -/
theorem witness_HostWrites :
    (∃ s : State, s.program = [.loadw (.bits [true])] ∧ bufFits s.params 1 = true) ∧
    (∃ s : State, s.program = [.loadw (.bits [true])] ∧ bufFits s.params 1 = false) ∧
    (∃ s : State, s.program = [.wrreg 0x00 255] ∧ (255 : Word32).toNat < 256) ∧
    (∃ s : State, s.program = [.wrreg 0x00 256] ∧ 256 ≤ (256 : Word32).toNat) ∧
    (∃ s : State, s.program = [.chan .zero] ∧ s.w = .bits []) ∧
    (∃ s : State, s.program = [.chan (.seq [])] ∧ s.w = .samples (sl [2]) ∧ ([] : List Sample).length ≠ (sl [2]).length) ∧
    (∃ s : State, s.program = [.wrreg 0x16 0]) ∧ (0x16 : Byte) ≠ 0x00 ∧
    (∃ s : State, s.program = [.wrreg 0xFF 7]) ∧ (0xFF : Byte) ≠ 0x00 ∧
    (∃ s : State, s.program = [.wrAmplitude Sample.zero]) ∧
    (∃ s : State, s.program = [.chan (.seq (sl [1]))] ∧ s.w = .samples (sl [2]) ∧ (sl [1]).length = (sl [2]).length) ∧
    (∃ s : State, s.program = [.chan .zero] ∧ s.w = .samples []) :=
  ⟨⟨{ State.reset with program := [.loadw (.bits [true])] }, rfl, rfl⟩,
    ⟨{ State.reset with program := [.loadw (.bits [true])], params := { Params.default with bufCap := some 0 } }, rfl, rfl⟩,
    ⟨{ State.reset with program := [.wrreg 0x00 255] }, rfl, by decide⟩, ⟨{ State.reset with program := [.wrreg 0x00 256] }, rfl, by decide⟩,
    ⟨{ State.reset with program := [.chan .zero] }, rfl, rfl⟩, ⟨{ State.reset with program := [.chan (.seq [])], w := .samples (sl [2]) }, rfl, rfl, by decide⟩, ⟨{ State.reset with program := [.wrreg 0x16 0] }, rfl⟩, by decide, ⟨{ State.reset with program := [.wrreg 0xFF 7] }, rfl⟩, by decide,
    ⟨{ State.reset with program := [.wrAmplitude Sample.zero] }, rfl⟩, ⟨{ State.reset with program := [.chan (.seq (sl [1]))], w := .samples (sl [2]) }, rfl, rfl, rfl⟩,
    ⟨{ State.reset with program := [.chan .zero], w := .samples [] }, rfl, rfl⟩⟩

/-- Hypotheses of HostReads: one per clause -/
theorem witness_HostReads :
    (∃ s : State, s.program = [.readw]) ∧ (∃ s : State, s.program = [.rdreg 0x01]) :=
  ⟨⟨{ State.reset with program := [.readw] }, rfl⟩, ⟨{ State.reset with program := [.rdreg 0x01] }, rfl⟩⟩

/-- Hypotheses of StepKeepsInvariant. -/
theorem witness_StepKeepsInvariant :
    ∃ s t : State, s.Inv ∧ step s = .next t :=
  ⟨State.reset, _, ⟨by decide, by decide, ⟨rfl, rfl⟩⟩, rfl⟩

end Sys2Proof.Tests
end

section
/-!
SUPPORT. The configuration check comes before everything else a command that reads W does, and finds the field of lowest
register number (spec 10_state.md R48, R49).
-/

namespace Sys2Proof.Machine

/-- The fields a command reads are listed in increasing register number (R48). -/
theorem fieldsRead_sorted (i : Instr) : (fieldsRead i).Pairwise fun f g => f.number < g.number := by
  cases i <;> decide

/-- In a list sorted by register number, `find?` answers the field of lowest number that has the property. -/
theorem find?_eq_some_of_lowest {l : List CfgField} {p : CfgField → Bool} {f : CfgField}
    (hl : l.Pairwise fun g h => g.number < h.number) (hf : f ∈ l) (hp : p f = true)
    (hlow : ∀ g ∈ l, g.number < f.number → p g = false) : l.find? p = some f := by
  obtain ⟨before, after, rfl⟩ := List.append_of_mem hf
  refine List.find?_eq_some_iff_append.2 ⟨hp, before, after, rfl, fun g hg => ?_⟩
  have hlt : g.number < f.number := (List.pairwise_append.1 hl).2.2 g hg f (by simp)
  simp [hlow g (by simp [hg]) hlt]

theorem configCheck_of_unset {i : Instr} {s : State} {f : CfgField} (hf : f ∈ fieldsRead i)
    (hu : s.cfg.isUnset f = true) (hlow : ∀ g ∈ fieldsRead i, g.number < f.number → s.cfg.isUnset g = false) :
    configCheck i s = .error ⟨.cfgUnset, f.number, 0⟩ := by
  simp [configCheck, find?_eq_some_of_lowest (p := fun f => s.cfg.isUnset f) (fieldsRead_sorted i) hf hu hlow]

theorem configCheck_of_illegal {i : Instr} {s : State} {f : CfgField} (hf : f ∈ fieldsRead i)
    (hset : ∀ g ∈ fieldsRead i, s.cfg.isUnset g = false) (hl : s.cfg.isLegal s.params.arith i f = false)
    (hlow : ∀ g ∈ fieldsRead i, g.number < f.number → s.cfg.isLegal s.params.arith i g = true) :
    configCheck i s = .error ⟨.cfgInvalid, f.number, 0⟩ := by
  have hnone : (fieldsRead i).find? (fun g => s.cfg.isUnset g) = none := by
    simpa [List.find?_eq_none] using hset
  have hsome : (fieldsRead i).find? (fun g => !s.cfg.isLegal s.params.arith i g) = some f :=
    find?_eq_some_of_lowest (fieldsRead_sorted i) hf (by simp [hl]) fun g hg hlt => by simp [hlow g hg hlt]
  simp [configCheck, hnone, hsome]

/-- A command that reads W runs the configuration check before anything else. -/
theorem exec_eq_configCheck_bind {i : Instr} (hi : kindNeeded i ≠ none) (s : State) :
    ∃ body : CmdResult State, exec i s = runCommand s (configCheck i s >>= fun _ => body) := by
  cases i
  case nop | clrf | clrs | srst => exact absurd rfl hi
  all_goals exact ⟨_, rfl⟩

/-- Only a command that reads W reads a configuration field (R48). -/
theorem kindNeeded_ne_none_of_mem_fieldsRead {i : Instr} {f : CfgField} (hf : f ∈ fieldsRead i) :
    kindNeeded i ≠ none := by
  cases i
  case nop | clrf | clrs | srst => exact absurd hf List.not_mem_nil
  all_goals exact Option.some_ne_none _

/-- With no fault pending, a fault of the configuration check is what the command raises, whatever W holds. -/
theorem exec_of_configCheck_error {i : Instr} {s : State} {e : CmdFault} (hi : kindNeeded i ≠ none)
    (h : s.st.fault = .none) (hc : configCheck i s = .error e) : exec i s = .next (s.raise e) := by
  obtain ⟨body, hbody⟩ := exec_eq_configCheck_bind hi s
  rw [hbody, hc, error_bind, runCommand_error h]

/-- Which fields can hold `unset`, and when they do (R37). -/
theorem isUnset_iff_eq_none (c : Cfg) :
    (c.isUnset .samplingRate = true ↔ c.samplingRate = none) ∧
    (c.isUnset .bitRate = true ↔ c.bitRate = none) ∧ (c.isUnset .carrierFreq = true ↔ c.carrierFreq = none) ∧
    c.isUnset .amplitude = false ∧ (c.isUnset .maxFrameBytes = true ↔ c.maxFrameBytes = none) ∧
    (c.isUnset .edcWidth = true ↔ c.edcWidth = none) ∧ c.isUnset .crcPoly = false ∧ c.isUnset .hamM = false := by
  simp [Cfg.isUnset]

end Sys2Proof.Machine

namespace Sys2Proof.Proofs

open Sys2Proof.Machine

/-- Settles O12: the check comes before everything else a command does, and its searches run in register order. -/
theorem configCheck : Obligations.ConfigCheck := by
  unfold Obligations.ConfigCheck
  refine ⟨by decide, by decide, isUnset_iff_eq_none, fun i s f hs hf => ?_⟩
  have hi := kindNeeded_ne_none_of_mem_fieldsRead hf
  have hs : s.st.fault = .none := not_not.1 hs
  exact ⟨fun hu hlow => exec_of_configCheck_error hi hs (configCheck_of_unset hf hu hlow),
    fun hset hl hlow => exec_of_configCheck_error hi hs (configCheck_of_illegal hf hset hl hlow)⟩

end Sys2Proof.Proofs
end

section
/-!
SUPPORT. What the capacity of W changes in what a command does: only the buffer write at the end of its body depends on it
(spec 10_state.md R33).
-/

namespace Sys2Proof.Machine

/-- The state with other parameters. -/
def State.withParams (s : State) (p : Params) : State := { s with params := p }

/-- The state with no bound on W's length. -/
def State.unbounded (s : State) : State := s.withParams { s.params with bufCap := none }

@[simp] theorem State.withParams_w (s : State) (p : Params) : (s.withParams p).w = s.w := rfl

@[simp] theorem State.withParams_st (s : State) (p : Params) : (s.withParams p).st = s.st := rfl

@[simp] theorem State.unbounded_st (s : State) : s.unbounded.st = s.st := rfl

/-- Giving the bound back restores the state. -/
@[simp] theorem State.unbounded_withParams (s : State) : s.unbounded.withParams s.params = s := rfl

/-- Fault entry does not touch the parameters, so it is the same under the bound. -/
@[simp] theorem State.raise_unbounded_withParams (s : State) (f : CmdFault) :
    (s.unbounded.raise f).withParams s.params = s.raise f := rfl

theorem State.CanRaise.code_ne_none {s : State} {f : CmdFault} (h : s.CanRaise f) : f.code ≠ .none := by
  rcases h with ⟨h, _⟩ | ⟨h, _⟩ | ⟨h, _⟩ | ⟨h, _⟩ | ⟨h, _⟩ | ⟨h, _⟩ <;> simp [h]

theorem State.CanRaise.code_ne_overflow {s : State} {f : CmdFault} (h : s.CanRaise f) (hc : s.params.bufCap = none) :
    f.code ≠ .overflow := by
  rcases h with ⟨h, _⟩ | ⟨h, _⟩ | ⟨h, _⟩ | ⟨h, _⟩ | ⟨h, _⟩ | ⟨_, hcap⟩
  case inr.inr.inr.inr.inr => simp [hc] at hcap
  all_goals simp [h]

theorem sat_readAmplitude (s : State) : s.Sat (fun a => a = s.cfg.amplitude) (readAmplitude s) := rfl

theorem sat_readHamM (s : State) : s.Sat (fun m => m = s.cfg.hamM.toNat) (readHamM s) := rfl

/-- What R33 says of a body's answer `x` in `s` under the capacity `cap`, given its answer without a bound: the same
fault; or F_OVERFLOW where W would be over the capacity; or the same completion. -/
def State.Bounded (s : State) (cap : Nat) (x : CmdResult State) : CmdResult State → Prop
  | .error f => f.code ≠ .none ∧ x = .error f
  | .ok t => t.st.fault = .none ∧
      x = if cap < t.w.length then .error ⟨.overflow, t.w.length, cap⟩ else .ok (t.withParams s.params)

section
variable {s : State} {cap : Nat}

/-- A part of the body that answers the same with and without the bound goes before the rest. -/
theorem State.Bounded.bind {α : Type} {P : α → Prop} {x : CmdResult α} {f g : α → CmdResult State}
    (hx : s.Sat P x) (hfg : ∀ a, P a → s.Bounded cap (f a) (g a)) : s.Bounded cap (x >>= f) (x >>= g) := by
  cases x with
  | ok a => exact hfg a hx
  | error e => exact ⟨hx.code_ne_none, rfl⟩

/-- A condition that does not depend on the bound, with its fault, goes before the rest. -/
theorem State.Bounded.guard {x y : CmdResult State} {c : Prop} [Decidable c] {f : CmdFault} (hf : f.code ≠ .none)
    (hxy : s.Bounded cap x y) : s.Bounded cap (if c then .error f else x) (if c then .error f else y) := by
  split
  · exact ⟨hf, rfl⟩
  · exact hxy

theorem bounded_bufWrite (h : s.st.fault = .none) (hc : s.params.bufCap = some cap) (v : Buffer) :
    s.Bounded cap (bufWrite s v) (bufWrite s.unbounded v) := by
  refine ⟨h, ?_⟩
  by_cases hv : cap < v.length
  · simp [bufWrite_of_over hc hv, hv]
  · have hfits : bufFits s.params v.length = true := by simp [bufFits, hc, Nat.not_lt.1 hv]
    rw [bufWrite_of_fits hfits, if_neg hv]
    rfl

/-- A last write that leaves W, FAULT and the parameters (ERR, CORR or SYND) keeps the bound's effect. -/
theorem State.Bounded.andThen {x y : CmdResult State} {u : State → State} (hxy : s.Bounded cap x y)
    (hu : ∀ t, (u t).w = t.w ∧ (u t).st.fault = t.st.fault ∧
      u (t.withParams s.params) = (u t).withParams s.params) :
    s.Bounded cap (x >>= fun t => .ok (u t)) (y >>= fun t => .ok (u t)) := by
  cases y with
  | error f =>
    obtain ⟨hcode, rfl⟩ := hxy
    exact ⟨hcode, rfl⟩
  | ok t =>
    obtain ⟨hfault, rfl⟩ := hxy
    obtain ⟨hw, hf, hp⟩ := hu t
    refine ⟨hf.trans hfault, ?_⟩
    rw [hw, ← hp]
    split <;> rfl

/-- The bound's effect on a gated command, from its effect on the body. -/
theorem runCommand_of_bounded {x y : CmdResult State} (h : s.st.fault = .none) (hxy : s.Bounded cap x y) {t : State}
    (ht : runCommand s.unbounded y = .next t) :
    runCommand s x = if ¬ t.Faulted ∧ cap < t.w.length then .next (s.raise ⟨.overflow, t.w.length, cap⟩)
      else .next (t.withParams s.params) := by
  cases y with
  | error f =>
    obtain ⟨hcode, rfl⟩ := hxy
    obtain rfl : s.unbounded.raise f = t := by simpa [h] using ht
    simp [h, hcode]
  | ok r =>
    obtain ⟨hfault, rfl⟩ := hxy
    obtain rfl : r = t := by simpa [h] using ht
    by_cases hv : cap < r.w.length <;> simp [h, hfault, hv]

end

/-- The bodies that a command which reads W runs with and without the bound are related by it: only the buffer write at
their end depends on the capacity. -/
theorem exec_bounded {i : Instr} {s : State} {cap : Nat} (hi : kindNeeded i ≠ none) (h : s.st.fault = .none)
    (hc : s.params.bufCap = some cap) :
    ∃ x y, exec i s = runCommand s x ∧ exec i s.unbounded = runCommand s.unbounded y ∧ s.Bounded cap x y := by
  have hw (v : Buffer) := bounded_bufWrite h hc v
  cases i
  case nop | clrf | clrs | srst => exact absurd rfl hi
  all_goals refine ⟨_, _, rfl, rfl, .bind (sat_configCheck _ s) fun _ hcfg => ?_⟩
  case parAdd | bcfUnf | bsfUnf | ysfUnf =>
    exact .bind (sat_needBits s) fun _ _ => hw _
  case parChk =>
    exact .bind (sat_needBits s) fun _ _ => (hw _).andThen fun _ => ⟨rfl, rfl, rfl⟩
  case hamEnc =>
    exact .bind (sat_needBits s) fun _ _ => .bind (sat_readHamM s) fun _ _ => hw _
  case hamDec =>
    exact .bind (sat_needBits s) fun _ _ => .bind (sat_readHamM s) fun _ _ =>
      (hw _).andThen fun _ => ⟨rfl, rfl, rfl⟩
  case hamEnc1 =>
    exact .bind (sat_needBits s) fun _ _ => .bind (sat_readHamM s) fun _ _ => .guard nofun (hw _)
  case hamDec1 =>
    exact .bind (sat_needBits s) fun _ _ => .bind (sat_readHamM s) fun _ _ =>
      .guard nofun ((hw _).andThen fun _ => ⟨rfl, rfl, rfl⟩)
  case cksAdd | crcAdd =>
    exact .bind (sat_needBits s) fun _ _ => .bind (sat_cfgRead rfl) fun _ _ => hw _
  case cksChk | crcChk =>
    exact .bind (sat_needBits s) fun _ _ => .bind (sat_cfgRead rfl) fun _ _ =>
      (hw _).andThen fun _ => ⟨rfl, rfl, rfl⟩
  case bcfFrm | bsfFrm | ysfFrm =>
    refine .bind (sat_needBits s) fun b _ => .bind (sat_cfgRead rfl) fun m hm => ?_
    subst hm
    exact .bind (sat_checkFrameSize s b (hcfg .maxFrameBytes (by decide)).2) fun _ _ => hw _
  case nrzMod | manMod | amiMod =>
    exact .bind (sat_needBits s) fun _ _ => .bind (sat_readSpb s) fun _ _ =>
      .bind (sat_readAmplitude s) fun _ _ => hw _
  case nrzDem | manDem =>
    exact .bind (sat_needSamples s) fun _ _ => .bind (sat_readSpb s) fun _ _ => hw _
  case amiDem | askDem =>
    exact .bind (sat_needSamples s) fun _ _ => .bind (sat_readSpb s) fun _ _ =>
      .bind (sat_readAmplitude s) fun _ _ => hw _
  case askMod | fskMod | qpskMod | qamMod =>
    exact .bind (sat_needBits s) fun _ _ => .bind (sat_cfgRead rfl) fun _ _ => .bind (sat_readSpb s) fun _ _ =>
      .bind (sat_cfgRead rfl) fun _ _ => .bind (sat_readAmplitude s) fun _ _ => hw _
  case fskDem | qpskDem =>
    exact .bind (sat_needSamples s) fun _ _ => .bind (sat_cfgRead rfl) fun _ _ => .bind (sat_readSpb s) fun _ _ =>
      .bind (sat_cfgRead rfl) fun _ _ => hw _
  case qamDem =>
    exact .bind (sat_cfgRead rfl) fun _ _ => .bind (sat_readSpb s) fun _ _ => .bind (sat_cfgRead rfl) fun _ _ =>
      .bind (sat_readAmplitude s) fun _ _ => .bind (sat_energyCheck s _ _ _ _) fun _ _ =>
      .bind (sat_needSamples s) fun _ _ => hw _

/-- The system commands are the ones that do not read W. -/
theorem kindNeeded_eq_none_iff (i : Instr) : kindNeeded i = none ↔ i ∈ [Instr.nop, .clrf, .clrs, .srst] := by
  cases i <;> decide

/-- A gated body that cannot fault completes the same under the bound. -/
theorem runCommand_ok_of_unbounded {s t r : State} (ht : runCommand s.unbounded (.ok r) = .next t) :
    runCommand s (.ok (r.withParams s.params)) = .next (t.withParams s.params) := by
  by_cases h : s.st.fault = .none
  · cases (runCommand_ok (s := s.unbounded) h r).symm.trans ht
    exact runCommand_ok h _
  · cases (runCommand_of_fault (s := s.unbounded) h (.ok r)).symm.trans ht
    exact runCommand_of_fault h _

/-- A system command does the same under the bound. -/
theorem exec_system_of_unbounded {i : Instr} {s t : State} (hi : kindNeeded i = none)
    (ht : exec i s.unbounded = .next t) : exec i s = .next (t.withParams s.params) := by
  cases i
  case clrf | srst =>
    cases ht
    rfl
  case nop => exact runCommand_ok_of_unbounded (r := s.unbounded) ht
  case clrs => exact runCommand_ok_of_unbounded (r := s.unbounded.clearStats) ht
  all_goals exact absurd hi (Option.some_ne_none _)

/-- A system command raises no fault (45_system.md R350 to R353). -/
theorem exec_system_fault {i : Instr} {s t : State} (hi : kindNeeded i = none) (h : s.st.fault = .none)
    (ht : exec i s = .next t) : t.st.fault = .none := by
  cases i
  case clrf | srst =>
    cases ht
    rfl
  case nop | clrs =>
    cases (runCommand_ok h _).symm.trans ht
    exact h
  all_goals exact absurd hi (Option.some_ne_none _)

/-- What a command does under the capacity `cap`, given what it does without a bound (R33). -/
theorem exec_of_capacity {i : Instr} {s t : State} {cap : Nat} (hc : s.params.bufCap = some cap)
    (ht : exec i s.unbounded = .next t) :
    exec i s = if i ∉ [.nop, .clrf, .clrs, .srst] ∧ ¬ t.Faulted ∧ cap < t.w.length then
        .next (s.raise ⟨.overflow, t.w.length, cap⟩)
      else .next (t.withParams s.params) := by
  by_cases hi : kindNeeded i = none
  · rw [if_neg fun hover => hover.1 ((kindNeeded_eq_none_iff i).1 hi), exec_system_of_unbounded hi ht]
  simp only [← kindNeeded_eq_none_iff, hi, not_false_eq_true, true_and]
  by_cases h : s.st.fault = .none
  · obtain ⟨x, y, hx, hy, hxy⟩ := exec_bounded hi h hc
    rw [hx]
    exact runCommand_of_bounded h hxy (hy ▸ ht)
  · cases (exec_of_fault (s := s.unbounded) hi h).symm.trans ht
    rw [exec_of_fault hi h, if_neg fun hover => hover.1 h, State.unbounded_withParams]

/-- With no capacity no command raises F_OVERFLOW (R33). -/
theorem exec_fault_ne_overflow {i : Instr} {s t : State} (hc : s.params.bufCap = none) (h : s.st.fault = .none)
    (ht : exec i s = .next t) : t.st.fault ≠ .overflow := by
  by_cases hi : kindNeeded i = none
  · simp [exec_system_fault hi h ht]
  rcases exec_cases hi h with ⟨r, hr, hcomp⟩ | ⟨f, hf, hraise⟩
  · cases hr.symm.trans ht
    obtain ⟨_, hkept⟩ := hcomp
    rw [hkept]
    simp [h]
  · cases hf.symm.trans ht
    exact hraise.code_ne_overflow hc

end Sys2Proof.Machine

namespace Sys2Proof.Proofs

open Sys2Proof.Machine

/-- Settles O17: the bodies run with and without the bound differ only at the buffer write, where R33's fault stands. -/
theorem capacityFault : Obligations.CapacityFault := by
  unfold Obligations.CapacityFault
  refine ⟨fun i s t => ⟨fun cap hc ht => exec_of_capacity hc ht, fun hc hs ht => ?_⟩, fun _ n => bufFits_iff n,
    fun _ => rfl, fun _ => rfl⟩
  exact exec_fault_ne_overflow hc (not_not.1 hs) ht

end Sys2Proof.Proofs
end

section
/-!
SUPPORT. The decoder as the opcode map's look-up, and what executing a reserved word does
(spec 30_encoding.md R110, R111, R113).
-/

namespace Sys2Proof

/-- The opcode map holds each command beside its own word (R110, R111). -/
theorem encode_of_mem_opcodeMap : ∀ e ∈ opcodeMap, encode e.2 = e.1 := by
  decide

/-- A word decodes to a command only if it is that command's word. -/
theorem encode_of_decode {c : Byte} {i : Instr} (h : decode c = .ok i) : encode i = c := by
  unfold decode at h
  split at h
  case h_1 j hlook =>
    cases h
    obtain ⟨before, after, hmap, _⟩ := List.lookup_eq_some_iff.1 hlook
    exact encode_of_mem_opcodeMap (c, i) (by simp [hmap])
  case h_2 => cases h

end Sys2Proof

namespace Sys2Proof.Machine

/-- Every word that decodes to no command is rejected by name (R113). -/
theorem decode_of_not_isCommandWord {c : Byte} (h : ¬ IsCommandWord c) :
    decode c = .error (.reservedWord c) := by
  cases hlook : opcodeMap.lookup c with
  | some i => exact absurd ⟨i, by simp [decode, hlook]⟩ h
  | none => simp [decode, hlook]

/-- A reserved word runs `execReserved`, which is gated like a command (R113). -/
theorem execWord_of_not_isCommandWord {c : Byte} (h : ¬ IsCommandWord c) (s : State) :
    execWord c s = execReserved c s := by
  simp [execWord, decode_of_not_isCommandWord h]

/-- Raising F_BAD_OPCODE writes the whole word to FINFO0: 8 bits lose nothing modulo 2^32 (R424). -/
theorem raise_badOpcode (s : State) (c : Byte) :
    s.raise ⟨.badOpcode, c.toNat, 0⟩ =
      { s with st := { s.st with fault := .badOpcode, finfo0 := c.setWidth 32, finfo1 := 0 } } := by
  rw [← BitVec.ofNat_toNat]
  rfl

end Sys2Proof.Machine

namespace Sys2Proof.Proofs

open Sys2Proof.Machine

/-- Settles O10: the decoder rejects the word, and the gate of the execution sequence decides between fault entry and
nothing. -/
theorem reservedWordFaults : Obligations.ReservedWordFaults := by
  unfold Obligations.ReservedWordFaults
  intro s c hc
  rw [execWord_of_not_isCommandWord hc, execReserved]
  refine ⟨fun hs => ?_, fun hs => runCommand_of_fault hs _⟩
  rw [runCommand_error (not_not.1 hs), raise_badOpcode]

/-- Settles O1: the 34 rows are looked up one by one, and a word that decodes at all is some command's word. -/
theorem opcodeMapWords : Obligations.OpcodeMapWords := by
  unfold Obligations.OpcodeMapWords
  refine ⟨by decide, fun c hc => decode_of_not_isCommandWord ?_⟩
  rintro ⟨i, hi⟩
  exact hc i (encode_of_decode hi)

end Sys2Proof.Proofs
end

section
/-!
SUPPORT. The Hamming encoder and decoder are the formulas of spec 40_hamming.md R150 to R153: which positions hold data,
what the model's recursions over positions compute, and what HAM.ENC1 and HAM.DEC1 do with them.
-/

namespace Sys2Proof.Machine

/-! ### Positions (R150) -/

theorem isPow2_iff (j : Nat) : isPow2 j = true ↔ ∃ i, j = 2 ^ i := by
  constructor
  · intro h
    have hlog : 2 ^ j.log2 = j := by simp_all [isPow2]
    exact ⟨j.log2, hlog.symm⟩
  · rintro ⟨i, rfl⟩
    simp [isPow2, Nat.log2_two_pow]

theorem dataIndices_eq_filter (n : Nat) :
    dataIndices n = (List.range n).filter fun k => !isPow2 (1 + k) := by
  refine List.filter_congr fun k _ => ?_
  have hk := isPow2_iff (1 + k)
  cases h : isPow2 (1 + k) <;> simp_all [Nat.add_comm 1]

theorem lt_of_mem_dataIndices {n k : Nat} (h : k ∈ dataIndices n) : k < n := by
  simpa using (List.mem_filter.1 h).1

/-- The powers of two among the positions `1..n` are `2^0, ..., 2^(r-1)`, so there are `r`. -/
theorem countP_isPow2 {n r : Nat} (h : ∀ i, 2 ^ i ≤ n ↔ i < r) :
    (List.range n).countP (fun k => isPow2 (1 + k)) = r := by
  have hperm : ((List.range n).filter fun k => isPow2 (1 + k)).Perm ((List.range r).map fun i => 2 ^ i - 1) := by
    have hinj : Function.Injective fun i => 2 ^ i - 1 := fun a b hab => by
      have ha := Nat.two_pow_pos a
      have hb := Nat.two_pow_pos b
      have heq : 2 ^ a - 1 = 2 ^ b - 1 := hab
      exact Nat.pow_right_injective le_rfl (show 2 ^ a = 2 ^ b by omega)
    refine (List.perm_ext_iff_of_nodup (List.nodup_range.filter _) (List.nodup_range.map hinj)).2 fun k => ?_
    simp only [List.mem_filter, List.mem_range, List.mem_map, isPow2_iff, ← h]
    constructor
    · rintro ⟨hk, i, hi⟩
      exact ⟨i, by omega, by omega⟩
    · rintro ⟨i, hi, rfl⟩
      have hpos := Nat.two_pow_pos i
      exact ⟨by omega, i, by omega⟩
  rw [List.countP_eq_length_filter, hperm.length_eq, List.length_map, List.length_range]

/-! ### The number of check bits (R151) -/

theorem rOf_eq {m r : Nat} (h : IsParityCount m r) : rOf m = r := by
  obtain ⟨hle, hleast⟩ := h
  have hr : r < m + 2 := by
    by_contra hge
    have hlt := hleast (m + 1) (by omega)
    have hpow : m < 2 ^ m := Nat.lt_two_pow_self
    rw [Nat.pow_succ] at hlt
    omega
  have hfind : (List.range (m + 2)).find? (fun r => decide (m + r + 1 ≤ 2 ^ r)) = some r := by
    refine List.find?_range_eq_some.2 ⟨decide_eq_true hle, List.mem_range.2 hr, fun j hj => ?_⟩
    simpa using Nat.le_of_lt_succ (hleast j hj)
  rw [rOf, hfind, Option.getD_some]

theorem nOf_eq {m r : Nat} (h : IsParityCount m r) : nOf m = m + r := by
  rw [nOf, rOf_eq h]

/-- `2^(r-1) ≤ n < 2^r`: the check positions of the code are those of the first `r` powers of two. -/
theorem IsParityCount.two_pow_le_iff {m r : Nat} (h : IsParityCount m r) (i : Nat) : 2 ^ i ≤ m + r ↔ i < r := by
  obtain ⟨hle, hleast⟩ := h
  constructor
  · intro hi
    by_contra hge
    have hmono := Nat.pow_le_pow_right (n := 2) (by decide) (Nat.not_lt.1 hge)
    omega
  · intro hi
    have hlt := hleast i hi
    omega

theorem IsParityCount.countP_data {m r : Nat} (h : IsParityCount m r) :
    (List.range (m + r)).countP (fun k => !isPow2 (1 + k)) = m := by
  have hsum : m + r = r + (List.range (m + r)).countP (fun k => !isPow2 (1 + k)) := by
    simpa [countP_isPow2 h.two_pow_le_iff] using
      List.length_eq_countP_add_countP (fun k => isPow2 (1 + k)) (l := List.range (m + r))
  omega

/-! ### Data bits -/

theorem hamExtract_eq_map (j : Nat) (c : List Bit) :
    hamExtract j c = ((List.range c.length).filter fun k => !isPow2 (j + k)).map fun k => c.getD k false := by
  induction c generalizing j with
  | nil => rfl
  | cons b c ih =>
    cases hj : isPow2 j <;>
      simp [hamExtract, hj, ih, List.range_succ_eq_map, List.filter_map, Function.comp_def, Nat.add_comm 1,
        Nat.add_assoc]

theorem hamExtract_one (c : List Bit) : hamExtract 1 c = (dataIndices c.length).map fun k => c.getD k false := by
  rw [hamExtract_eq_map, dataIndices_eq_filter]

@[simp] theorem length_hamPlace (n j : Nat) (d : List Bit) : (hamPlace n j d).length = n := by
  induction n generalizing j d with
  | zero => rfl
  | succ n ih =>
    unfold hamPlace
    split <;> simp [ih]

theorem hamExtract_hamPlace (n j : Nat) (d : List Bit) :
    hamExtract j (hamPlace n j d) = d.takeD ((List.range n).countP fun k => !isPow2 (j + k)) false := by
  induction n generalizing j d with
  | zero => rfl
  | succ n ih =>
    cases hj : isPow2 j <;>
      simp [hamPlace, hamExtract, hj, ih, List.range_succ_eq_map, List.countP_map, Function.comp_def, Nat.add_comm 1,
        Nat.add_assoc]

/-- A check bit is no data bit. -/
theorem hamExtract_set {j k : Nat} (h : isPow2 (j + k) = true) (c : List Bit) (v : Bit) :
    hamExtract j (c.set k v) = hamExtract j c := by
  induction c generalizing j k with
  | nil => rfl
  | cons b c ih =>
    cases k with
    | zero => simp_all [hamExtract]
    | succ k => simp [hamExtract, ih (j := j + 1) (k := k) (by rwa [Nat.add_right_comm])]

/-! ### Parity checks -/

/-- The recursion over positions is the XOR over the positions checked, from any start value. -/
theorem foldl_xor_eq_hamParity (p j : Nat) (c : List Bit) (b : Bit) :
    ((List.range c.length).filter fun k => decide ((j + k) &&& p ≠ 0)).foldl (fun b k => b ^^ c.getD k false) b =
      (b ^^ hamParity p j c) := by
  induction c generalizing j b with
  | nil => simp [hamParity]
  | cons x c ih =>
    have hrest := ih (j + 1)
    simp only [Nat.add_assoc, Nat.add_comm 1] at hrest
    simp only [List.length_cons, List.range_succ_eq_map, List.filter_cons, List.filter_map, Function.comp_def,
      Nat.add_zero, Nat.succ_eq_add_one, decide_eq_true_eq, hamParity]
    split
    case isTrue hj =>
      simp only [List.foldl_cons, List.foldl_map, List.getD_cons_zero, List.getD_cons_succ, hrest, bne_iff_ne.2 hj,
        Bool.true_and, Bool.xor_assoc]
    case isFalse hj =>
      simp only [List.foldl_map, List.getD_cons_succ, hrest, not_not.1 hj, bne_self_eq_false, Bool.false_and,
        Bool.false_xor]

theorem hamParity_one (p : Nat) (c : List Bit) : hamParity p 1 c = parityOver p c := by
  simpa [parityOver, Nat.add_comm 1] using (foldl_xor_eq_hamParity p 1 c false).symm

/-- Writing a bit changes a check by the difference, if the check covers its position. -/
theorem hamParity_set {p j k : Nat} {c : List Bit} (hk : k < c.length) (v : Bit) :
    hamParity p j (c.set k v) = (((j + k) &&& p != 0 && (c.getD k false ^^ v)) ^^ hamParity p j c) := by
  induction c generalizing j k with
  | nil => cases hk
  | cons b c ih =>
    cases k with
    | zero =>
      show ((j &&& p != 0 && v) ^^ hamParity p (j + 1) c) =
        ((j &&& p != 0 && (b ^^ v)) ^^ ((j &&& p != 0 && b) ^^ hamParity p (j + 1) c))
      cases j &&& p != 0 <;> cases b <;> simp
    | succ k =>
      have hk : k < c.length := by simpa using hk
      have hjk : j + (k + 1) = j + 1 + k := by omega
      simp only [List.set_cons_succ, hamParity, ih hk, hjk, List.getD_cons_succ]
      exact Bool.xor_left_comm _ _ _

theorem hamParityBut_of_lt {p j : Nat} (h : p < j) (c : List Bit) : hamParityBut p j c = hamParity p j c := by
  induction c generalizing j with
  | nil => rfl
  | cons b c ih =>
    have hne : (j != p) = true := bne_iff_ne.2 (Nat.ne_of_gt h)
    rw [hamParityBut, hamParity, ih (Nat.lt_succ_of_lt h), hne, Bool.and_true]

/-- Leaving position `p` out of its check is counting it as 0. -/
theorem hamParityBut_eq {p j : Nat} (h : j ≤ p) (c : List Bit) :
    hamParityBut p j c = hamParity p j (c.set (p - j) false) := by
  induction c generalizing j with
  | nil => rfl
  | cons b c ih =>
    rcases Nat.eq_or_lt_of_le h with rfl | hlt
    · simp [hamParityBut, hamParity, hamParityBut_of_lt]
    · have hp : p - j = p - (j + 1) + 1 := by omega
      have hne : (j != p) = true := bne_iff_ne.2 (Nat.ne_of_lt hlt)
      rw [hp, List.set_cons_succ, hamParityBut, hamParity, ih hlt, hne, Bool.and_true]

/-! ### The encoder (R152) -/

theorem two_pow_and_two_pow (i k : Nat) : 2 ^ i &&& 2 ^ k = if i = k then 2 ^ k else 0 := by
  rw [Nat.and_two_pow, Nat.testBit_two_pow]
  split <;> simp [*]

@[simp] theorem length_hamSetParity (c : List Bit) (i : Nat) : (hamSetParity c i).length = c.length := by
  simp [hamSetParity]

/-- Setting a check bit makes its check even and leaves the other checks. -/
theorem hamParity_hamSetParity {c : List Bit} {i : Nat} (hi : 2 ^ i ≤ c.length) (k : Nat) :
    hamParity (2 ^ k) 1 (hamSetParity c i) = if k = i then false else hamParity (2 ^ k) 1 c := by
  have hpos : 1 ≤ 2 ^ i := Nat.two_pow_pos i
  have hlt : 2 ^ i - 1 < c.length := by omega
  have hpos' : 1 + (2 ^ i - 1) = 2 ^ i := by omega
  unfold hamSetParity
  split
  · subst k
    have hset := hamParity_set (p := 2 ^ i) (j := 1) (c := c.set (2 ^ i - 1) false) (by simpa using hlt)
      (hamParityBut (2 ^ i) 1 c)
    rw [List.set_set, hpos', Nat.and_self, ← hamParityBut_eq hpos] at hset
    have hcover : (2 ^ i != 0) = true := bne_iff_ne.2 (by omega)
    simpa [hlt, hcover] using hset
  · rename_i hne
    rw [hamParity_set hlt, hpos', two_pow_and_two_pow, if_neg fun h => hne h.symm]
    simp

theorem hamExtract_hamSetParity (c : List Bit) (i : Nat) : hamExtract 1 (hamSetParity c i) = hamExtract 1 c := by
  have hpos := Nat.two_pow_pos i
  exact hamExtract_set ((isPow2_iff _).2 ⟨i, by omega⟩) c _

/-- Setting the first `r` check bits keeps the length and the data and makes the first `r` checks even. -/
theorem foldl_hamSetParity (r : Nat) (c : List Bit) (hr : ∀ i < r, 2 ^ i ≤ c.length) :
    ((List.range r).foldl hamSetParity c).length = c.length ∧
    hamExtract 1 ((List.range r).foldl hamSetParity c) = hamExtract 1 c ∧
    ∀ k < r, hamParity (2 ^ k) 1 ((List.range r).foldl hamSetParity c) = false := by
  induction r with
  | zero => simp
  | succ r ih =>
    obtain ⟨hlen, hdata, heven⟩ := ih fun i hi => hr i (Nat.lt_succ_of_lt hi)
    rw [List.range_succ, List.foldl_append, List.foldl_cons, List.foldl_nil]
    refine ⟨by rw [length_hamSetParity, hlen], by rw [hamExtract_hamSetParity, hdata], fun k hk => ?_⟩
    rw [hamParity_hamSetParity (hlen ▸ hr r (Nat.lt_succ_self r))]
    split
    · rfl
    · exact heven k (by omega)

theorem length_of_isCodeword {r : Nat} {d c : List Bit} (h : IsCodeword r d c) : c.length = d.length + r :=
  h.1

/-- `ham_encode(d)` is the codeword of `d`. -/
theorem isCodeword_hamEncode {d : List Bit} {r : Nat} (h : IsParityCount d.length r) :
    IsCodeword r d (hamEncode d) := by
  have hr : ∀ i < r, 2 ^ i ≤ (hamPlace (d.length + r) 1 d).length := fun i hi => by
    rw [length_hamPlace]
    exact (h.two_pow_le_iff i).2 hi
  obtain ⟨hlen, hdata, heven⟩ := foldl_hamSetParity r _ hr
  rw [length_hamPlace] at hlen
  rw [hamExtract_one, hlen, hamExtract_hamPlace, h.countP_data, List.takeD_eq_take false le_rfl,
    List.take_length] at hdata
  rw [hamEncode, rOf_eq h, nOf_eq h]
  exact ⟨hlen, hdata, fun i hi => hamParity_one _ _ ▸ heven i hi⟩

/-! ### The decoder (R153) -/

theorem foldl_filter_add_eq_sum (l : List Nat) (q : Nat → Prop) [DecidablePred q] (p : Nat → Bool) (f : Nat → Nat)
    (s : Nat) :
    (l.filter fun i => decide (q i)).foldl (fun s i => if p i then s + f i else s) s =
      s + (l.map fun i => if q i ∧ p i = true then f i else 0).sum := by
  induction l generalizing s with
  | nil => rfl
  | cons i l ih => by_cases hq : q i <;> cases hp : p i <;> simp [ih, hq, hp, Nat.add_assoc]

theorem hamSyndrome_eq (c : List Bit) : hamSyndrome c = syndromeSum c := by
  have hlast : ¬ 2 ^ c.length ≤ c.length := Nat.not_le.2 Nat.lt_two_pow_self
  simp [hamSyndrome, syndromeSum, hamParity_one, foldl_filter_add_eq_sum, List.range_succ, hlast]

@[simp] theorem length_hamCorrect (c : List Bit) (s : Nat) : (hamCorrect c s).length = c.length := by
  unfold hamCorrect
  split <;> simp

theorem getD_hamCorrect {c : List Bit} {k : Nat} (hk : k < c.length) (s : Nat) :
    (hamCorrect c s).getD k false = (c.getD k false ^^ decide (k + 1 = s)) := by
  unfold hamCorrect
  split
  · by_cases hs : k + 1 = s
    · subst s
      simp [hk]
    · have hne : s - 1 ≠ k := by omega
      simp [hs, hne]
  · have hs : k + 1 ≠ s := by omega
    simp [hs]

theorem hamExtract_hamCorrect (c : List Bit) (s : Nat) : hamExtract 1 (hamCorrect c s) = correctedData c s := by
  rw [hamExtract_one, length_hamCorrect, correctedData]
  exact List.map_congr_left fun k hk => getD_hamCorrect (lt_of_mem_dataIndices hk) s

theorem hamDecode_eq (c : List Bit) : hamDecode c = (correctedData c (syndromeSum c), syndromeSum c) := by
  rw [hamDecode, hamExtract_hamCorrect, hamSyndrome_eq]

/-! ### The commands on one block (R154, R155) -/

theorem exec_hamEnc1_of_ready {s : State} {d : List Bit} (hs : s.Ready .hamEnc1) (hw : s.w = .bits d) :
    exec .hamEnc1 s = runCommand s (if d.length ≠ s.cfg.hamM.toNat then
        .error ⟨.badLength, d.length, s.cfg.hamM.toNat⟩
      else bufWrite s (.bits (hamEncode d))) := by
  show runCommand s _ = _
  rw [configCheck_of_legal hs.2, needBits_of_bits hw]
  rfl

theorem exec_hamDec1_of_ready {s : State} {c : List Bit} (hs : s.Ready .hamDec1) (hw : s.w = .bits c) :
    exec .hamDec1 s = runCommand s (if c.length ≠ nOf s.cfg.hamM.toNat then
        .error ⟨.badLength, c.length, nOf s.cfg.hamM.toNat⟩
      else bufWrite s (.bits (hamDecode c).1) >>= fun t => .ok (t.setSynd (hamDecode c).2)) := by
  show runCommand s _ = _
  rw [configCheck_of_legal hs.2, needBits_of_bits hw]
  rfl

end Sys2Proof.Machine

namespace Sys2Proof.Proofs

open Sys2Proof.Machine

/-- Settles O20: setting the check bits one after the other never touches a data bit or a check already even. -/
theorem hamEnc1Result : Obligations.HamEnc1Result := by
  unfold Obligations.HamEnc1Result
  intro s d m r hs hw hm hr
  subst hm
  rw [exec_hamEnc1_of_ready hs hw]
  refine ⟨fun hlen hfits => ?_, fun hlen => ?_⟩
  · have hcode : IsCodeword r d (hamEncode d) := isCodeword_hamEncode (hlen ▸ hr)
    have hcodeLen := length_of_isCodeword hcode
    have hfits : bufFits s.params (Buffer.bits (hamEncode d)).length = true := by
      rwa [Buffer.length, hcodeLen, hlen]
    refine ⟨hamEncode d, ?_, hcode⟩
    rw [if_neg (not_not.2 hlen), bufWrite_of_fits hfits, runCommand_ok hs.1]
  · rw [if_pos hlen, runCommand_error hs.1]

/-- Settles O21: the decoder's recursions over positions are the sum and the data bits of R153. -/
theorem hamDec1Result : Obligations.HamDec1Result := by
  unfold Obligations.HamDec1Result
  intro s c d m r hs hw hm hr
  subst hm
  rw [exec_hamDec1_of_ready hs hw, nOf_eq hr, hamDecode_eq]
  refine ⟨fun hlen hd hfits => ?_, fun hlen => ?_⟩
  · subst hd
    rw [if_neg (not_not.2 hlen), bufWrite_of_fits hfits, ok_bind, runCommand_ok hs.1]
    rfl
  · rw [if_pos hlen, runCommand_error hs.1]

end Sys2Proof.Proofs
end

section
/-!
SUPPORT. The outputs of PAR.ADD and CKS.ADD in the terms of spec 41_edc.md R180, R181, R185 and R186, and what a command
that needs bits does once its configuration and its kind check have passed.
-/

namespace Sys2Proof.Machine

/-! ### Commands that need bits -/

/-- A command that needs bits and is ready runs the part of its body after the kind check (R422). -/
theorem runCommand_bits_of_ready {i : Instr} {s : State} {b : List Bit} (hs : s.Ready i) (hw : s.w = .bits b)
    (rest : List Bit → CmdResult State) :
    runCommand s (configCheck i s >>= fun _ => needBits s >>= rest) = runCommand s (rest b) := by
  obtain ⟨_, hcfg⟩ := hs
  rw [configCheck_of_legal hcfg, needBits_of_bits hw, ok_bind, ok_bind]

/-- A body that ends in writing bits that fit completes, with nothing but W changed (10_state.md R33). -/
theorem runCommand_bufWrite_bits {s : State} {out : List Bit} (h : s.st.fault = .none)
    (hfits : bufFits s.params out.length = true) :
    runCommand s (bufWrite s (.bits out)) = .next { s with w := .bits out } := by
  rw [bufWrite_of_fits hfits, runCommand_ok h]

theorem exec_parAdd_of_ready {s : State} {b : List Bit} (hs : s.Ready .parAdd) (hw : s.w = .bits b) :
    exec .parAdd s = runCommand s (bufWrite s (.bits (parAdd b))) :=
  runCommand_bits_of_ready hs hw _

theorem exec_cksAdd_of_ready {s : State} {b : List Bit} (hs : s.Ready .cksAdd) (hw : s.w = .bits b) :
    exec .cksAdd s = runCommand s (bufWrite s
      (.bits (b ++ bitsOfNat (cksum s.params.edcTail b (regNat s.cfg.edcWidth)) (regNat s.cfg.edcWidth)))) := by
  obtain ⟨hset, _⟩ := hs.2 .edcWidth (by decide)
  refine (runCommand_bits_of_ready hs hw _).trans ?_
  rw [readEdcWidth_of_set hset, ok_bind]

/-! ### Parity (R180, R181) -/

/-- Each bit XORed into an accumulator flips it exactly if the bit is 1. -/
theorem foldl_xor_eq_count (b : List Bit) (acc : Bit) :
    b.foldl (· ^^ ·) acc = (acc ^^ decide (b.count true % 2 = 1)) := by
  induction b generalizing acc with
  | nil => simp
  | cons x b ih =>
    rw [List.foldl_cons, ih, Bool.xor_assoc]
    congr 1
    cases x with
    | false => simp
    | true =>
      rw [List.count_cons_self, Bool.true_xor, ← decide_not]
      exact decide_eq_decide.2 (by omega)

theorem par8_eq_count (b : List Bit) : par8 b = decide (b.count true % 2 = 1) := by
  rw [par8, foldl_xor_eq_count, Bool.false_xor]

theorem parAdd_eq (b : List Bit) :
    parAdd b = (List.range (b.length / 8)).flatMap fun i =>
      (b.drop (8 * i)).take 8 ++ [decide (((b.drop (8 * i)).take 8).count true % 2 = 1)] := by
  simp only [parAdd, blocks, List.flatMap_map, slice_add, par8_eq_count]

/-! ### Checksum (R185, R186) -/

theorem sum_edcBytes_eq (t : EdcTail) (b cov : List Bit)
    (hcov : cov = if t = .zeropad then b ++ List.replicate ((8 - b.length % 8) % 8) false else b) :
    (edcBytes t b).sum =
      ((List.range (cov.length / 8)).map fun i => numberOf ((cov.drop (8 * i)).take 8)).sum := by
  simp only [edcBytes_eq, ← hcov, bytesOf_eq, slice_add]

end Sys2Proof.Machine

namespace Sys2Proof.Proofs

open Sys2Proof.Machine

/-- Settles O26: the XOR of a byte's bits is the parity of the number of its 1 bits. -/
theorem parAddResult : Obligations.ParAddResult := by
  unfold Obligations.ParAddResult
  intro s b out hs hw hout hfits
  rw [exec_parAdd_of_ready hs hw, parAdd_eq, ← hout, runCommand_bufWrite_bits hs.1 hfits]

/-- Settles O28: the model sums the covered bytes and writes the field bit by bit as 20_memory.md R71 does. -/
theorem cksAddResult : Obligations.CksAddResult := by
  unfold Obligations.CksAddResult
  intro s b cov wd sum hs hw hwd hcov hsum hfits
  have hlen : (b ++ bitsOfNat (cksum s.params.edcTail b wd) wd).length = b.length + wd := by simp
  rw [exec_cksAdd_of_ready hs hw, ← hwd, runCommand_bufWrite_bits hs.1 (hlen ▸ hfits), bitsOfNat_eq_fieldOf, cksum,
    sum_edcBytes_eq _ b cov hcov, ← hsum]

end Sys2Proof.Proofs
end

section
/-!
SUPPORT. What the three forward framers share: the payload is measured, then framed (spec 42_framers.md R230); and the
escaping of R238 in terms of the payload's bits.
-/

namespace Sys2Proof.Machine

/-- The body of a forward framer: `frame` of a payload within the frame limit (R231, R235, R239). -/
def frameBody (i : Instr) (frame : List Bit → List Bit) (s : State) : CmdResult State := do
  configCheck i s
  let b ← needBits s
  let mfb ← readMaxFrameBytes s
  checkFrameSize b mfb
  bufWrite s (.bits (frame b))

theorem exec_bcfFrm (s : State) : exec .bcfFrm s = runCommand s (frameBody .bcfFrm bcfFrame s) := rfl

theorem exec_bsfFrm (s : State) :
    exec .bsfFrm s = runCommand s (frameBody .bsfFrm (fun b => wrapFlags (stuff b)) s) := rfl

theorem exec_ysfFrm (s : State) :
    exec .ysfFrm s = runCommand s (frameBody .ysfFrm (fun b => wrapFlags (escape b)) s) := rfl

section
variable {i : Instr} {s : State} {b out : List Bit} {mfb : Nat} {frame : List Bit → List Bit}
  (hi : .maxFrameBytes ∈ fieldsRead i) (hs : s.Ready i) (hw : s.w = .bits b) (hmfb : mfb = regNat s.cfg.maxFrameBytes)
include hi hs hw hmfb

/-- A framer that is ready reaches the size check with the payload and the limit. -/
theorem runCommand_frameBody_of_ready :
    runCommand s (frameBody i frame s) =
      runCommand s (checkFrameSize b mfb >>= fun _ => bufWrite s (.bits (frame b))) := by
  obtain ⟨hset, _⟩ := hs.2 .maxFrameBytes hi
  refine (runCommand_bits_of_ready hs hw _).trans ?_
  rw [readMaxFrameBytes_of_set hset, ok_bind, hmfb]

/-- What a framer that is ready does: the size of the payload alone decides between the frame and the fault (R230). -/
theorem runCommand_frameBody (hout : out = frame b) :
    (b.length ≤ 8 * mfb → bufFits s.params out.length = true →
      runCommand s (frameBody i frame s) = .next { s with w := .bits out }) ∧
    (8 * mfb < b.length →
      runCommand s (frameBody i frame s) = .next (s.raise ⟨.frameTooLarge, b.length, 8 * mfb⟩)) := by
  rw [runCommand_frameBody_of_ready hi hs hw hmfb, ← hout]
  constructor
  · intro hle hfits
    rw [checkFrameSize_of_le hle, ok_bind, runCommand_bufWrite_bits hs.1 hfits]
  · intro hover
    rw [checkFrameSize_of_over hover, error_bind, runCommand_error hs.1]

end

theorem bcfFrame_eq (b : List Bit) : bcfFrame b = fieldOf b.length 16 ++ b := by
  rw [bcfFrame, bitsOfNat_eq_fieldOf]

@[simp] theorem length_bcfFrame (b : List Bit) : (bcfFrame b).length = 16 + b.length := by
  simp [bcfFrame]

/-- `escape` takes the complete bytes one by one and passes the tail through (R238). -/
theorem escape_eq (b : List Bit) :
    escape b = (List.range (b.length / 8)).flatMap (fun i => escapeByte ((b.drop (8 * i)).take 8))
      ++ b.drop (8 * (b.length / 8)) := by
  simp only [escape, blocks, List.flatMap_map, slice_add, tailBits_eq]

end Sys2Proof.Machine

namespace Sys2Proof.Proofs

open Sys2Proof.Machine

/-- Settles O35: the model's frame is the field of 20_memory.md R71 before the payload. -/
theorem bcfFrmResult : Obligations.BcfFrmResult := by
  unfold Obligations.BcfFrmResult
  intro s b mfb hs hw hmfb
  rw [exec_bcfFrm, ← bcfFrame_eq, ← length_bcfFrame]
  exact runCommand_frameBody (by decide) hs hw hmfb rfl

/-- Settles O36: the model's stuffing is the loop of R234. -/
theorem bsfFrmResult : Obligations.BsfFrmResult := by
  unfold Obligations.BsfFrmResult
  intro s b flag out mfb hs hw hmfb hflag hout
  have hframe : out = wrapFlags (stuff b) := by rw [hout, hflag, ← stuff_eq_foldl, wrapFlags, flagBits]
  rw [exec_bsfFrm]
  exact runCommand_frameBody (by decide) hs hw hmfb hframe

/-- Settles O37: the model's escaping is that of the complete bytes at the offsets 8·i. -/
theorem ysfFrmResult : Obligations.YsfFrmResult := by
  unfold Obligations.YsfFrmResult
  intro s b flag esc mask out mfb hs hw hmfb hflag hesc hmask hout
  have hframe : out = wrapFlags (escape b) := by
    rw [hout, hflag, hesc, hmask, wrapFlags, escape_eq, ← List.append_assoc]
    rfl
  rw [exec_ysfFrm]
  exact runCommand_frameBody (by decide) hs hw hmfb hframe

end Sys2Proof.Proofs
end

section
/-!
SUPPORT. What a ready baseband modulator runs once it has read the bits and SPB, and MAN.MOD's window in the terms of spec
43_baseband.md R275 and R276.
-/

namespace Sys2Proof.Machine

/-! ### Modulators that are ready -/

/-- A command that needs bits, reads both rates and is ready runs the rest of its body on the bits and SPB (R422). -/
theorem runCommand_bits_spb_of_ready {i : Instr} {s : State} {b : List Bit} (hfs : .samplingRate ∈ fieldsRead i)
    (hbr : .bitRate ∈ fieldsRead i) (hs : s.Ready i) (hw : s.w = .bits b) (rest : List Bit → Nat → CmdResult State) :
    runCommand s (configCheck i s >>= fun _ => needBits s >>= fun b => readSpb s >>= rest b) =
      runCommand s (rest b s.spb) := by
  obtain ⟨hfsSet, _⟩ := hs.2 .samplingRate hfs
  obtain ⟨hbrSet, _⟩ := hs.2 .bitRate hbr
  rw [runCommand_bits_of_ready hs hw, readSpb_of_set hfsSet hbrSet, ok_bind, State.spb]

/-- A body that ends in writing samples that fit completes, with nothing but W changed (10_state.md R33). -/
theorem runCommand_bufWrite_samples {s : State} {y : List Sample} (h : s.st.fault = .none)
    (hfits : bufFits s.params y.length = true) :
    runCommand s (bufWrite s (.samples y)) = .next { s with w := .samples y } := by
  rw [bufWrite_of_fits hfits, runCommand_ok h]

/-- A modulator that sends a window of `p` samples for each bit writes `p` samples for each bit. -/
theorem length_flatMap_window {p : Nat} {f : Bit → List Sample} (hf : ∀ x, (f x).length = p) (b : List Bit) :
    (b.flatMap f).length = b.length * p := by
  simp [List.length_flatMap, hf]

/-! ### Manchester (R275, R276) -/

theorem exec_manMod_of_ready {s : State} {b : List Bit} (hs : s.Ready .manMod) (hw : s.w = .bits b) :
    exec .manMod s =
      runCommand s (bufWrite s (.samples (b.flatMap (manSymbol s.params.arith s.spb s.cfg.amplitude)))) :=
  runCommand_bits_spb_of_ready (by decide) (by decide) hs hw _

/-- The bit chooses the level of each half, not where the window is cut. -/
theorem manSymbol_eq (ar : Arith) (p : Nat) (a : Sample) (x : Bit) :
    manSymbol ar p a x = List.replicate (p / 2) (if x then ar.neg a else a)
      ++ List.replicate (p - p / 2) (if x then a else ar.neg a) := by
  cases x <;> rfl

theorem map_manSymbol {ar : Arith} {ρ : Sample → ℝ} (h : ar.IsReal ρ) (p : Nat) (a : Sample) (x : Bit) :
    (manSymbol ar p a x).map ρ = List.replicate (p / 2) (if x then -ρ a else ρ a)
      ++ List.replicate (p - p / 2) (if x then ρ a else -ρ a) := by
  rw [manSymbol_eq, List.map_append, List.map_replicate, List.map_replicate, apply_ite ρ, apply_ite ρ, h.neg]

end Sys2Proof.Machine

namespace Sys2Proof.Proofs

open Sys2Proof.Machine

/-- Settles O44: MAN.MOD writes one window of SPB samples for each bit, and a real arithmetic sends each of them to ±A. -/
theorem manModResult : Obligations.ManModResult := by
  unfold Obligations.ManModResult
  intro s b hs hw hfits
  have hlen := length_flatMap_window (length_manSymbol s.params.arith s.spb s.cfg.amplitude) b
  refine ⟨b.flatMap (manSymbol s.params.arith s.spb s.cfg.amplitude), ?_, ?_, fun ρ hρ => ?_⟩
  · rw [exec_manMod_of_ready hs hw, runCommand_bufWrite_samples hs.1 (hlen ▸ hfits)]
  · exact congrArg b.flatMap (funext (manSymbol_eq _ _ _))
  · simp only [List.map_flatMap, map_manSymbol hρ]

end Sys2Proof.Proofs
end

section
/-!
SUPPORT. The system commands (spec 45_system.md R350 to R352): how the gate of the execution sequence, or its absence, gives
each of them its whole next state.
-/

namespace Sys2Proof.Machine

/-- NOP passes the gate to do nothing, so a pending fault makes no difference to it (R350). -/
theorem exec_nop_eq (s : State) : exec .nop s = .next s := by
  rw [exec_nop]
  by_cases h : s.st.fault = .none
  · exact runCommand_ok h s
  · exact runCommand_of_fault h _

/-- CLRS completes when no fault is pending (R352). -/
theorem exec_clrs_of_no_fault {s : State} (h : s.st.fault = .none) : exec .clrs s = .next s.clearStats := by
  rw [exec_clrs, runCommand_ok h]

/-- CLRS is gated: it is ignored while a fault is pending (R352, 60_exceptions.md R426). -/
theorem exec_clrs_of_fault {s : State} (h : s.st.fault ≠ .none) : exec .clrs s = .next s := by
  rw [exec_clrs, runCommand_of_fault h]

end Sys2Proof.Machine

namespace Sys2Proof.Proofs

open Sys2Proof.Machine

/-- Settles O5: whether the gate lets NOP through or ignores it, the state is the same. -/
theorem nopResult : Obligations.NopResult := by
  unfold Obligations.NopResult
  exact exec_nop_eq

/-- Settles O6: CLRF does not pass the gate, so it clears the three fault fields from every state. -/
theorem clrfResult : Obligations.ClrfResult := by
  unfold Obligations.ClrfResult
  intro s
  rw [exec_clrf, State.clearFault]

/-- Settles O7: the gate decides between clearing the statistics and doing nothing. -/
theorem clrsResult : Obligations.ClrsResult := by
  unfold Obligations.ClrsResult
  intro s
  refine ⟨fun hs => ?_, exec_clrs_of_fault⟩
  rw [exec_clrs_of_no_fault (not_not.1 hs), State.clearStats]

end Sys2Proof.Proofs
end

section
/-!
SUPPORT. The kind check of the execution sequence (spec 60_exceptions.md R421, R422): where it stands in the body of each
command that reads W, and that a ready command stops there when W is of the other kind.
-/

namespace Sys2Proof.Machine

/-! ### Which commands need which kind -/

theorem kindNeeded_eq_bits_iff (i : Instr) :
    kindNeeded i = some 0 ↔ i ∈ [Instr.hamEnc, .hamDec, .hamEnc1, .hamDec1, .parAdd, .parChk, .cksAdd, .cksChk, .crcAdd,
      .crcChk, .bcfFrm, .bcfUnf, .bsfFrm, .bsfUnf, .ysfFrm, .ysfUnf, .nrzMod, .manMod, .amiMod, .askMod, .fskMod, .qpskMod,
      .qamMod] := by
  cases i <;> decide

theorem kindNeeded_eq_samples_iff (i : Instr) :
    kindNeeded i = some 1 ↔ i ∈ [Instr.nrzDem, .manDem, .amiDem, .askDem, .fskDem, .qpskDem, .qamDem] := by
  cases i <;> decide

/-! ### Commands that need bits -/

/-- In a command that needs bits the kind check comes right after the configuration check (R422). -/
theorem exec_eq_needBits_bind {i : Instr} (hi : kindNeeded i = some 0) (s : State) :
    ∃ rest, exec i s = runCommand s (configCheck i s >>= fun _ => needBits s >>= rest) := by
  cases i
  case nop | clrf | clrs | srst | nrzDem | manDem | amiDem | askDem | fskDem | qpskDem | qamDem =>
    exact absurd hi (by decide)
  all_goals exact ⟨_, rfl⟩

theorem exec_of_needs_bits_of_samples {i : Instr} {s : State} {x : List Sample} (hi : kindNeeded i = some 0)
    (hs : s.Ready i) (hw : s.w = .samples x) : exec i s = .next (s.raise ⟨.badKind, 1, 0⟩) := by
  obtain ⟨hfault, hcfg⟩ := hs
  obtain ⟨rest, hexec⟩ := exec_eq_needBits_bind hi s
  rw [hexec, configCheck_of_legal hcfg, ok_bind, needBits_of_samples hw, error_bind, runCommand_error hfault]

/-! ### Commands that need samples -/

/-- In a demodulator other than QAM.DEM the kind check comes right after the configuration check (R422). -/
theorem exec_eq_needSamples_bind {i : Instr} (hi : kindNeeded i = some 1) (hqam : i ≠ .qamDem) (s : State) :
    ∃ rest, exec i s = runCommand s (configCheck i s >>= fun _ => needSamples s >>= rest) := by
  cases i
  case qamDem => exact absurd rfl hqam
  case nrzDem | manDem | amiDem | askDem | fskDem | qpskDem => exact ⟨_, rfl⟩
  all_goals exact absurd hi (by decide)

theorem energyCheck_of_not_zeroEnergy {s : State} (h : ¬ s.ZeroEnergy) :
    energyCheck s.params.arith (regNat s.cfg.samplingRate) (regNat s.cfg.carrierFreq) s.spb = .ok () := by
  rw [energyCheck, if_neg (mt (zeroEnergy_iff s).1 h)]

/-- QAM.DEM that is ready runs the zero-energy check before the kind check (44_carrier.md R331). -/
theorem exec_qamDem_of_ready {s : State} (hs : s.Ready .qamDem) :
    exec .qamDem s = runCommand s (do
      energyCheck s.params.arith (regNat s.cfg.samplingRate) (regNat s.cfg.carrierFreq) s.spb
      let x ← needSamples s
      bufWrite s (.bits ((windows s.spb x).flatMap (qamDecide s.params.arith (regNat s.cfg.samplingRate)
        (regNat s.cfg.carrierFreq) s.spb s.cfg.amplitude s.params.qamScale)))) := by
  obtain ⟨_, hcfg⟩ := hs
  obtain ⟨hfs, _⟩ := hcfg .samplingRate (by decide)
  obtain ⟨hbr, _⟩ := hcfg .bitRate (by decide)
  obtain ⟨hf, _⟩ := hcfg .carrierFreq (by decide)
  show execQamDem s = _
  rw [execQamDem, configCheck_of_legal hcfg, readSamplingRate_of_set hfs, readSpb_of_set hfs hbr,
    readCarrierFreq_of_set hf]
  rfl

theorem exec_of_needs_samples_of_bits {i : Instr} {s : State} {b : List Bit} (hi : kindNeeded i = some 1)
    (hs : s.Ready i) (hw : s.w = .bits b) (henergy : i = .qamDem → ¬ s.ZeroEnergy) :
    exec i s = .next (s.raise ⟨.badKind, 0, 1⟩) := by
  have ⟨hfault, hcfg⟩ := hs
  by_cases hqam : i = .qamDem
  · subst hqam
    rw [exec_qamDem_of_ready hs, energyCheck_of_not_zeroEnergy (henergy rfl), ok_bind, needSamples_of_bits hw, error_bind,
      runCommand_error hfault]
  · obtain ⟨rest, hexec⟩ := exec_eq_needSamples_bind hi hqam s
    rw [hexec, configCheck_of_legal hcfg, ok_bind, needSamples_of_bits hw, error_bind, runCommand_error hfault]

end Sys2Proof.Machine

namespace Sys2Proof.Proofs

open Sys2Proof.Machine

/-- Settles O15: nothing that depends on W's elements comes before the kind check, so its fault is what a ready command
raises. -/
theorem wrongKindFaults : Obligations.WrongKindFaults := by
  unfold Obligations.WrongKindFaults
  intro i s hs
  constructor
  · intro x hw hi
    exact exec_of_needs_bits_of_samples ((kindNeeded_eq_bits_iff i).2 hi) hs hw
  · intro b hw hi henergy
    exact exec_of_needs_samples_of_bits ((kindNeeded_eq_samples_iff i).2 hi) hs hw henergy

end Sys2Proof.Proofs
end

section
/-!
SUPPORT. The reset value of AMPLITUDE as the rational sample of spec 70_reset_and_hazards.md R471.
--/

namespace Sys2Proof

theorem Sample.ofRat_of_ne_zero {r : Rat} (hr : r ≠ 0) : Sample.ofRat r = ⟨[(0, r)]⟩ := if_neg hr

/-- `Cfg.reset` writes the term list of AMPLITUDE's 5 out. -/
theorem Machine.Cfg.reset_amplitude : Machine.Cfg.reset.amplitude = Sample.ofRat 5 :=
  (Sample.ofRat_of_ne_zero (by decide)).symm

end Sys2Proof

namespace Sys2Proof.Proofs

open Sys2Proof.Machine

/-- Settles O4: every field but AMPLITUDE stands in the reset state as R471 writes it, and AMPLITUDE's term list is the
sample 5. -/
theorem resetValues : Obligations.ResetValues := by
  unfold Obligations.ResetValues
  have hamplitude : State.reset.cfg.amplitude = Sample.ofRat 5 := Cfg.reset_amplitude
  exact ⟨rfl, rfl, rfl, rfl, hamplitude, rfl, rfl, rfl, rfl, rfl, rfl, rfl, rfl, rfl, rfl⟩

end Sys2Proof.Proofs
end

section
/-!
SUPPORT. What every command and every host action keeps: the next state there always is, the fields a command leaves,
and the invariant (spec 10_state.md sections 1, 3 and 5, 46_host_interface.md section 1, 60_exceptions.md sections 1
and 3).
-/

namespace Sys2Proof.Machine

/-! ### The code length of a legal HAM_M -/

theorem exists_isParityCount (m : Nat) : ∃ r, IsParityCount m r := by
  have hsome : ∃ r, m + r + 1 ≤ 2 ^ r := by
    have hlt : m < 2 ^ m := Nat.lt_two_pow_self
    refine ⟨m + 1, ?_⟩
    rw [Nat.pow_succ]
    omega
  exact ⟨Nat.find hsome, Nat.find_spec hsome, fun r hr => Nat.lt_of_not_le (Nat.find_min hsome hr)⟩

/-- Eight check bits suffice up to 247 data bits (R47). -/
theorem IsParityCount.le_eight {m r : Nat} (h : IsParityCount m r) (hm : m ≤ 247) : r ≤ 8 := by
  by_contra hr
  have hlt := h.2 8 (by omega)
  omega

theorem isLegal_hamM_iff {ar : Arith} {i : Instr} {c : Cfg} :
    c.isLegal ar i .hamM = true ↔ 1 ≤ c.hamM.toNat ∧ c.hamM.toNat ≤ 247 := by
  simp [Cfg.isLegal]

theorem isLegal_maxFrameBytes_iff {ar : Arith} {i : Instr} {c : Cfg} :
    c.isLegal ar i .maxFrameBytes = true ↔ 64 ≤ regNat c.maxFrameBytes ∧ regNat c.maxFrameBytes ≤ 1024 := by
  simp [Cfg.isLegal]

/-- A codeword of a legal HAM_M has at most 255 bits. -/
theorem nOf_le_of_legal {ar : Arith} {i : Instr} {c : Cfg} (h : c.isLegal ar i .hamM = true) :
    nOf c.hamM.toNat ≤ 255 := by
  obtain ⟨_, hm⟩ := isLegal_hamM_iff.1 h
  obtain ⟨r, hr⟩ := exists_isParityCount c.hamM.toNat
  rw [nOf_eq hr]
  exact Nat.add_le_add hm (hr.le_eight hm)

/-! ### The information words of a fault -/

/-- The register numbers of the fields that can be unset (R35, R37). -/
theorem number_of_isUnset {c : Cfg} {g : CfgField} (h : c.isUnset g = true) :
    0x10 ≤ g.number ∧ g.number ≤ 0x15 ∧ g.number ≠ 0x13 := by
  cases g
  case amplitude | crcPoly | hamM => exact absurd h Bool.false_ne_true
  all_goals decide

theorem number_bounds (g : CfgField) : 0x10 ≤ g.number ∧ g.number ≤ 0x17 := by
  cases g <;> decide

theorem toNat_ofNat_number (g : CfgField) : (BitVec.ofNat 32 g.number).toNat = g.number := by
  cases g <;> rfl

/-- Every fault a state can raise writes information words that match its code (R420). -/
theorem State.CanRaise.faultInfoOk {s : State} {f : CmdFault} (h : s.CanRaise f) : (s.raise f).FaultInfoOk := by
  obtain ⟨code, i0, i1⟩ := f
  rcases h with ⟨hcode, h1, g, hg, h0⟩ | ⟨hcode, h1, g, h0⟩ | ⟨hcode, h0, h1⟩ | ⟨hcode, hl, h1⟩ | ⟨hcode, hl, h1⟩ |
    ⟨hcode, hcap⟩ <;> dsimp only at hcode <;> subst hcode
  case inl =>
    obtain ⟨hlo, hhi, hne⟩ := number_of_isUnset hg
    have hnum := toNat_ofNat_number g
    dsimp only at h0 h1
    subst h0 h1
    show _ ∧ _ ∧ _ ∧ _
    exact ⟨rfl, hlo.trans hnum.ge, hnum.le.trans hhi, fun h => hne (hnum.symm.trans (congrArg BitVec.toNat h))⟩
  case inr.inl =>
    obtain ⟨hlo, hhi⟩ := number_bounds g
    have hnum := toNat_ofNat_number g
    dsimp only at h0 h1
    subst h0 h1
    show _ ∧ _ ∧ _
    exact ⟨rfl, hlo.trans hnum.ge, hnum.le.trans hhi⟩
  case inr.inr.inl =>
    dsimp only at h0 h1
    subst h0 h1
    show _ ∨ _
    cases s.w
    · exact .inl ⟨rfl, rfl⟩
    · exact .inr ⟨rfl, rfl⟩
  case inr.inr.inr.inl =>
    have hm := isLegal_hamM_iff.1 hl
    have hn := nOf_le_of_legal hl
    have hmn : s.cfg.hamM.toNat ≤ nOf s.cfg.hamM.toNat := Nat.le_add_right _ _
    dsimp only at h1
    show _ ∧ _
    simp only [State.raise_finfo1, BitVec.toNat_ofNat]
    omega
  case inr.inr.inr.inr.inl =>
    have hm := isLegal_maxFrameBytes_iff.1 hl
    dsimp only at h1
    show _ ∧ _ ∧ _
    simp only [State.raise_finfo1, BitVec.toNat_ofNat]
    omega
  case inr.inr.inr.inr.inr => exact ⟨i1, hcap, rfl⟩

/-! ### Every command answers a next state, and what it leaves -/

theorem State.Completes.fault_eq {s t : State} (h : s.Completes t) : t.st.fault = s.st.fault := by rw [h.2]

/-- What any command can do to a state, said once: it is ignored, it is a system command, it completes, or it enters a
fault. -/
inductive Executes (i : Instr) (s : State) : State → Prop
  | ignored : s.Faulted → i ≠ .clrf → i ≠ .srst → Executes i s s
  | nop : i = .nop → Executes i s s
  | clrf : i = .clrf → Executes i s s.clearFault
  | clrs : i = .clrs → s.st.fault = .none → Executes i s s.clearStats
  | srst : i = .srst → Executes i s s.resetCore
  | completes {t : State} : kindNeeded i ≠ none → s.st.fault = .none → s.Completes t → Executes i s t
  | raises {f : CmdFault} : kindNeeded i ≠ none → s.st.fault = .none → s.CanRaise f → Executes i s (s.raise f)

/-- Every command answers a next state (R422, R425). -/
theorem exists_exec (i : Instr) (s : State) : ∃ t, exec i s = .next t ∧ Executes i s t := by
  by_cases hi : kindNeeded i = none
  · have hi := (kindNeeded_eq_none_iff i).1 hi
    simp only [List.mem_cons, List.not_mem_nil, or_false] at hi
    rcases hi with rfl | rfl | rfl | rfl
    · exact ⟨s, exec_nop_eq s, .nop rfl⟩
    · exact ⟨_, exec_clrf s, .clrf rfl⟩
    · by_cases hs : s.st.fault = .none
      · exact ⟨_, exec_clrs_of_no_fault hs, .clrs rfl hs⟩
      · exact ⟨s, exec_clrs_of_fault hs, .ignored hs nofun nofun⟩
    · exact ⟨_, exec_srst s, .srst rfl⟩
  · by_cases hs : s.st.fault = .none
    · rcases exec_cases hi hs with ⟨t, ht, hc⟩ | ⟨f, hf, hr⟩
      · exact ⟨t, ht, .completes hi hs hc⟩
      · exact ⟨_, hf, .raises hi hs hr⟩
    · exact ⟨s, exec_of_fault hi hs, .ignored hs (by rintro rfl; exact hi rfl) (by rintro rfl; exact hi rfl)⟩

theorem Executes.of_exec {i : Instr} {s t : State} (h : exec i s = .next t) : Executes i s t := by
  obtain ⟨u, hu, he⟩ := exists_exec i s
  cases hu.symm.trans h
  exact he

/-- While a fault is pending, every command but CLRF and SRST changes nothing (R426). -/
theorem exec_eq_self_of_fault {i : Instr} {s : State} (h : s.Faulted) (hclrf : i ≠ .clrf) (hsrst : i ≠ .srst) :
    exec i s = .next s := by
  obtain ⟨t, ht, he⟩ := exists_exec i s
  cases he
  case ignored | nop => exact ht
  case clrf hi => exact absurd hi hclrf
  case srst hi => exact absurd hi hsrst
  case clrs _ hs | completes _ hs _ | raises _ hs _ => exact absurd hs h

/-- A command that turns an unfaulted state into a faulted one did so by fault entry, which keeps all but the fault
registers (R425). -/
theorem Executes.fault_frame {i : Instr} {s t : State} (h : Executes i s t) (hs : ¬ s.Faulted) (ht : t.Faulted) :
    t = { s with st := { s.st with fault := t.st.fault, finfo0 := t.st.finfo0, finfo1 := t.st.finfo1 } } := by
  cases h
  case raises => rfl
  case ignored | nop | clrs => exact absurd ht hs
  case clrf | srst => exact absurd rfl ht
  case completes _ hnone hc => exact absurd (hc.fault_eq.trans hnone) ht

/-- No command writes the parameters or the host's fields, and only SRST writes the configuration. -/
theorem Executes.cfg_kept {i : Instr} {s t : State} (h : Executes i s t) :
    t.params = s.params ∧ t.program = s.program ∧ t.returned = s.returned ∧ (i ≠ .srst → t.cfg = s.cfg) := by
  cases h
  case srst hi => exact ⟨rfl, rfl, rfl, fun hne => absurd hi hne⟩
  case completes _ _ hc =>
    rw [hc.2]
    exact ⟨rfl, rfl, rfl, fun _ => rfl⟩
  all_goals exact ⟨rfl, rfl, rfl, fun _ => rfl⟩

/-! ### Which statistics a command writes -/

/-- A command's body, where it reaches its end, ends in a state with `P`. -/
def AnswersIn (P : State → Prop) (x : CmdResult State) : Prop := ∀ t, x = .ok t → P t

theorem AnswersIn.bind {α : Type} {P : State → Prop} {x : CmdResult α} {f : α → CmdResult State}
    (h : ∀ a, AnswersIn P (f a)) : AnswersIn P (x >>= f) := fun t ht => by
  obtain ⟨a, _, hf⟩ := bind_eq_ok.1 ht
  exact h a t hf

theorem AnswersIn.guard {P : State → Prop} {c : Prop} [Decidable c] {f : CmdFault} {x : CmdResult State}
    (h : AnswersIn P x) : AnswersIn P (if c then .error f else x) := by
  split
  · exact fun t ht => by cases ht
  · exact h

/-- The buffer write leaves every status register. -/
theorem answersIn_bufWrite (s : State) (v : Buffer) : AnswersIn (fun t => t.st = s.st) (bufWrite s v) := fun t ht => by
  rcases bufWrite_cases s v with ⟨_, h⟩ | ⟨_, _, _, h⟩ <;> cases h.symm.trans ht
  rfl

/-- A body that ends in the buffer write and one write of a statistic leaves what that write leaves. -/
theorem answersIn_bufWrite_andThen {P : State → Prop} {s : State} {v : Buffer} {u : State → State}
    (h : ∀ t, t.st = s.st → P (u t)) : AnswersIn P (bufWrite s v >>= fun t => .ok (u t)) := fun t ht => by
  obtain ⟨r, hr, hu⟩ := bind_eq_ok.1 ht
  cases hu
  exact h r (answersIn_bufWrite s v r hr)

/-- The statistics a command that reads W leaves: ERR but for the check commands, CORR but for HAM.DEC, SYND but for
HAM.DEC1 (R51 to R53). -/
def KeepsStats (i : Instr) (s t : State) : Prop :=
  (i ∉ [.parChk, .cksChk, .crcChk] → t.st.err = s.st.err) ∧ (i ≠ .hamDec → t.st.corr = s.st.corr) ∧
    (i ≠ .hamDec1 → t.st.synd = s.st.synd)

theorem KeepsStats.of_st_eq {i : Instr} {s t : State} (h : t.st = s.st) : KeepsStats i s t := by
  rw [KeepsStats, h]
  exact ⟨fun _ => rfl, fun _ => rfl, fun _ => rfl⟩

theorem keepsStats_bufWrite (i : Instr) (s : State) (v : Buffer) : AnswersIn (KeepsStats i s) (bufWrite s v) :=
  fun t ht => .of_st_eq (answersIn_bufWrite s v t ht)

theorem keepsStats_bufWrite_setErr {i : Instr} (hi : i ∈ [.parChk, .cksChk, .crcChk]) (s : State) (v : Buffer)
    (e : Bool) : AnswersIn (KeepsStats i s) (bufWrite s v >>= fun t => .ok (t.setErr e)) :=
  answersIn_bufWrite_andThen fun _ ht => ⟨fun h => absurd hi h, fun _ => ht ▸ rfl, fun _ => ht ▸ rfl⟩

/-- The body of a command that reads W writes no statistic but its own. -/
theorem exec_eq_runCommand_keepsStats {i : Instr} (hi : kindNeeded i ≠ none) (s : State) :
    ∃ body, exec i s = runCommand s body ∧ AnswersIn (KeepsStats i s) body := by
  have hw (v : Buffer) := keepsStats_bufWrite i s v
  cases i
  case nop | clrf | clrs | srst => exact absurd rfl hi
  all_goals refine ⟨_, rfl, .bind fun _ => .bind fun _ => ?_⟩
  case parAdd | bcfUnf | bsfUnf | ysfUnf | hamEnc => exact hw _
  case hamEnc1 => exact .guard (hw _)
  case hamDec1 =>
    exact .guard (answersIn_bufWrite_andThen fun _ ht => ⟨fun _ => ht ▸ rfl, fun _ => ht ▸ rfl, nofun⟩)
  case hamDec => exact answersIn_bufWrite_andThen fun _ ht => ⟨fun _ => ht ▸ rfl, nofun, fun _ => ht ▸ rfl⟩
  case parChk => exact keepsStats_bufWrite_setErr (by decide) s _ _
  case cksChk | crcChk => exact .bind fun _ => keepsStats_bufWrite_setErr (by decide) s _ _
  case cksAdd | crcAdd | nrzDem | manDem => exact .bind fun _ => hw _
  case bcfFrm | bsfFrm | ysfFrm | nrzMod | manMod | amiMod | amiDem | askDem =>
    exact .bind fun _ => .bind fun _ => hw _
  case fskDem | qpskDem => exact .bind fun _ => .bind fun _ => .bind fun _ => hw _
  case askMod | fskMod | qpskMod | qamMod =>
    exact .bind fun _ => .bind fun _ => .bind fun _ => .bind fun _ => hw _
  case qamDem => exact .bind fun _ => .bind fun _ => .bind fun _ => .bind fun _ => .bind fun _ => hw _

/-- What a command that reads W does to the statistics, whether it completes, faults or is ignored. -/
theorem keepsStats_of_exec {i : Instr} {s t : State} (hi : kindNeeded i ≠ none) (h : exec i s = .next t) :
    KeepsStats i s t := by
  obtain ⟨body, hexec, hbody⟩ := exec_eq_runCommand_keepsStats hi s
  rw [hexec] at h
  rcases runCommand_cases s body with ⟨_, hrun⟩ | ⟨_, r, hr, hrun⟩ | ⟨_, f, _, hrun⟩ <;> cases hrun.symm.trans h
  · exact .of_st_eq rfl
  · exact hbody t hr
  · exact ⟨fun _ => rfl, fun _ => rfl, fun _ => rfl⟩

/-- Only CLRF, SRST and the commands that enter a fault with none pending write the fault registers. -/
theorem Executes.fault_kept {i : Instr} {s t : State} (h : Executes i s t) (hi : i ∉ [.clrf, .srst])
    (hst : s.Faulted ∨ ¬ t.Faulted) :
    t.st.fault = s.st.fault ∧ t.st.finfo0 = s.st.finfo0 ∧ t.st.finfo1 = s.st.finfo1 := by
  cases h
  case ignored | nop | clrs => exact ⟨rfl, rfl, rfl⟩
  case clrf h | srst h => simp [h] at hi
  case completes _ _ hc =>
    rw [hc.2]
    exact ⟨rfl, rfl, rfl⟩
  case raises _ hnone hr => exact absurd hr.code_ne_none (hst.resolve_left (not_not.2 hnone))

/-- NOP, CLRF and CLRS leave W (R350 to R352). -/
theorem Executes.w_kept {i : Instr} {s t : State} (h : Executes i s t) (hi : i ∈ [.nop, .clrf, .clrs]) : t.w = s.w := by
  have hsys : kindNeeded i = none := (kindNeeded_eq_none_iff i).2 
    (show i ∈ [Instr.nop, .clrf, .clrs] ++ [.srst] from List.mem_append_left _ hi)
  cases h
  case ignored | nop | clrf | clrs => rfl
  case srst h => simp [h] at hi
  case completes h _ _ | raises h _ _ => exact absurd hsys h

/-- What a system command leaves of the statistics: only CLRS and SRST write them. -/
theorem Executes.stats_kept {i : Instr} {s t : State} (h : Executes i s t) (hi : kindNeeded i = none)
    (hclrs : i ≠ .clrs) (hsrst : i ≠ .srst) :
    t.st.err = s.st.err ∧ t.st.corr = s.st.corr ∧ t.st.synd = s.st.synd := by
  cases h
  case ignored | nop | clrf => exact ⟨rfl, rfl, rfl⟩
  case clrs h _ => exact absurd h hclrs
  case srst h => exact absurd h hsrst
  case completes h _ _ | raises h _ _ => exact absurd hi h

/-- Every command but CLRS and SRST writes no statistic but its own (R51 to R53). -/
theorem keepsStats_of_ne {i : Instr} {s t : State} (h : exec i s = .next t) (hclrs : i ≠ .clrs) (hsrst : i ≠ .srst) :
    KeepsStats i s t := by
  by_cases hi : kindNeeded i = none
  · obtain ⟨herr, hcorr, hsynd⟩ := (Executes.of_exec h).stats_kept hi hclrs hsrst
    exact ⟨fun _ => herr, fun _ => hcorr, fun _ => hsynd⟩
  · exact keepsStats_of_exec hi h

/-! ### The invariant -/

/-- The invariant is about W, CRC_POLY, the fault registers and the parameters. -/
theorem State.Inv.congr {s t : State} (h : s.Inv) (hw : t.w = s.w) (hpoly : t.cfg.crcPoly = s.cfg.crcPoly)
    (hparams : t.params = s.params) (hfault : t.st.fault = s.st.fault) (h0 : t.st.finfo0 = s.st.finfo0)
    (h1 : t.st.finfo1 = s.st.finfo1) : t.Inv := by
  refine ⟨by rw [hparams, hw]; exact h.fits, by rw [hpoly]; exact h.poly, ?_⟩
  have hinfo := h.info
  unfold State.FaultInfoOk at hinfo ⊢
  rwa [hparams, hfault, h0, h1]

theorem State.Inv.withW {s : State} (h : s.Inv) {v : Buffer} (hv : bufFits s.params v.length = true) :
    State.Inv { s with w := v } := ⟨hv, h.poly, h.info⟩

theorem bufFits_zero (p : Params) : bufFits p 0 = true := (bufFits_iff 0).2 fun cap _ => Nat.zero_le cap

theorem State.Inv.executes {i : Instr} {s t : State} (h : s.Inv) (he : Executes i s t) : t.Inv := by
  cases he
  case ignored | nop => exact h
  case clrf => exact ⟨h.fits, h.poly, rfl, rfl⟩
  case clrs => exact h.congr rfl rfl rfl rfl rfl rfl
  case srst => exact ⟨bufFits_zero s.params, nofun, rfl, rfl⟩
  case completes _ _ hc =>
    have hw := h.withW hc.1
    rw [hc.2]
    exact hw.congr rfl rfl rfl rfl rfl rfl
  case raises _ _ hr => exact ⟨h.fits, h.poly, hr.faultInfoOk⟩

/-- A reserved word's fault holds the word (R113). -/
theorem State.Inv.execReserved {s t : State} {c : Byte} (h : s.Inv) (hc : ¬ IsCommandWord c)
    (ht : execReserved c s = .next t) : t.Inv := by
  rcases runCommand_cases s (.error ⟨.badOpcode, c.toNat, 0⟩) with ⟨_, hrun⟩ | ⟨_, _, hok, _⟩ | ⟨_, f, hf, hrun⟩
  · cases hrun.symm.trans ht
    exact h
  · cases hok
  · cases hf
    cases hrun.symm.trans ht
    rw [raise_badOpcode]
    exact ⟨h.fits, h.poly, rfl, c, rfl, hc⟩

theorem execWord_of_decode {c : Byte} {i : Instr} (h : decode c = .ok i) (s : State) : execWord c s = exec i s := by
  simp [execWord, h]

theorem State.Inv.execWord {s t : State} {c : Byte} (h : s.Inv) (ht : execWord c s = .next t) : t.Inv := by
  by_cases hc : IsCommandWord c
  · obtain ⟨i, hi⟩ := hc
    rw [execWord_of_decode hi] at ht
    exact h.executes (.of_exec ht)
  · rw [execWord_of_not_isCommandWord hc] at ht
    exact h.execReserved hc ht

theorem crcPolyOf_ne (v : Word32) : crcPolyOf v ≠ .poly 0 := by
  unfold crcPolyOf
  split
  · exact nofun
  · simpa

/-- A register write never stores 0 in CRC_POLY (R46). -/
theorem State.Inv.writeReg {s : State} (h : s.Inv) (n : Byte) (v : Word32) : (writeReg n v s).Inv := by
  refine ⟨by simpa using h.fits, ?_, ?_⟩
  · rw [writeReg_crcPoly]
    split
    · exact crcPolyOf_ne v
    · exact h.poly
  · have hinfo := h.info
    unfold State.FaultInfoOk at hinfo ⊢
    simpa using hinfo

/-- The channel keeps the number of samples (R380). -/
theorem State.Inv.runChan {s t : State} {d : Draw} (h : s.Inv) (ht : runChan d s = .next t) : t.Inv := by
  have hfits := h.fits
  unfold Machine.runChan at ht
  cases hw : s.w with
  | bits b => simp [hw] at ht
  | samples x =>
    rw [hw] at hfits
    cases d with
    | zero =>
      simp only [hw] at ht
      cases ht
      exact h.withW (by simpa [addDraw, Buffer.length] using hfits)
    | seq e =>
      simp only [hw] at ht
      split at ht
      case isTrue he =>
        cases ht
        exact h.withW (by simpa [addDraw, Buffer.length, he] using hfits)
      case isFalse => cases ht

theorem State.Inv.runAction {s t : State} {a : HostAction} (h : s.Inv) (ht : runAction a s = .next t) : t.Inv := by
  cases a with
  | loadw v =>
    change runLoadw v s = .next t at ht
    unfold runLoadw at ht
    split at ht
    case isTrue hv =>
      cases ht
      exact h.withW hv
    case isFalse => cases ht
  | readw | rdreg | wrAmplitude =>
    cases ht
    exact h.congr rfl rfl rfl rfl rfl rfl
  | wrreg n v =>
    change runWrreg n v s = .next t at ht
    unfold runWrreg at ht
    split at ht
    · split at ht
      · exact h.execWord ht
      · cases ht
    · cases ht
      exact h.writeReg n v
  | exec c => exact h.execWord ht
  | chan d => exact h.runChan ht

end Sys2Proof.Machine

namespace Sys2Proof.Proofs

open Sys2Proof.Machine

/-- Settles O59: taking the next host action off the program keeps the invariant, and so does every action. -/
theorem stepKeepsInvariant : Obligations.StepKeepsInvariant := by
  unfold Obligations.StepKeepsInvariant
  intro s t h ht
  change runNext s = .next t at ht
  unfold runNext at ht
  split at ht
  · cases ht
    exact h
  · rename_i a rest _
    have hrest : State.Inv { s with program := rest } := h.congr rfl rfl rfl rfl rfl rfl
    exact hrest.runAction ht

/-- Settles O60: the reset buffer is empty, CRC_POLY holds STD, and no fault is pending. -/
theorem resetInvariant : Obligations.ResetInvariant :=
  ⟨bufFits_zero _, nofun, rfl, rfl⟩

/-- Settles O9: a pending fault makes the gate ignore every command but CLRF and SRST, whose words are 0x01 and 0x03. -/
theorem pendingFaultIgnored : Obligations.PendingFaultIgnored := by
  unfold Obligations.PendingFaultIgnored
  refine fun s hs => ⟨fun i hclrf hsrst => exec_eq_self_of_fault hs hclrf hsrst, fun c h1 h3 => ?_⟩
  by_cases hc : IsCommandWord c
  · obtain ⟨i, hi⟩ := hc
    have hword := encode_of_decode hi
    rw [execWord_of_decode hi]
    refine exec_eq_self_of_fault hs ?_ ?_ <;> rintro rfl
    · exact h1 hword.symm
    · exact h3 hword.symm
  · rw [execWord_of_not_isCommandWord hc]
    exact runCommand_of_fault hs _

/-- Settles O11: of the ways a command can go, only fault entry ends in a faulted state it did not start in. -/
theorem faultEntry : Obligations.FaultEntry := by
  unfold Obligations.FaultEntry
  refine ⟨fun i s => ?_, fun s code i0 i1 =>
    ⟨BitVec.ofNat 32 i0, BitVec.ofNat 32 i1, rfl, BitVec.toNat_ofNat i0 32, BitVec.toNat_ofNat i1 32⟩⟩
  obtain ⟨t, ht, he⟩ := exists_exec i s
  exact ⟨t, ht, he.fault_frame⟩

/-- Settles O18: of the ways a command can go, only SRST's writes the configuration, and none the parameters or the
host's fields. -/
theorem configurationKept : Obligations.ConfigurationKept := by
  unfold Obligations.ConfigurationKept
  exact fun i s t h => (Executes.of_exec h).cfg_kept

/-- Settles O19: a body that reads W writes no statistic but its own, and the other writers are the system commands and
fault entry. -/
theorem statusWriters : Obligations.StatusWriters := by
  unfold Obligations.StatusWriters
  intro i s t h
  have he := Executes.of_exec h
  refine ⟨fun hi => ?_, fun hi => ?_, fun hi => ?_, he.fault_kept, he.w_kept⟩
  · obtain ⟨herr, _, _⟩ := keepsStats_of_ne h (by rintro rfl; simp at hi) (by rintro rfl; simp at hi)
    exact herr fun hm => hi (show i ∈ [Instr.parChk, .cksChk, .crcChk] ++ [.clrs, .srst] from List.mem_append_left _ hm)
  · obtain ⟨_, hcorr, _⟩ := keepsStats_of_ne h (by rintro rfl; simp at hi) (by rintro rfl; simp at hi)
    exact hcorr (by rintro rfl; simp at hi)
  · obtain ⟨_, _, hsynd⟩ := keepsStats_of_ne h (by rintro rfl; simp at hi) (by rintro rfl; simp at hi)
    exact hsynd (by rintro rfl; simp at hi)

end Sys2Proof.Proofs
end

section
/-!
SUPPORT. What a command other than SRST does depends on no configuration field but those it reads
(spec 10_state.md section 4).
-/

namespace Sys2Proof.Machine

/-! ### The configuration check under another configuration -/

theorem isUnset_of_agrees {c c' : Cfg} {f : CfgField} (h : c.Agrees c' f) : c'.isUnset f = c.isUnset f := by
  cases f <;> simp_all [Cfg.Agrees, Cfg.isUnset]

/-- The legality of BIT_RATE also depends on SAMPLING_RATE, which every command that reads BIT_RATE reads (R41, R48). -/
theorem samplingRate_mem_of_bitRate_mem (i : Instr) (h : .bitRate ∈ fieldsRead i) : .samplingRate ∈ fieldsRead i := by
  revert h
  cases i <;> decide

/-- The legality of CRC_POLY also depends on EDC_WIDTH, which every command that reads CRC_POLY reads (R46, R48). -/
theorem edcWidth_mem_of_crcPoly_mem (i : Instr) (h : .crcPoly ∈ fieldsRead i) : .edcWidth ∈ fieldsRead i := by
  revert h
  cases i <;> decide

theorem isLegal_of_agrees {ar : Arith} {i : Instr} {c c' : Cfg} (h : ∀ f ∈ fieldsRead i, c.Agrees c' f) {f : CfgField}
    (hf : f ∈ fieldsRead i) : c'.isLegal ar i f = c.isLegal ar i f := by
  have hfield := h f hf
  cases f with
  | bitRate =>
    have hrate := h _ (samplingRate_mem_of_bitRate_mem i hf)
    simp_all [Cfg.Agrees, Cfg.isLegal]
  | crcPoly =>
    have hwidth := h _ (edcWidth_mem_of_crcPoly_mem i hf)
    simp_all [Cfg.Agrees, Cfg.isLegal]
  | _ => simp_all [Cfg.Agrees, Cfg.isLegal]

/-- The state with another configuration. -/
def State.withCfg (s : State) (c : Cfg) : State := { s with cfg := c }

section
variable {s : State} {c : Cfg} {i : Instr}

theorem configCheck_withCfg (h : ∀ f ∈ fieldsRead i, s.cfg.Agrees c f) :
    configCheck i (s.withCfg c) = configCheck i s := by
  have hunset : (fieldsRead i).find? (fun f => c.isUnset f) = (fieldsRead i).find? (fun f => s.cfg.isUnset f) :=
    List.find?_congr fun f hf => isUnset_of_agrees (h f hf)
  have hlegal : (fieldsRead i).find? (fun f => !c.isLegal s.params.arith i f) =
      (fieldsRead i).find? (fun f => !s.cfg.isLegal s.params.arith i f) :=
    List.find?_congr fun f hf => by rw [isLegal_of_agrees h hf]
  unfold configCheck
  simp only [State.withCfg, hunset, hlegal]

theorem cfgRead_withCfg {f : CfgField} {o o' : Option Word32} (h : o = o') : cfgRead f o' = cfgRead f o := by rw [h]

theorem readSpb_withCfg (hfs : s.cfg.Agrees c .samplingRate) (hbr : s.cfg.Agrees c .bitRate) :
    readSpb (s.withCfg c) = readSpb s := by
  have hfs : s.cfg.samplingRate = c.samplingRate := hfs
  have hbr : s.cfg.bitRate = c.bitRate := hbr
  unfold readSpb
  rw [hfs, hbr]
  rfl

theorem readHamM_withCfg (h : s.cfg.Agrees c .hamM) : readHamM (s.withCfg c) = readHamM s := by
  have h : s.cfg.hamM = c.hamM := h
  unfold readHamM
  rw [h]
  rfl

theorem readAmplitude_withCfg (h : s.cfg.Agrees c .amplitude) : readAmplitude (s.withCfg c) = readAmplitude s := by
  have h : s.cfg.amplitude = c.amplitude := h
  unfold readAmplitude
  rw [h]
  rfl

theorem polyFor_withCfg (h : s.cfg.Agrees c .crcPoly) (wd : Nat) :
    (s.withCfg c).cfg.polyFor wd = s.cfg.polyFor wd := by
  have h : s.cfg.crcPoly = c.crcPoly := h
  unfold Cfg.polyFor
  rw [h]
  rfl

/-! ### A body under another configuration -/

/-- `y` is what `x` answers, with the configuration `c` in the state. -/
def SameUnder (c : Cfg) (x y : CmdResult State) : Prop := y = x.map fun t => t.withCfg c

/-- A part of the body that answers the same under both configurations goes before the rest. -/
theorem SameUnder.bind {α : Type} {x y : CmdResult α} {f g : α → CmdResult State} (hxy : y = x)
    (hfg : ∀ a, SameUnder c (f a) (g a)) : SameUnder c (x >>= f) (y >>= g) := by
  subst hxy
  cases y with
  | ok a => exact hfg a
  | error e => rfl

theorem SameUnder.guard {p : Prop} [Decidable p] {f : CmdFault} {x y : CmdResult State} (h : SameUnder c x y) :
    SameUnder c (if p then .error f else x) (if p then .error f else y) := by
  split
  · rfl
  · exact h

theorem sameUnder_bufWrite (s : State) (c : Cfg) (v : Buffer) :
    SameUnder c (bufWrite s v) (bufWrite (s.withCfg c) v) := by
  rcases bufWrite_cases s v with ⟨hfits, h⟩ | ⟨cap, hcap, hv, h⟩
  · rw [SameUnder, h, bufWrite_of_fits (s := s.withCfg c) hfits]
    rfl
  · rw [SameUnder, h, bufWrite_of_over (s := s.withCfg c) hcap hv]
    rfl

/-- A last write of a statistic does not read the configuration. -/
theorem SameUnder.andThen {x y : CmdResult State} {u : State → State} (h : SameUnder c x y)
    (hu : ∀ t, u (t.withCfg c) = (u t).withCfg c) :
    SameUnder c (x >>= fun t => .ok (u t)) (y >>= fun t => .ok (u t)) := by
  rw [SameUnder, show y = _ from h]
  cases x with
  | ok t => exact congrArg Except.ok (hu t)
  | error e => rfl

theorem runCommand_of_sameUnder {x y : CmdResult State} (h : SameUnder c x y) {t : State}
    (ht : runCommand s x = .next t) : runCommand (s.withCfg c) y = .next (t.withCfg c) := by
  rw [show y = _ from h]
  rcases runCommand_cases s x with ⟨hs, hrun⟩ | ⟨hs, r, rfl, hrun⟩ | ⟨hs, f, rfl, hrun⟩ <;>
    cases hrun.symm.trans ht
  · exact runCommand_of_fault (s := s.withCfg c) hs _
  · exact runCommand_ok (s := s.withCfg c) hs _
  · exact runCommand_error (s := s.withCfg c) hs f

/-- The bodies a command that reads W runs under two configurations that agree on the fields it reads. -/
theorem exec_sameUnder (hi : kindNeeded i ≠ none) (h : ∀ f ∈ fieldsRead i, s.cfg.Agrees c f) :
    ∃ x y, exec i s = runCommand s x ∧ exec i (s.withCfg c) = runCommand (s.withCfg c) y ∧ SameUnder c x y := by
  have hw (v : Buffer) := sameUnder_bufWrite s c v
  cases i
  case nop | clrf | clrs | srst => exact absurd rfl hi
  all_goals refine ⟨_, _, rfl, rfl, .bind (configCheck_withCfg h) fun _ => ?_⟩
  case parAdd | bcfUnf | bsfUnf | ysfUnf => exact .bind rfl fun _ => hw _
  case parChk => exact .bind rfl fun _ => (hw _).andThen fun _ => rfl
  case hamEnc => exact .bind rfl fun _ => .bind (readHamM_withCfg (h .hamM (by decide))) fun _ => hw _
  case hamEnc1 => exact .bind rfl fun _ => .bind (readHamM_withCfg (h .hamM (by decide))) fun _ => .guard (hw _)
  case hamDec =>
    exact .bind rfl fun _ => .bind (readHamM_withCfg (h .hamM (by decide))) fun _ => (hw _).andThen fun _ => rfl
  case hamDec1 =>
    exact .bind rfl fun _ => .bind (readHamM_withCfg (h .hamM (by decide))) fun _ =>
      .guard ((hw _).andThen fun _ => rfl)
  case cksAdd =>
    exact .bind rfl fun _ => .bind (cfgRead_withCfg (h .edcWidth (by decide))) fun _ => hw _
  case cksChk =>
    exact .bind rfl fun _ => .bind (cfgRead_withCfg (h .edcWidth (by decide))) fun _ => (hw _).andThen fun _ => rfl
  case crcAdd =>
    refine .bind rfl fun _ => .bind (cfgRead_withCfg (h .edcWidth (by decide))) fun wd => ?_
    rw [polyFor_withCfg (h .crcPoly (by decide))]
    exact hw _
  case crcChk =>
    refine .bind rfl fun _ => .bind (cfgRead_withCfg (h .edcWidth (by decide))) fun wd => ?_
    simp only [polyFor_withCfg (h .crcPoly (by decide))]
    exact (hw _).andThen fun _ => rfl
  case bcfFrm | bsfFrm | ysfFrm =>
    exact .bind rfl fun _ => .bind (cfgRead_withCfg (h .maxFrameBytes (by decide))) fun _ => .bind rfl fun _ => hw _
  all_goals
    have hfs := h .samplingRate (by decide)
    have hspb := readSpb_withCfg hfs (h .bitRate (by decide))
  case nrzMod | manMod | amiMod | amiDem | askDem =>
    exact .bind rfl fun _ => .bind hspb fun _ => .bind (readAmplitude_withCfg (h .amplitude (by decide))) fun _ => hw _
  case nrzDem | manDem => exact .bind rfl fun _ => .bind hspb fun _ => hw _
  all_goals
    have hrate := cfgRead_withCfg (f := .samplingRate) hfs
    have hcarrier := cfgRead_withCfg (f := .carrierFreq) (h .carrierFreq (by decide))
  case fskDem | qpskDem =>
    exact .bind rfl fun _ => .bind hrate fun _ => .bind hspb fun _ => .bind hcarrier fun _ => hw _
  all_goals have ha := readAmplitude_withCfg (h .amplitude (by decide))
  case askMod | fskMod | qpskMod | qamMod =>
    exact .bind rfl fun _ => .bind hrate fun _ => .bind hspb fun _ => .bind hcarrier fun _ => .bind ha fun _ => hw _
  case qamDem =>
    exact .bind hrate fun _ => .bind hspb fun _ => .bind hcarrier fun _ => .bind ha fun _ => .bind rfl fun _ =>
      .bind rfl fun _ => hw _

/-- A system command other than SRST does not read the configuration. -/
theorem exec_system_withCfg {t : State} (hi : kindNeeded i = none) (hsrst : i ≠ .srst) (ht : exec i s = .next t) :
    exec i (s.withCfg c) = .next (t.withCfg c) := by
  cases i
  case nop => exact runCommand_of_sameUnder (x := .ok s) rfl ht
  case clrf =>
    cases ht
    rfl
  case clrs => exact runCommand_of_sameUnder (x := .ok s.clearStats) rfl ht
  case srst => exact absurd rfl hsrst
  all_goals exact absurd hi (Option.some_ne_none _)

end

end Sys2Proof.Machine

namespace Sys2Proof.Proofs

open Sys2Proof.Machine

/-- Settles O14: under the two configurations the configuration check, every configuration read and so the whole body
answer the same. -/
theorem readsOnlyItsFields : Obligations.ReadsOnlyItsFields := by
  unfold Obligations.ReadsOnlyItsFields
  intro i s t c hsrst h ht
  by_cases hi : kindNeeded i = none
  · exact exec_system_withCfg hi hsrst ht
  · obtain ⟨x, y, hx, hy, hxy⟩ := exec_sameUnder hi h
    exact hy.trans (runCommand_of_sameUnder hxy (hx ▸ ht))

end Sys2Proof.Proofs
end

section
/-!
SUPPORT. The command words both ways, the legal values, and what the host actions do (spec 10_state.md section 3,
30_encoding.md R110, 46_host_interface.md section 1).
-/

namespace Sys2Proof.Machine

/-! ### Command words -/

theorem decode_encode (i : Instr) : decode (encode i) = .ok i := by
  cases i <;> decide

/-! ### The host's next action -/

/-- A step takes the next host action off the program and runs it (R376). -/
theorem step_of_program {s : State} {a : HostAction} {rest : List HostAction} (h : s.program = a :: rest) :
    step s = runAction a { s with program := rest } := by
  show runNext s = _
  rw [runNext, h]

/-- An 8-bit value written to CMD is executed (R375, 10_state.md R56). -/
theorem runWrreg_cmd {v : Word32} (h : v.toNat < 256) (s : State) : runWrreg 0x00 v s = execWord (v.setWidth 8) s := by
  rw [runWrreg, if_pos rfl, if_pos h, BitVec.ofNat_toNat]

theorem runWrreg_cmd_of_wide {v : Word32} (h : 256 ≤ v.toNat) (s : State) :
    runWrreg 0x00 v s = .refused .commandTooWide := by
  rw [runWrreg, if_pos rfl, if_neg (Nat.not_lt.2 h)]

theorem runWrreg_of_ne {n : Byte} (h : n ≠ 0x00) (v : Word32) (s : State) :
    runWrreg n v s = .next (writeReg n v s) := by
  rw [runWrreg, if_neg h]

/-- A register write changes the configuration only (R373). -/
theorem writeReg_eq (n : Byte) (v : Word32) (s : State) : writeReg n v s = { s with cfg := (writeReg n v s).cfg } := by
  unfold writeReg
  split_ifs <;> rfl

theorem runLoadw_of_fits {s : State} {v : Buffer} (h : bufFits s.params v.length = true) :
    runLoadw v s = .next { s with w := v } := if_pos h

theorem runLoadw_of_over {s : State} {v : Buffer} (h : bufFits s.params v.length = false) :
    runLoadw v s = .refused .loadwOverCapacity := if_neg (by simp [h])

theorem runChan_bits {s : State} {b : List Bit} (h : s.w = .bits b) (d : Draw) :
    runChan d s = .refused .chanOnBits := by
  simp [runChan, h]

theorem runChan_seq {s : State} {x e : List Sample} (h : s.w = .samples x) :
    runChan (.seq e) s =
      if e.length = x.length then .next { s with w := .samples (addDraw s.params.arith x e) }
      else .refused .chanDrawLength := by
  simp only [runChan, h]

theorem runChan_zero {s : State} {x : List Sample} (h : s.w = .samples x) :
    runChan .zero s =
      .next { s with w := .samples (addDraw s.params.arith x (List.replicate x.length Sample.zero)) } := by
  simp only [runChan, h]

/-- Over the reals the all-zero draw changes no sample. -/
theorem map_addDraw_zero {ar : Arith} {ρ : Sample → ℝ} (h : ar.IsReal ρ) (x : List Sample) :
    (addDraw ar x (List.replicate x.length Sample.zero)).map ρ = x.map ρ := by
  induction x with
  | nil => rfl
  | cons v x ih =>
    have hv : ρ (ar.add v Sample.zero) = ρ v := by rw [h.add, h.zero, add_zero]
    simpa [addDraw, List.replicate_succ, hv] using ih

/-! ### Register reads -/

/-- STATUS is FP in bit 1 and ERR in bit 0 (R55). -/
theorem statusByte_toNat (s : State) :
    s.statusByte.toNat = (if s.st.fault = .none then 0 else 2) + (if s.st.err then 1 else 0) := by
  unfold State.statusByte State.pending
  cases s.st.err <;> cases s.st.fault <;> rfl

theorem getStatus_eq (s : State) : getStatus s = (s.st.err, s.st.corr) := by
  unfold getStatus State.statusByte State.pending
  cases s.st.err <;> cases s.st.fault <;> rfl

theorem regNat_eq_getD (o : Option Word32) : regNat o = (o.map BitVec.toNat).getD 0 := by
  cases o <;> rfl

theorem toByte_toNat (c : FaultCode) : c.toByte.toNat = (match c with
    | .none => 0x00
    | .badOpcode => 0x01
    | .cfgUnset => 0x02
    | .cfgInvalid => 0x03
    | .badKind => 0x04
    | .badLength => 0x05
    | .frameTooLarge => 0x06
    | .overflow => 0x07) := by
  cases c <;> rfl

/-! ### Legal values -/

theorem minSpb_le_iff (i : Instr) (p : Nat) : minSpb i ≤ p ↔ 1 ≤ p ∧ (i = .manMod ∨ i = .manDem → 2 ≤ p) := by
  cases i
  case manMod | manDem =>
    simp [minSpb]
    omega
  all_goals simp [minSpb]

/-- R41's ranges of BIT_RATE, without the quotient SPB. -/
theorem isLegal_bitRate_iff {ar : Arith} {i : Instr} {c : Cfg} :
    c.isLegal ar i .bitRate = true ↔ 1 ≤ regNat c.bitRate ∧ regNat c.bitRate ≤ 1000 ∧
      regNat c.bitRate ∣ regNat c.samplingRate ∧ regNat c.bitRate ≤ regNat c.samplingRate ∧
      (i = .manMod ∨ i = .manDem → 2 * regNat c.bitRate ≤ regNat c.samplingRate) := by
  simp only [Cfg.isLegal, decide_eq_true_eq, minSpb_le_iff, ← Nat.dvd_iff_mod_eq_zero]
  refine and_congr_right fun hpos => and_congr_right fun _ => and_congr_right fun _ => ?_
  rw [Nat.le_div_iff_mul_le hpos, Nat.le_div_iff_mul_le hpos, Nat.one_mul]

end Sys2Proof.Machine

namespace Sys2Proof.Proofs

open Sys2Proof.Machine

/-- Settles O2: the map holds each command beside its word, and no word twice. -/
theorem decodeEncodeAgree : Obligations.DecodeEncodeAgree := by
  unfold Obligations.DecodeEncodeAgree
  refine fun i c => ⟨encode_of_decode, ?_⟩
  rintro rfl
  exact decode_encode i

/-- Settles O3: EXEC and an 8-bit write to CMD are the execution sequence of the word. -/
theorem stepRunsCommand : Obligations.StepRunsCommand := by
  unfold Obligations.StepRunsCommand
  intro s rest
  have hexec (c : Byte) (h : s.program = .exec c :: rest) : step s = execWord c { s with program := rest } :=
    step_of_program h
  have hwrite (v : Word32) (h : s.program = .wrreg 0x00 v :: rest) (hv : v.toNat < 256) :
      step s = execWord (v.setWidth 8) { s with program := rest } :=
    (step_of_program h).trans (runWrreg_cmd hv _)
  refine ⟨hexec, hwrite, fun c i hc => ⟨fun h => ?_, fun h => ?_⟩⟩
  · rw [hexec c h, execWord_of_decode hc]
  · have hsmall : (c.setWidth 32).toNat < 256 := by
      rw [BitVec.toNat_setWidth]
      omega
    rw [hwrite _ h hsmall, BitVec.setWidth_setWidth_of_le _ (by decide), BitVec.setWidth_eq, execWord_of_decode hc]

/-- Settles O8: the reset event does not pass the gate and writes every field but the parameters and the host's. -/
theorem srstResult : Obligations.SrstResult := by
  unfold Obligations.SrstResult
  exact exec_srst

/-- Settles O13: the model's checks are the ranges of R40 to R47, the quotient SPB written as a product. -/
theorem legalValues : Obligations.LegalValues := by
  unfold Obligations.LegalValues
  intro ar i c
  refine ⟨fun sr hsr => ?_, fun sr br hsr hbr => ?_, fun f hf => ?_, ?_, fun ρ hρ => ?_, fun mfb hmfb => ?_,
    fun wd hwd => ?_, fun hstd => ?_, fun v wd hv hwd => ?_, isLegal_hamM_iff, fun hstd => ?_, fun v wd hv => ?_⟩
  · simp [Cfg.isLegal, regNat, hsr]
  · rw [isLegal_bitRate_iff, hsr, hbr]
    rfl
  · simp [Cfg.isLegal, regNat, hf]
  · rfl
  · exact hρ.isPos c.amplitude
  · rw [isLegal_maxFrameBytes_iff, hmfb]
    rfl
  · simp [Cfg.isLegal, regNat, hwd]
  · simp [Cfg.isLegal, hstd]
  · simp [Cfg.isLegal, regNat, hv, hwd]
  · simp [Cfg.polyFor, hstd, stdPoly]
  · simp [Cfg.polyFor, hv]

/-- Settles O57: the next action is taken off the program and each action's cases are those of R371, R373 and R380. -/
theorem hostWrites : Obligations.HostWrites := by
  unfold Obligations.HostWrites
  intro s rest
  refine ⟨fun v h hv => ?_, fun v h hv => ?_, fun v h hv => ?_, fun v h hv => ?_, fun n v h hn => ?_, fun a h => ?_,
    fun x e h hw he => ?_, fun x e h hw he => ?_, fun x h hw => ?_, fun d b h hw => ?_⟩ <;> rw [step_of_program h]
  · exact runLoadw_of_fits hv
  · exact runLoadw_of_over hv
  · exact runWrreg_cmd hv _
  · exact runWrreg_cmd_of_wide hv _
  · refine ⟨(writeReg n v { s with program := rest }).cfg, ?_, writeReg_samplingRate n v _, writeReg_bitRate n v _,
      writeReg_carrierFreq n v _, writeReg_amplitude n v _, writeReg_maxFrameBytes n v _, writeReg_edcWidth n v _,
      writeReg_crcPoly n v _, writeReg_hamM n v _⟩
    exact (runWrreg_of_ne hn v _).trans (congrArg _ (writeReg_eq n v _))
  · rfl
  · exact (runChan_seq (by exact hw)).trans (if_pos he)
  · exact (runChan_seq (by exact hw)).trans (if_neg he)
  · exact ⟨_, runChan_zero (by exact hw), by simp [addDraw], fun ρ hρ => map_addDraw_zero hρ x⟩
  · exact runChan_bits (by exact hw) d

/-- Settles O58: READW and RDREG hand a value over and change nothing; each register reads as R374 and R55 say. -/
theorem hostReads : Obligations.HostReads := by
  unfold Obligations.HostReads
  intro s rest
  refine ⟨step_of_program, fun n h => ?_, getStatus_eq s⟩
  rw [step_of_program h]
  show Host.Outcome.next (State.give _ (readReg n _)) = _
  unfold State.give readReg
  simp only [statusByte_toNat, regNat_eq_getD, toByte_toNat]
  rfl

end Sys2Proof.Proofs
end

section
/-!
SUPPORT. What several commands share: when a state is ready after another command, what a body that completed has
written, and the blocks of a sequence.
-/

namespace Sys2Proof.Machine

/-! ### From one command to the next -/

/-- Legality of a value depends on the command only through the least SPB it accepts (R40 to R47). -/
theorem isLegal_of_minSpb_eq {i j : Instr} (h : minSpb i = minSpb j) (ar : Arith) (c : Cfg) (f : CfgField) :
    c.isLegal ar i f = c.isLegal ar j f := by
  cases f <;> simp only [Cfg.isLegal, h]

/-- A command that reads no other field than a ready one is ready in any unfaulted state of the same configuration. -/
theorem State.Ready.transfer {i j : Instr} {s t : State} (h : s.Ready i) (hfault : t.st.fault = .none)
    (hcfg : t.cfg = s.cfg) (hparams : t.params = s.params) (hfields : ∀ f ∈ fieldsRead j, f ∈ fieldsRead i)
    (hspb : minSpb i = minSpb j) : t.Ready j := by
  refine ⟨hfault, fun f hf => ?_⟩
  rw [hcfg, hparams, ← isLegal_of_minSpb_eq hspb]
  exact h.2 f (hfields f hf)

/-- After a completed command that wrote W only, a command that reads no other field is ready. -/
theorem State.Ready.withW {i j : Instr} {s : State} (h : s.Ready i) (hfields : ∀ f ∈ fieldsRead j, f ∈ fieldsRead i)
    (hspb : minSpb i = minSpb j) (v : Buffer) : State.Ready j { s with w := v } :=
  h.transfer h.1 rfl rfl hfields hspb

/-- A body that ends in writing W and did not fault has written it, and nothing else. -/
theorem of_runCommand_bufWrite {s t : State} {v : Buffer} (hs : s.st.fault = .none)
    (h : runCommand s (bufWrite s v) = .next t) (ht : ¬ t.Faulted) :
    bufFits s.params v.length = true ∧ t = { s with w := v } := by
  rcases bufWrite_cases s v with ⟨hfits, hok⟩ | ⟨cap, _, _, herr⟩
  · rw [hok, runCommand_ok hs] at h
    cases h
    exact ⟨hfits, rfl⟩
  · rw [herr, runCommand_error hs] at h
    cases h
    exact absurd nofun ht

/-- A body that raises a fault ends in a faulted state. -/
theorem faulted_of_runCommand_error {s t : State} {f : CmdFault} (hs : s.st.fault = .none) (hf : f.code ≠ .none)
    (h : runCommand s (.error f) = .next t) : t.Faulted := by
  rw [runCommand_error hs] at h
  cases h
  exact hf

/-! ### Blocks -/

theorem length_take_drop_of_lt_div {α : Type} {p i : Nat} {s : List α} (h : i < s.length / p) :
    ((s.drop (p * i)).take p).length = p := by
  have hmem : (s.drop (p * i)).take p ∈ blocks p s := by
    rw [← slice_add]
    exact List.mem_map.2 ⟨i, List.mem_range.2 h, rfl⟩
  exact length_of_mem_blocks hmem

theorem length_flatMap_of_forall {α β : Type} {p : Nat} {f : α → List β} {l : List α}
    (h : ∀ a ∈ l, (f a).length = p) : (l.flatMap f).length = l.length * p := by
  rw [List.length_flatMap, List.map_congr_left h, List.map_const', List.sum_replicate, smul_eq_mul]

/-- Joined pieces of `p` elements have those pieces as their blocks. -/
theorem blocks_flatMap {α β : Type} {p : Nat} (hp : 0 < p) {f : α → List β} {l : List α}
    (h : ∀ a ∈ l, (f a).length = p) : blocks p (l.flatMap f) = l.map f := by
  induction l with
  | nil => exact blocks_of_lt hp
  | cons a l ih =>
    rw [List.flatMap_cons, blocks_append hp (h a List.mem_cons_self), ih fun b hb => h b (List.mem_cons_of_mem a hb),
      List.map_cons]

theorem blocks_eq_map_take_drop {α : Type} (p : Nat) (s : List α) :
    blocks p s = (List.range (s.length / p)).map fun i => (s.drop (p * i)).take p := by
  simp only [blocks, slice_add]

end Sys2Proof.Machine
end

section
/-!
SUPPORT. The Hamming commands on streams (spec 40_hamming.md R156, R157), and what the decoder does with flipped bits
(R158).
-/

namespace Sys2Proof.Machine

/-! ### Streams (R156, R157) -/

theorem exec_hamEnc_of_ready {s : State} {b : List Bit} (hs : s.Ready .hamEnc) (hw : s.w = .bits b) :
    exec .hamEnc s = runCommand s (bufWrite s (.bits (hamEncodeStream s.cfg.hamM.toNat b))) :=
  runCommand_bits_of_ready hs hw _

theorem exec_hamDec_of_ready {s : State} {b : List Bit} (hs : s.Ready .hamDec) (hw : s.w = .bits b) :
    exec .hamDec s = runCommand s (bufWrite s (.bits (hamDecodeStream s.cfg.hamM.toNat b)) >>= fun t =>
      .ok (t.setCorr (hamCorrections s.cfg.hamM.toNat b))) :=
  runCommand_bits_of_ready hs hw _

/-- The stream encoder encodes the blocks of the padded complete bytes. -/
theorem hamEncodeStream_eq {m : Nat} {b q : List Bit} (hq : q = b.take (8 * (b.length / 8)) ++
      List.replicate ((m - (8 * (b.length / 8)) % m) % m) false) :
    hamEncodeStream m b = (List.range (q.length / m)).flatMap fun i => hamEncode ((q.drop (m * i)).take m) := by
  have hlen : (b.take (8 * (b.length / 8))).length = 8 * (b.length / 8) := by
    rw [List.length_take, Nat.min_eq_left (Nat.mul_div_le _ _)]
  have hpad : padZeros m (bitsOfBytes (bytesOf b)) = q := by rw [padZeros_eq, bitsOfBytes_bytesOf, hlen, hq]
  rw [hamEncodeStream, hpad, blocks_eq_map_take_drop, List.flatMap_map]

/-- The stream decoder keeps the complete bytes of the corrected data of the complete blocks. -/
theorem hamDecodeStream_eq {m : Nat} {b data : List Bit}
    (hdata : data = (List.range (b.length / nOf m)).flatMap fun i =>
      correctedData ((b.drop (nOf m * i)).take (nOf m)) (syndromeSum ((b.drop (nOf m * i)).take (nOf m)))) :
    hamDecodeStream m b = data.take (8 * (data.length / 8)) := by
  simp only [hamDecodeStream, blocks_eq_map_take_drop, List.flatMap_map, hamDecode_eq, ← hdata, slice_zero]

theorem hamCorrections_eq (m : Nat) (b : List Bit) :
    hamCorrections m b = (List.range (b.length / nOf m)).countP fun i =>
      syndromeSum ((b.drop (nOf m * i)).take (nOf m)) != 0 := by
  simp only [hamCorrections, blocks_eq_map_take_drop, hamDecode_eq, ← List.countP_eq_length_filter, List.countP_map,
    Function.comp_def]

/-! ### Flipped bits (R158) -/

/-- The bit at position `a` flipped. -/
theorem modify_eq_hamCorrect {c : List Bit} {a : Nat} (h1 : 1 ≤ a) (h : a ≤ c.length) :
    c.modify (a - 1) not = hamCorrect c a := by
  rw [hamCorrect, if_pos ⟨Nat.one_le_iff_ne_zero.1 h1, h⟩]

theorem and_two_pow_bne_zero (a i : Nat) : (a &&& 2 ^ i != 0) = a.testBit i := by
  rw [Nat.and_two_pow]
  cases a.testBit i <;> simp

/-- A flipped bit turns the checks that cover its position. -/
theorem parityOver_hamCorrect {c : List Bit} {a : Nat} (h1 : 1 ≤ a) (h : a ≤ c.length) (i : Nat) :
    parityOver (2 ^ i) (hamCorrect c a) = (a.testBit i ^^ parityOver (2 ^ i) c) := by
  have hlt : a - 1 < c.length := by omega
  have hset : c.modify (a - 1) not = c.set (a - 1) (!c.getD (a - 1) false) := by
    simp [List.modify_eq_set_getElem?, hlt]
  have hpos : 1 + (a - 1) = a := by omega
  rw [← modify_eq_hamCorrect h1 h, hset, ← hamParity_one, hamParity_set hlt, hpos, hamParity_one, Bool.xor_not_self,
    Bool.and_true, and_two_pow_bne_zero]

theorem sum_testBit_mul_two_pow (v n : Nat) :
    ((List.range n).map fun i => if v.testBit i = true then 2 ^ i else 0).sum = v % 2 ^ n := by
  induction n with
  | zero => simp [Nat.mod_one]
  | succ n ih =>
    rw [List.range_succ, List.map_append, List.sum_append, List.map_singleton, List.sum_singleton, ih, Nat.mod_pow_succ,
      Nat.testBit_eq_decide_div_mod_eq]
    rcases Nat.mod_two_eq_zero_or_one (v / 2 ^ n) with h | h <;> simp [h]

/-- The syndrome is the number whose binary digits are the checks. -/
theorem syndromeSum_eq_of_checks {x : List Bit} {r v : Nat} (hr : ∀ i, 2 ^ i ≤ x.length ↔ i < r) (hv : v < 2 ^ r)
    (h : ∀ i < r, parityOver (2 ^ i) x = v.testBit i) : syndromeSum x = v := by
  have hterm (i : Nat) : (if 2 ^ i ≤ x.length ∧ parityOver (2 ^ i) x = true then 2 ^ i else 0) =
      if v.testBit i = true then 2 ^ i else 0 := by
    by_cases hi : i < r
    · rw [h i hi]
      simp [(hr i).2 hi]
    · have hzero : v.testBit i = false :=
        Nat.testBit_lt_two_pow (hv.trans_le (Nat.pow_le_pow_right (by decide) (Nat.not_lt.1 hi)))
      simp [mt (hr i).1 hi, hzero]
  have hle : r ≤ x.length := Nat.not_lt.1 fun hlt => Nat.not_le.2 Nat.lt_two_pow_self ((hr _).2 hlt)
  simp only [syndromeSum, hterm]
  rw [sum_testBit_mul_two_pow, Nat.mod_eq_of_lt (hv.trans_le (Nat.pow_le_pow_right (by decide) hle))]

theorem correctedData_zero {r : Nat} {d c : List Bit} (h : IsCodeword r d c) : correctedData c 0 = d := by
  obtain ⟨hlen, hdata, _⟩ := h
  rw [correctedData, hlen]
  simpa using hdata

theorem correctedData_hamCorrect {c : List Bit} (a : Nat) : correctedData (hamCorrect c a) a = correctedData c 0 := by
  rw [correctedData, correctedData, length_hamCorrect]
  refine List.map_congr_left fun k hk => ?_
  rw [getD_hamCorrect (lt_of_mem_dataIndices hk)]
  simp

theorem length_correctedData {m r : Nat} {x : List Bit} (h : IsParityCount m r) (hx : x.length = m + r) (v : Nat) :
    (correctedData x v).length = m := by
  rw [correctedData, List.length_map, hx, dataIndices_eq_filter, ← List.countP_eq_length_filter, h.countP_data]

/-- What HAM.ENC1 leaves when it completes: W holds the codeword of the data. -/
theorem isCodeword_of_exec_hamEnc1 {s t : State} {d c : List Bit} (hs : s.Ready .hamEnc1) (hw : s.w = .bits d)
    (h : exec .hamEnc1 s = .next t) (ht : ¬ t.Faulted) (hc : t.w = .bits c) :
    ∃ r, IsParityCount s.cfg.hamM.toNat r ∧ r ≤ 8 ∧ d.length = s.cfg.hamM.toNat ∧ IsCodeword r d c ∧
      bufFits s.params c.length = true ∧ t = { s with w := .bits c } := by
  obtain ⟨r, hr⟩ := exists_isParityCount s.cfg.hamM.toNat
  obtain ⟨_, hlegal⟩ := hs.2 .hamM (by decide)
  rw [exec_hamEnc1_of_ready hs hw] at h
  split at h
  case isTrue => exact absurd (faulted_of_runCommand_error hs.1 (by simp) h) ht
  case isFalse hlen =>
    have hlen := not_not.1 hlen
    obtain ⟨hfits, rfl⟩ := of_runCommand_bufWrite hs.1 h ht
    cases hc
    exact ⟨r, hr, hr.le_eight (isLegal_hamM_iff.1 hlegal).2, hlen, isCodeword_hamEncode (hlen ▸ hr), hfits, rfl⟩

/-- HAM.DEC1 of a received word of the code's length, by its syndrome. -/
theorem exec_hamDec1_of_syndrome {s : State} {x : List Bit} {r v : Nat} (hs : s.Ready .hamEnc1)
    (hr : IsParityCount s.cfg.hamM.toNat r) (hx : x.length = s.cfg.hamM.toNat + r)
    (hfits : bufFits s.params x.length = true) (hv : syndromeSum x = v) :
    exec .hamDec1 { s with w := .bits x } =
      .next { s with w := .bits (correctedData x v), st := { s.st with synd := BitVec.ofNat 8 v } } := by
  subst hv
  have hready : State.Ready .hamDec1 { s with w := .bits x } := hs.withW (fun _ hf => hf) rfl _
  have hdata : bufFits s.params (correctedData x (syndromeSum x)).length = true :=
    bufFits_mono (by rw [length_correctedData hr hx]; omega) hfits
  exact ((Proofs.hamDec1Result _ x _ _ r hready rfl rfl hr).1 hx rfl hdata)

/-- The XOR of two powers of two is none. -/
theorem two_pow_xor_two_pow_ne {i j k : Nat} (h : i ≠ j) : 2 ^ i ^^^ 2 ^ j ≠ 2 ^ k := by
  intro heq
  have hi := congrArg (·.testBit i) heq
  have hj := congrArg (·.testBit j) heq
  simp only [Nat.testBit_xor, Nat.testBit_two_pow, h, Ne.symm h, decide_true, decide_false, Bool.xor_false,
    Bool.false_xor] at hi hj
  have hki : k = i := by simpa using hi.symm
  have hkj : k = j := by simpa using hj.symm
  exact h (hki.symm.trans hkj)

/-- A position of a codeword that is no power of two is a data index. -/
theorem mem_dataIndices_of_not_two_pow {n a : Nat} (h1 : 1 ≤ a) (hn : a ≤ n) (h : ∀ i, a ≠ 2 ^ i) :
    a - 1 ∈ dataIndices n := by
  exact List.mem_filter.2 ⟨List.mem_range.2 (by omega), by simpa [Nat.sub_add_cancel h1] using h⟩

/-- Correcting at the syndrome of two flipped bits flips a third one, and one of the three holds data. -/
theorem correctedData_two_flips_ne {c : List Bit} {a b : Nat} (ha : 1 ≤ a) (hab : a < b) (hb : b ≤ c.length)
    (hx : a ^^^ b ≤ c.length) :
    correctedData (hamCorrect (hamCorrect c a) b) (a ^^^ b) ≠ correctedData c 0 := by
  intro heq
  have hxa : a ^^^ b ≠ a := fun h => by
    have hzero : b = 0 := by simpa [← Nat.xor_assoc] using congrArg (a ^^^ ·) h
    omega
  have hxb : a ^^^ b ≠ b := fun h => by
    have hzero : a = 0 := by simpa [Nat.xor_assoc] using congrArg (· ^^^ b) h
    omega
  have hpos : 1 ≤ a ^^^ b := Nat.one_le_iff_ne_zero.2 fun h => by
    have := Nat.xor_eq_zero_iff.1 h
    omega
  have hkept (k : Nat) (hk : k ∈ dataIndices c.length) : ¬ (k + 1 = a ∨ k + 1 = b ∨ k + 1 = a ^^^ b) := by
    simp only [correctedData, length_hamCorrect, List.map_inj_left] at heq
    have hbit := heq k hk
    have hlt := lt_of_mem_dataIndices hk
    rw [getD_hamCorrect (by simpa using hlt), getD_hamCorrect hlt, decide_eq_false k.succ_ne_zero,
      Bool.xor_false] at hbit
    rintro (h | h | h)
    · simp [h, hab.ne, hxa.symm] at hbit
    · simp [h, hab.ne', hxb.symm] at hbit
    · simp [h, hxa, hxb] at hbit
  have hpow (p : Nat) (h1 : 1 ≤ p) (hn : p ≤ c.length) (hp : p = a ∨ p = b ∨ p = a ^^^ b) : ∃ i, p = 2 ^ i := by
    by_contra hnone
    refine hkept (p - 1) (mem_dataIndices_of_not_two_pow h1 hn (not_exists.1 hnone)) ?_
    rwa [Nat.sub_add_cancel h1]
  obtain ⟨i, rfl⟩ := hpow a ha (by omega) (.inl rfl)
  obtain ⟨j, rfl⟩ := hpow b (by omega) hb (.inr (.inl rfl))
  obtain ⟨k, hk⟩ := hpow _ hpos hx (.inr (.inr rfl))
  exact two_pow_xor_two_pow_ne (fun hij => by simp [hij] at hab) hk

end Sys2Proof.Machine

namespace Sys2Proof.Proofs

open Sys2Proof.Machine

/-- Settles O22: the model pads the complete bytes as the statement does and encodes block by block. -/
theorem hamEncResult : Obligations.HamEncResult := by
  unfold Obligations.HamEncResult
  intro s b q m r hs hw hm hr hq hfits
  subst hm
  have hcode (i : Nat) (hi : i < q.length / s.cfg.hamM.toNat) :
      IsCodeword r ((q.drop (s.cfg.hamM.toNat * i)).take s.cfg.hamM.toNat)
        (hamEncode ((q.drop (s.cfg.hamM.toNat * i)).take s.cfg.hamM.toNat)) :=
    isCodeword_hamEncode (by rwa [length_take_drop_of_lt_div hi])
  refine ⟨_, ?_, hcode⟩
  rw [exec_hamEnc_of_ready hs hw, hamEncodeStream_eq hq]
  refine runCommand_bufWrite_bits hs.1 ?_
  rwa [length_flatMap_of_forall (p := s.cfg.hamM.toNat + r), List.length_range]
  intro i hi
  rw [length_of_isCodeword (hcode i (List.mem_range.1 hi)), length_take_drop_of_lt_div (List.mem_range.1 hi)]

/-- Settles O23: the model decodes block by block, keeps the complete bytes and counts the nonzero syndromes. -/
theorem hamDecResult : Obligations.HamDecResult := by
  unfold Obligations.HamDecResult
  intro s b data block m r k hs hw hm hr hk hblock hdata hfits
  subst hm hk
  obtain rfl : block = fun i => (b.drop ((s.cfg.hamM.toNat + r) * i)).take (s.cfg.hamM.toNat + r) := funext hblock
  rw [← nOf_eq hr] at hdata ⊢
  have hlen : (data.take (8 * (data.length / 8))).length = 8 * (data.length / 8) := by
    rw [List.length_take, Nat.min_eq_left (Nat.mul_div_le _ _)]
  have hfits : bufFits s.params (Buffer.bits (data.take (8 * (data.length / 8)))).length = true := by
    rwa [Buffer.length, hlen]
  rw [exec_hamDec_of_ready hs hw, hamDecodeStream_eq hdata, bufWrite_of_fits hfits, ok_bind, runCommand_ok hs.1,
    hamCorrections_eq]
  rfl

/-- Settles O24: one flipped bit turns exactly the checks of its position's binary digits. -/
theorem hammingCorrectsOne : Obligations.HammingCorrectsOne := by
  unfold Obligations.HammingCorrectsOne
  intro s t d c hs hw h ht hc
  obtain ⟨r, hr, _, hlen, hcode, hfits, rfl⟩ := isCodeword_of_exec_hamEnc1 hs hw h ht hc
  have hclen : c.length = s.cfg.hamM.toNat + r := hlen ▸ length_of_isCodeword hcode
  have hpow : ∀ i, 2 ^ i ≤ c.length ↔ i < r := hclen ▸ hr.two_pow_le_iff
  have ⟨_, _, heven⟩ := hcode
  constructor
  · have hsynd : syndromeSum c = 0 :=
      syndromeSum_eq_of_checks hpow (Nat.two_pow_pos r) fun i hi => by rw [heven i hi, Nat.zero_testBit]
    rw [← correctedData_zero hcode]
    exact exec_hamDec1_of_syndrome hs hr hclen hfits hsynd
  · intro j h1 hj
    have hjlt : j < 2 ^ r := Nat.lt_of_le_of_lt hj (Nat.not_le.1 (mt (hpow r).1 (lt_irrefl r)))
    have hsynd : syndromeSum (hamCorrect c j) = j :=
      syndromeSum_eq_of_checks (by simpa using hpow) hjlt fun i hi => by
        rw [parityOver_hamCorrect h1 hj, heven i hi, Bool.xor_false]
    rw [modify_eq_hamCorrect h1 hj, ← correctedData_zero hcode, ← correctedData_hamCorrect j]
    exact exec_hamDec1_of_syndrome hs hr (by simpa using hclen) (by simpa using hfits) hsynd

/-- Settles O25: the checks of two flipped bits are the digits of the XOR of their positions, and of the three positions
then flipped one holds data. -/
theorem hammingMiscorrectsTwo : Obligations.HammingMiscorrectsTwo := by
  unfold Obligations.HammingMiscorrectsTwo
  intro s t d c e a b hs hw h ht hc ha hab hb he
  obtain ⟨r, hr, hr8, hlen, hcode, hfits, rfl⟩ := isCodeword_of_exec_hamEnc1 hs hw h ht hc
  have hclen : c.length = s.cfg.hamM.toNat + r := hlen ▸ length_of_isCodeword hcode
  have hpow : ∀ i, 2 ^ i ≤ c.length ↔ i < r := hclen ▸ hr.two_pow_le_iff
  have hclt : c.length < 2 ^ r := Nat.not_le.1 (mt (hpow r).1 (lt_irrefl r))
  have ha' : a ≤ c.length := by omega
  have he : e = hamCorrect (hamCorrect c a) b := by
    rw [he, modify_eq_hamCorrect ha ha', modify_eq_hamCorrect (by omega) (by simpa using hb)]
  have helen : e.length = c.length := by simp [he]
  have ⟨_, _, heven⟩ := hcode
  have hxlt : a ^^^ b < 2 ^ r := Nat.xor_lt_two_pow (by omega) (by omega)
  have hsynd : syndromeSum e = a ^^^ b :=
    syndromeSum_eq_of_checks (helen ▸ hpow) hxlt fun i hi => by
      rw [he, parityOver_hamCorrect (by omega) (by simpa using hb), parityOver_hamCorrect ha ha', heven i hi,
        Bool.xor_false, Nat.testBit_xor, Bool.xor_comm]
  refine ⟨?_, Nat.pos_of_ne_zero fun hzero => ?_, ?_, fun hx => ?_⟩
  · exact exec_hamDec1_of_syndrome hs hr (helen.trans hclen) (helen ▸ hfits) hsynd
  · exact hab.ne (Nat.xor_eq_zero_iff.1 hzero)
  · exact hxlt.trans_le (Nat.pow_le_pow_right (by decide) hr8)
  · rw [he, ← correctedData_zero hcode]
    exact correctedData_two_flips_ne ha hab hb hx

end Sys2Proof.Proofs
end

section
/-!
SUPPORT. The check commands, and a check after its add command (spec 41_edc.md R182, R183, R185, R188, R195 to R199).
-/

namespace Sys2Proof.Machine

/-! ### Check commands that are ready -/

/-- A check command that is ready and whose payload fits completes with the payload and its flag. -/
theorem runCommand_bufWrite_setErr {s : State} {out : List Bit} (h : s.st.fault = .none)
    (hfits : bufFits s.params out.length = true) (e : Bool) :
    runCommand s (bufWrite s (.bits out) >>= fun t => .ok (t.setErr e)) =
      .next { s with w := .bits out, st := { s.st with err := e } } := by
  rw [bufWrite_of_fits hfits, ok_bind, runCommand_ok h]
  rfl

theorem exec_parChk_of_ready {s : State} {b : List Bit} (hs : s.Ready .parChk) (hw : s.w = .bits b)
    (hfits : bufFits s.params (parPayload b).length = true) :
    exec .parChk s = .next { s with w := .bits (parPayload b), st := { s.st with err := parError b } } :=
  (runCommand_bits_of_ready hs hw _).trans (runCommand_bufWrite_setErr hs.1 hfits _)

/-- A command that needs bits, reads EDC_WIDTH and is ready runs the rest of its body on the bits and the width. -/
theorem runCommand_bits_edcWidth_of_ready {i : Instr} {s : State} {b : List Bit} (hi : .edcWidth ∈ fieldsRead i)
    (hs : s.Ready i) (hw : s.w = .bits b) (rest : List Bit → Nat → CmdResult State) :
    runCommand s (configCheck i s >>= fun _ => needBits s >>= fun b => readEdcWidth s >>= rest b) =
      runCommand s (rest b (regNat s.cfg.edcWidth)) := by
  obtain ⟨hset, _⟩ := hs.2 .edcWidth hi
  rw [runCommand_bits_of_ready hs hw, readEdcWidth_of_set hset, ok_bind]

theorem exec_cksChk_of_ready {s : State} {b : List Bit} {wd : Nat} (hs : s.Ready .cksChk) (hw : s.w = .bits b)
    (hwd : wd = regNat s.cfg.edcWidth) (hfits : bufFits s.params (edcPayload wd b).length = true) :
    exec .cksChk s = .next { s with
      w := .bits (edcPayload wd b),
      st := { s.st with err := edcError (fun p => cksum s.params.edcTail p wd) wd b } } := by
  subst hwd
  exact (runCommand_bits_edcWidth_of_ready (by decide) hs hw _).trans (runCommand_bufWrite_setErr hs.1 hfits _)

theorem exec_crcAdd_of_ready {s : State} {b : List Bit} {wd : Nat} (hs : s.Ready .crcAdd) (hw : s.w = .bits b)
    (hwd : wd = regNat s.cfg.edcWidth) :
    exec .crcAdd s =
      runCommand s (bufWrite s (.bits (b ++ bitsOfNat (crc s.params (s.cfg.polyFor wd) b wd) wd))) :=
  hwd ▸ runCommand_bits_edcWidth_of_ready (by decide) hs hw _

theorem exec_crcChk_of_ready {s : State} {b : List Bit} {wd : Nat} (hs : s.Ready .crcChk) (hw : s.w = .bits b)
    (hwd : wd = regNat s.cfg.edcWidth) (hfits : bufFits s.params (edcPayload wd b).length = true) :
    exec .crcChk s = .next { s with
      w := .bits (edcPayload wd b),
      st := { s.st with err := edcError (fun p => crc s.params (s.cfg.polyFor wd) p wd) wd b } } := by
  subst hwd
  exact (runCommand_bits_edcWidth_of_ready (by decide) hs hw _).trans (runCommand_bufWrite_setErr hs.1 hfits _)

/-! ### Parity (R180 to R183) -/

theorem par8_cons (x : Bit) (b : List Bit) : par8 (x :: b) = (x ^^ par8 b) := by
  rw [par8, List.foldl_cons, foldl_xor_eq_count, ← par8_eq_count, Bool.false_xor]

theorem par8_append_singleton (b : List Bit) (x : Bit) : par8 (b ++ [x]) = (par8 b ^^ x) := by
  rw [par8, List.foldl_append, List.foldl_cons, List.foldl_nil, par8]

/-- Flipping bits turns the parity by the parity of the flips. -/
theorem par8_zipWith_xor {b e : List Bit} (h : e.length = b.length) :
    par8 (List.zipWith (· ^^ ·) b e) = (par8 b ^^ par8 e) := by
  induction b generalizing e with
  | nil => simp [List.length_eq_zero_iff.1 h, par8]
  | cons x b ih =>
    cases e with
    | nil => simp at h
    | cons y e =>
      rw [List.zipWith_cons_cons, par8_cons, par8_cons, par8_cons, ih (by simpa using h)]
      cases x <;> cases y <;> simp

/-- A block's parity bit does not match exactly if the parity over all nine bits is odd. -/
theorem bne_parity_eq_par8 {w : List Bit} (h : w.length = 9) : (par8 (w.take 8) != w.getD 8 false) = par8 w := by
  have hsplit : w = w.take 8 ++ [w.getD 8 false] := by
    conv_lhs => rw [← List.take_append_drop 8 w]
    rw [List.drop_eq_getElem_cons (by omega), List.drop_of_length_le (by omega), List.getD_eq_getElem _ _ (by omega)]
  conv_rhs => rw [hsplit, par8_append_singleton]

theorem parError_eq_any (b : List Bit) : parError b = (blocks 9 b).any par8 := by
  rw [parError, List.any_eq, List.any_eq]
  refine decide_eq_decide.2 (exists_congr fun w => and_congr_right fun hw => ?_)
  rw [bne_parity_eq_par8 (length_of_mem_blocks hw)]

theorem parError_iff (b : List Bit) :
    parError b = true ↔ ∃ i < b.length / 9, ((b.drop (9 * i)).take 9).count true % 2 = 1 := by
  rw [parError_eq_any, blocks_eq_map_take_drop]
  simp [par8_eq_count]

theorem parPayload_eq (b : List Bit) :
    parPayload b = (List.range (b.length / 9)).flatMap fun i => (b.drop (9 * i)).take 8 := by
  simp only [parPayload, blocks_eq_map_take_drop, List.flatMap_map, List.take_take, Nat.reduceLeDiff, inf_of_le_left]

theorem length_parPayload (b : List Bit) : (parPayload b).length = b.length / 9 * 8 := by
  rw [parPayload, length_flatMap_of_forall (p := 8), length_blocks]
  intro w hw
  rw [List.length_take, length_of_mem_blocks hw]
  rfl

theorem length_parPayload_le (b : List Bit) : (parPayload b).length ≤ b.length := by
  rw [length_parPayload]
  omega

/-- R182's test of a block, on its first eight bits and its ninth. -/
theorem parError_iff_ninth (b : List Bit) : parError b = true ↔
    ∃ i < b.length / 9, ((b.drop (9 * i)).take 8).count true % 2 ≠ (b.getD (9 * i + 8) false).toNat := by
  have hbit (n : Nat) (x : Bit) : (decide (n % 2 = 1) != x) = true ↔ n % 2 ≠ x.toNat := by
    cases x <;> simp
  simp only [parError, blocks_eq_map_take_drop, List.any_map, List.any_eq_true, List.mem_range, Function.comp_def,
    List.take_take, par8_eq_count, hbit]
  simp [List.getElem?_drop]

theorem blocks_parAdd (b : List Bit) : blocks 9 (parAdd b) = (blocks 8 b).map fun w => w ++ [par8 w] :=
  blocks_flatMap (by decide) fun w hw => by rw [List.length_append, length_of_mem_blocks hw, List.length_singleton]

theorem parError_parAdd (b : List Bit) : parError (parAdd b) = false := by
  rw [parError_eq_any, blocks_parAdd, List.any_map, List.any_eq_false]
  intro w _
  simp [par8_append_singleton]

theorem parPayload_parAdd (b : List Bit) : parPayload (parAdd b) = b.take (8 * (b.length / 8)) := by
  rw [parPayload, blocks_parAdd, List.flatMap_map, ← flatten_blocks, List.flatMap_def]
  congr 1
  conv_rhs => rw [← List.map_id (blocks 8 b)]
  exact List.map_congr_left fun w hw => List.take_left' (length_of_mem_blocks hw)

/-- Where every block's parity matches, flips break exactly the blocks with an odd number of them (R183). -/
theorem parError_zipWith_xor_iff {c e : List Bit} (hlen : e.length = c.length) (hc : parError c = false) :
    parError (List.zipWith (· ^^ ·) c e) = true ↔
      ∃ i < c.length / 9, ((e.drop (9 * i)).take 9).count true % 2 = 1 := by
  have heven (i : Nat) (hi : i < c.length / 9) : par8 ((c.drop (9 * i)).take 9) = false := by
    rw [par8_eq_count, decide_eq_false_iff_not]
    exact fun hodd => Bool.false_ne_true (hc ▸ (parError_iff c).2 ⟨i, hi, hodd⟩)
  rw [parError_iff, List.length_zipWith, hlen, Nat.min_self]
  refine exists_congr fun i => and_congr_right fun hi => ?_
  have hblock : par8 (((List.zipWith (· ^^ ·) c e).drop (9 * i)).take 9) = par8 ((e.drop (9 * i)).take 9) := by
    rw [List.drop_zipWith, List.take_zipWith, par8_zipWith_xor (by simp [hlen]), heven i hi, Bool.false_xor]
  rw [par8_eq_count, par8_eq_count] at hblock
  exact decide_eq_decide.1 hblock

/-! ### A trailing field (R188, R199) -/

theorem edcPayload_of_short {wd : Nat} {b : List Bit} (h : b.length < wd) : edcPayload wd b = [] := if_pos h

theorem edcError_of_short {wd : Nat} {b : List Bit} (h : b.length < wd) (code : List Bit → Nat) :
    edcError code wd b = true := if_pos h

theorem edcPayload_append {wd : Nat} {f : List Bit} (h : f.length = wd) (p : List Bit) :
    edcPayload wd (p ++ f) = p := by
  rw [edcPayload, if_neg (by simp; omega), slice_zero, List.length_append, h, Nat.add_sub_cancel, List.take_left]

theorem edcError_append {wd : Nat} {f : List Bit} (h : f.length = wd) (code : List Bit → Nat) (p : List Bit) :
    edcError code wd (p ++ f) = (code p != natOfBits f) := by
  rw [edcError, if_neg (by simp; omega), edcPayload_append h, edcField, slice_all, List.length_append, h,
    Nat.add_sub_cancel, List.drop_left]

/-- After an add command the field is what the check computes. -/
theorem edcError_append_code {wd : Nat} {code : List Bit → Nat} (h : ∀ p, code p < 2 ^ wd) (b : List Bit) :
    edcError code wd (b ++ bitsOfNat (code b) wd) = false := by
  rw [edcError_append (length_bitsOfNat _ _), natOfBits_bitsOfNat, Nat.mod_eq_of_lt (h b), bne_self_eq_false]

theorem length_edcPayload_le (wd : Nat) (b : List Bit) : (edcPayload wd b).length ≤ b.length := by
  unfold edcPayload
  split
  · exact Nat.zero_le _
  · rw [slice_zero]
    exact List.length_take_le' _ _

theorem cksum_lt (t : EdcTail) (s : List Bit) (wd : Nat) : cksum t s wd < 2 ^ wd := Nat.mod_lt _ (Nat.two_pow_pos wd)

/-! ### The CRC loop (R195 to R197) -/

theorem crcShift_lt (wd p c : Nat) : crcShift wd p c < 2 ^ wd := by
  rw [crcShift_eq]
  exact Nat.mod_lt _ (Nat.two_pow_pos wd)

theorem crcTableEntry_lt (wd p i : Nat) : crcTableEntry wd p i < 2 ^ wd := by
  rw [crcTableEntry_eq, Function.iterate_succ_apply']
  exact crcShift_lt wd p _

theorem crcByte_lt (wd p c b : Nat) : crcByte wd p c b < 2 ^ wd := by
  rw [crcByte_eq]
  exact Nat.xor_lt_two_pow (Nat.mod_lt _ (Nat.two_pow_pos wd)) (crcTableEntry_lt wd p _)

theorem foldl_crcByte_lt {wd : Nat} {c : Nat} (h : c < 2 ^ wd) (p : Nat) (bs : List Nat) :
    bs.foldl (crcByte wd p) c < 2 ^ wd := by
  induction bs generalizing c with
  | nil => exact h
  | cons b bs ih => exact ih (crcByte_lt wd p c b)

theorem crc_lt (q : Params) (p : Nat) (s : List Bit) (wd : Nat) : crc q p s wd < 2 ^ wd := by
  have hpos := Nat.two_pow_pos wd
  rw [crc_eq]
  exact Nat.xor_lt_two_pow (foldl_crcByte_lt (Nat.mod_lt _ hpos) p _) (Nat.mod_lt _ hpos)

/-- The polynomial in use is the standard one of the width or the one written (R46). -/
theorem polyFor_eq {c : Cfg} {wd poly : Nat}
    (hstd : c.crcPoly = .std → (wd, poly) ∈ [(8, 0xD5), (16, 0x8005), (24, 0x864CFB), (32, 0x04C11DB7)])
    (hpoly : ∀ v, c.crcPoly = .poly v → poly = v.toNat) : c.polyFor wd = poly := by
  unfold Cfg.polyFor
  cases hc : c.crcPoly with
  | std =>
    have hmem := hstd hc
    simp only [List.mem_cons, Prod.mk.injEq, List.not_mem_nil, or_false] at hmem
    rcases hmem with ⟨rfl, rfl⟩ | ⟨rfl, rfl⟩ | ⟨rfl, rfl⟩ | ⟨rfl, rfl⟩ <;> rfl
  | poly v => exact (hpoly v hc).symm

/-- The model's CRC is the loop of R195 to R197 written over the covered bits. -/
theorem crc_eq_loop {q : Params} {b cov : List Bit} {wd poly out : Nat} {shift table : Nat → Nat}
    (hshift : ∀ c, shift c = (if c / 2 ^ (wd - 1) % 2 = 1 then 2 * c ^^^ poly else 2 * c) % 2 ^ wd)
    (htable : ∀ i, table i = shift (shift (shift (shift (shift (shift (shift (shift (i * 2 ^ (wd - 8))))))))))
    (hcov : cov = if q.edcTail = .zeropad then b ++ List.replicate ((8 - b.length % 8) % 8) false else b)
    (hout : out = (List.range (cov.length / 8)).foldl
      (fun c i => (c * 256 % 2 ^ wd) ^^^ table ((c / 2 ^ (wd - 8) ^^^ numberOf ((cov.drop (8 * i)).take 8)) % 256))
      (q.crcInit % 2 ^ wd) ^^^ (q.crcXorOut % 2 ^ wd)) :
    crc q poly b wd = out := by
  have hentry (i : Nat) : table i = crcTableEntry wd poly i := by
    rw [htable, funext fun c => (hshift c).trans (crcShift_eq wd poly c).symm, crcTableEntry_eq]
    rfl
  rw [crc_eq, edcBytes_eq, ← hcov, bytesOf_eq, List.foldl_map, hout]
  simp only [crcByte_eq, slice_add, hentry]

end Sys2Proof.Machine

namespace Sys2Proof.Proofs

open Sys2Proof.Machine

/-- Settles O27: the model's blocks are the nine bits from each 9·i, and its flag is R182's test of each. -/
theorem parChkResult : Obligations.ParChkResult := by
  unfold Obligations.ParChkResult
  intro s b out err hs hw hout herr hfits
  have herr : parError b = err := Bool.eq_iff_iff.2 ((parError_iff_ninth b).trans herr.symm)
  rw [← parPayload_eq] at hout
  rw [exec_parChk_of_ready hs hw (hout ▸ hfits), ← hout, herr]

/-- Settles O29: the model cuts the field off at the end and compares it with the checksum of what is before it. -/
theorem cksChkResult : Obligations.CksChkResult := by
  unfold Obligations.CksChkResult
  intro s b p f cov wd sum err hs hw hwd
  refine ⟨fun hshort => ?_, fun hb hf hcov hsum herr hfits => ?_⟩
  · have hpayload := edcPayload_of_short hshort
    rw [exec_cksChk_of_ready hs hw hwd (hpayload ▸ bufFits_zero s.params), hpayload, edcError_of_short hshort]
  · have herr : edcError (fun p => cksum s.params.edcTail p wd) wd b = err := by
      rw [hb, edcError_append hf, cksum, sum_edcBytes_eq _ p cov hcov, ← hsum, natOfBits_eq_numberOf]
      exact Bool.eq_iff_iff.2 (bne_iff_ne.trans herr.symm)
    have hpayload : edcPayload wd b = p := hb ▸ edcPayload_append hf p
    rw [exec_cksChk_of_ready hs hw hwd (hpayload ▸ hfits), herr, hpayload]

/-- Settles O30: the model's CRC is the loop of R195 to R197. -/
theorem crcAddResult : Obligations.CrcAddResult := by
  unfold Obligations.CrcAddResult
  intro s b cov wd poly crc shift table hs hw hwd hstd hpoly hshift htable hcov hcrc hfits
  rw [exec_crcAdd_of_ready hs hw hwd, polyFor_eq hstd hpoly, crc_eq_loop hshift htable hcov hcrc, bitsOfNat_eq_fieldOf]
  refine runCommand_bufWrite_bits hs.1 ?_
  rwa [← bitsOfNat_eq_fieldOf, List.length_append, length_bitsOfNat]

/-- Settles O31: the model cuts the field off at the end and compares it with the CRC of what is before it. -/
theorem crcChkResult : Obligations.CrcChkResult := by
  unfold Obligations.CrcChkResult
  intro s b p f cov wd poly crc shift table err hs hw hwd
  refine ⟨fun hshort => ?_, fun hb hf hstd hpoly hshift htable hcov hcrc herr hfits => ?_⟩
  · have hpayload := edcPayload_of_short hshort
    rw [exec_crcChk_of_ready hs hw hwd (hpayload ▸ bufFits_zero s.params), hpayload, edcError_of_short hshort]
  · have herr : edcError (fun p => Machine.crc s.params (s.cfg.polyFor wd) p wd) wd b = err := by
      rw [hb, edcError_append hf, polyFor_eq hstd hpoly, crc_eq_loop hshift htable hcov hcrc, natOfBits_eq_numberOf]
      exact Bool.eq_iff_iff.2 (bne_iff_ne.trans herr.symm)
    have hpayload : edcPayload wd b = p := hb ▸ edcPayload_append hf p
    rw [exec_crcChk_of_ready hs hw hwd (hpayload ▸ hfits), herr, hpayload]

/-- Settles O32: the check's payload and code are those the add command had. -/
theorem edcRoundTrip : Obligations.EdcRoundTrip := by
  unfold Obligations.EdcRoundTrip
  intro s t b add chk hpair hs hw hbytes h ht
  simp only [List.mem_cons, Prod.mk.injEq, List.not_mem_nil, or_false] at hpair
  rcases hpair with ⟨rfl, rfl⟩ | ⟨rfl, rfl⟩ | ⟨rfl, rfl⟩
  · rw [exec_parAdd_of_ready hs hw] at h
    obtain ⟨hfits, rfl⟩ := of_runCommand_bufWrite hs.1 h ht
    have hpayload : parPayload (parAdd b) = b := by
      rw [parPayload_parAdd, Nat.mul_div_cancel' (hbytes rfl), List.take_length]
    have hfits := bufFits_mono (length_parPayload_le _) hfits
    rw [exec_parChk_of_ready (hs.withW (fun _ hf => hf) rfl _) rfl hfits, parError_parAdd, hpayload]
  · rw [exec_cksAdd_of_ready hs hw] at h
    obtain ⟨hfits, rfl⟩ := of_runCommand_bufWrite hs.1 h ht
    have hfits := bufFits_mono (length_edcPayload_le (regNat s.cfg.edcWidth) _) hfits
    rw [exec_cksChk_of_ready (hs.withW (fun _ hf => hf) rfl _) rfl rfl hfits, edcPayload_append (length_bitsOfNat _ _),
      edcError_append_code fun p => cksum_lt _ p _]
  · rw [exec_crcAdd_of_ready hs hw rfl] at h
    obtain ⟨hfits, rfl⟩ := of_runCommand_bufWrite hs.1 h ht
    have hfits := bufFits_mono (length_edcPayload_le (regNat s.cfg.edcWidth) _) hfits
    rw [exec_crcChk_of_ready (hs.withW (fun _ hf => hf) rfl _) rfl rfl hfits, edcPayload_append (length_bitsOfNat _ _),
      edcError_append_code fun p => crc_lt _ _ p _]

/-- Settles O33: PAR.ADD makes every block even, so the parity of a received block is that of its flips. -/
theorem parityDetectsOdd : Obligations.ParityDetectsOdd := by
  unfold Obligations.ParityDetectsOdd
  intro s t b c e hs hw h ht hc hlen
  rw [exec_parAdd_of_ready hs hw] at h
  obtain ⟨hfits, rfl⟩ := of_runCommand_bufWrite hs.1 h ht
  cases hc
  have hle : (parPayload (List.zipWith (· ^^ ·) (parAdd b) e)).length ≤ (parAdd b).length :=
    (length_parPayload_le _).trans (by simp)
  refine ⟨_, exec_parChk_of_ready (hs.withW (fun _ hf => hf) rfl _) rfl (bufFits_mono hle hfits), not_not.2 hs.1, ?_⟩
  exact parError_zipWith_xor_iff hlen (parError_parAdd b)

end Sys2Proof.Proofs
end

section
/-!
SUPPORT. Why the CRC detects every single flipped bit (spec 41_edc.md R200): the register is a linear function of its
start value and of the bytes, and a single 1 in it never dies out under the shifts of R196.
-/

namespace Sys2Proof.Machine

/-! ### The shift register is linear -/

theorem xor_mul_two_pow (x y k : Nat) : (x ^^^ y) * 2 ^ k = x * 2 ^ k ^^^ y * 2 ^ k := by
  simp only [← Nat.shiftLeft_eq, Nat.shiftLeft_xor_distrib]

/-- A shift doubles the register and adds the polynomial if the top bit is 1. -/
theorem crcShift_eq_testBit (wd p c : Nat) :
    crcShift wd p c = (2 * c ^^^ if c.testBit (wd - 1) = true then p else 0) % 2 ^ wd := by
  rw [crcShift_eq, Nat.testBit_eq_decide_div_mod_eq]
  by_cases h : c / 2 ^ (wd - 1) % 2 = 1 <;> simp [h]

theorem crcShift_xor (wd p x y : Nat) : crcShift wd p (x ^^^ y) = crcShift wd p x ^^^ crcShift wd p y := by
  have hdouble : 2 * (x ^^^ y) = 2 * x ^^^ 2 * y := by simpa [Nat.mul_comm 2] using xor_mul_two_pow x y 1
  have hadd : (if (x ^^^ y).testBit (wd - 1) = true then p else 0) =
      (if x.testBit (wd - 1) = true then p else 0) ^^^ if y.testBit (wd - 1) = true then p else 0 := by
    rw [Nat.testBit_xor]
    cases x.testBit (wd - 1) <;> cases y.testBit (wd - 1) <;> simp
  simp only [crcShift_eq_testBit, ← Nat.xor_mod_two_pow, hdouble, hadd]
  ac_rfl

theorem crcShift_iterate_xor (wd p n x y : Nat) :
    (crcShift wd p)^[n] (x ^^^ y) = (crcShift wd p)^[n] x ^^^ (crcShift wd p)^[n] y := by
  induction n generalizing x y with
  | zero => rfl
  | succ n ih => rw [Function.iterate_succ_apply, crcShift_xor, ih, ← Function.iterate_succ_apply,
      ← Function.iterate_succ_apply]

theorem crcShift_of_lt {wd p c : Nat} (h : 2 * c < 2 ^ wd) : crcShift wd p c = 2 * c := by
  have htop : c.testBit (wd - 1) = false := by
    cases wd with
    | zero => simp [show c = 0 by omega]
    | succ wd => exact Nat.testBit_lt_two_pow (by rw [Nat.pow_succ] at h; exact (by omega : c < 2 ^ wd))
  rw [crcShift_eq_testBit, htop, if_neg Bool.false_ne_true, Nat.xor_zero, Nat.mod_eq_of_lt h]

theorem crcShift_iterate_of_lt {wd p n c : Nat} (h : c * 2 ^ n < 2 ^ wd) : (crcShift wd p)^[n] c = c * 2 ^ n := by
  induction n with
  | zero => simp
  | succ n ih =>
    rw [Nat.pow_succ, ← Nat.mul_assoc] at h ⊢
    rw [Function.iterate_succ_apply', ih (by omega), crcShift_of_lt (by omega), Nat.mul_comm]

theorem crcShift_iterate_lt {wd c : Nat} (h : c < 2 ^ wd) (p n : Nat) : (crcShift wd p)^[n] c < 2 ^ wd := by
  cases n with
  | zero => exact h
  | succ n =>
    rw [Function.iterate_succ_apply']
    exact crcShift_lt wd p _

/-- The table's byte step is eight shifts after the byte is added at the top (R196, R197). -/
theorem crcByte_eq_iterate {wd c b : Nat} (hwd : 8 ≤ wd) (hc : c < 2 ^ wd) (hb : b < 256) (p : Nat) :
    crcByte wd p c b = (crcShift wd p)^[8] (c ^^^ b * 2 ^ (wd - 8)) := by
  obtain ⟨k, rfl⟩ : ∃ k, wd = k + 8 := ⟨wd - 8, by omega⟩
  have hpow : 2 ^ (k + 8) = 2 ^ k * 256 := Nat.pow_add 2 k 8
  have hhi : c / 2 ^ k < 256 := Nat.div_lt_of_lt_mul (hpow ▸ hc)
  have hindex : (c / 2 ^ k ^^^ b) % 256 = c / 2 ^ k ^^^ b :=
    Nat.mod_eq_of_lt (Nat.xor_lt_two_pow (n := 8) hhi hb)
  have hsplit : c = c % 2 ^ k ^^^ c / 2 ^ k * 2 ^ k := by
    refine Nat.eq_of_testBit_eq fun i => ?_
    rw [Nat.testBit_xor, Nat.testBit_mod_two_pow, Nat.testBit_mul_two_pow, Nat.testBit_div_two_pow]
    by_cases hi : i < k
    · simp [hi, Nat.not_le.2 hi]
    · simp [hi, Nat.not_lt.1 hi]
  have hlow : (crcShift (k + 8) p)^[8] (c % 2 ^ k) = c * 256 % 2 ^ (k + 8) := by
    have hlt : c % 2 ^ k * 2 ^ 8 < 2 ^ (k + 8) := by
      have := Nat.mod_lt c (Nat.two_pow_pos k)
      omega
    rw [crcShift_iterate_of_lt hlt, hpow, Nat.mul_mod_mul_right]
    rfl
  rw [crcByte_eq, Nat.add_sub_cancel, hindex, crcTableEntry_eq, Nat.add_sub_cancel, xor_mul_two_pow,
    crcShift_iterate_xor, ← hlow]
  conv_rhs => rw [hsplit, Nat.xor_assoc, crcShift_iterate_xor, crcShift_iterate_xor]

/-- A difference of two register values goes through the rest of the bytes on its own. -/
theorem foldl_crcByte_xor {wd c d : Nat} (hwd : 8 ≤ wd) (hc : c < 2 ^ wd) (hd : d < 2 ^ wd) (p : Nat) {bs : List Nat}
    (hbs : ∀ b ∈ bs, b < 256) :
    bs.foldl (crcByte wd p) (c ^^^ d) = bs.foldl (crcByte wd p) c ^^^ (crcShift wd p)^[8 * bs.length] d := by
  induction bs generalizing c d with
  | nil => rfl
  | cons b bs ih =>
    have hb : b < 256 := hbs b List.mem_cons_self
    have hstep : crcByte wd p (c ^^^ d) b = crcByte wd p c b ^^^ (crcShift wd p)^[8] d := by
      rw [crcByte_eq_iterate hwd (Nat.xor_lt_two_pow hc hd) hb, crcByte_eq_iterate hwd hc hb, Nat.xor_right_comm,
        crcShift_iterate_xor]
    rw [List.foldl_cons, List.foldl_cons, hstep,
      ih (crcByte_lt wd p c b) (crcShift_iterate_lt hd p 8) fun b' hb' => hbs b' (List.mem_cons_of_mem b hb'),
      List.length_cons, Nat.mul_succ, Function.iterate_add_apply]

/-! ### A single 1 never dies out -/

/-- Register values that no number of shifts makes 0, `a` being the place of the polynomial's lowest 1: a single 1, and
what is not 0 and has no 1 below `a`. -/
def IsLive (wd a c : Nat) : Prop :=
  (∃ j < wd, c = 2 ^ j) ∨ (c ≠ 0 ∧ c < 2 ^ wd ∧ ∀ i < a, c.testBit i = false)

theorem IsLive.ne_zero {wd a c : Nat} (h : IsLive wd a c) : c ≠ 0 := by
  rcases h with ⟨j, _, rfl⟩ | ⟨h, _⟩
  · exact (Nat.two_pow_pos j).ne'
  · exact h

theorem crcShift_two_pow_last {wd p : Nat} (hwd : 0 < wd) (hp : p < 2 ^ wd) : crcShift wd p (2 ^ (wd - 1)) = p := by
  have hdouble : 2 * 2 ^ (wd - 1) = 2 ^ wd := mul_pow_sub_one hwd.ne' 2
  rw [crcShift_eq_testBit, hdouble, Nat.testBit_two_pow_self, if_pos rfl, Nat.xor_mod_two_pow, Nat.mod_self,
    Nat.zero_xor, Nat.mod_eq_of_lt hp]

theorem testBit_of_two_mul_ge {wd c : Nat} (hlt : c < 2 ^ wd) (h : 2 ^ wd ≤ 2 * c) : c.testBit (wd - 1) = true := by
  cases wd with
  | zero => omega
  | succ k =>
    rw [Nat.pow_succ] at hlt h
    have hone : c / 2 ^ k = 1 := Nat.div_eq_of_lt_le (by omega) (by omega)
    simp [Nat.testBit_eq_decide_div_mod_eq, hone]

theorem testBit_two_mul_of_low {a c i : Nat} (hzero : ∀ i < a, c.testBit i = false) (hi : i ≤ a) :
    (2 * c).testBit i = false := by
  cases i with
  | zero => simp
  | succ i => rw [Nat.testBit_succ, Nat.mul_div_cancel_left c (by decide), hzero i hi]

theorem lt_of_testBit {p wd a : Nat} (hp : p < 2 ^ wd) (ha : p.testBit a = true) : a < wd := by
  by_contra hge
  have hle : 2 ^ wd ≤ 2 ^ a := Nat.pow_le_pow_right (by decide) (Nat.not_lt.1 hge)
  exact Bool.false_ne_true ((Nat.testBit_lt_two_pow (hp.trans_le hle)).symm.trans ha)

/-- A shift keeps a register value live: where the polynomial is added, its lowest 1 stays. -/
theorem IsLive.shift {wd p a c : Nat} (h : IsLive wd a c) (hp : p < 2 ^ wd) (ha : p.testBit a = true)
    (hlow : ∀ i < a, p.testBit i = false) : IsLive wd a (crcShift wd p c) := by
  have haw := lt_of_testBit hp ha
  rcases h with ⟨j, hj, rfl⟩ | ⟨hne, hlt, hzero⟩
  · by_cases hnext : j + 1 < wd
    · have hpow : 2 * 2 ^ j = 2 ^ (j + 1) := by rw [Nat.pow_succ, Nat.mul_comm]
      refine .inl ⟨j + 1, hnext, ?_⟩
      rw [crcShift_of_lt (hpow ▸ Nat.pow_lt_pow_right (by decide) hnext), hpow]
    · obtain rfl : j = wd - 1 := by omega
      rw [crcShift_two_pow_last (by omega) hp]
      exact .inr ⟨fun h0 => by simp [h0] at ha, hp, hlow⟩
  · by_cases hdouble : 2 * c < 2 ^ wd
    · rw [crcShift_of_lt hdouble]
      exact .inr ⟨by omega, hdouble, fun i hi => testBit_two_mul_of_low hzero (Nat.le_of_lt hi)⟩
    · have hbit (i : Nat) (hi : i ≤ a) : (crcShift wd p c).testBit i = p.testBit i := by
        rw [crcShift_eq_testBit, testBit_of_two_mul_ge hlt (Nat.not_lt.1 hdouble), if_pos rfl, Nat.testBit_mod_two_pow,
          Nat.testBit_xor, testBit_two_mul_of_low hzero hi, Bool.false_xor, decide_eq_true (by omega), Bool.true_and]
      refine .inr ⟨fun h0 => ?_, crcShift_lt wd p c, fun i hi => (hbit i hi.le).trans (hlow i hi)⟩
      have htrue := (hbit a le_rfl).trans ha
      simp [h0] at htrue

/-- No number of shifts makes a single 1 vanish, whatever the polynomial. -/
theorem crcShift_iterate_two_pow_ne_zero {wd p j : Nat} (hpos : 0 < p) (hp : p < 2 ^ wd) (hj : j < wd) (n : Nat) :
    (crcShift wd p)^[n] (2 ^ j) ≠ 0 := by
  have hsome : ∃ a, p.testBit a = true := Nat.exists_testBit_of_ne_zero hpos.ne'
  have hlow (i : Nat) (hi : i < Nat.find hsome) : p.testBit i = false := by
    simpa using Nat.find_min hsome hi
  suffices hlive : IsLive wd (Nat.find hsome) ((crcShift wd p)^[n] (2 ^ j)) from hlive.ne_zero
  induction n with
  | zero => exact .inl ⟨j, hj, rfl⟩
  | succ n ih =>
    rw [Function.iterate_succ_apply']
    exact ih.shift hp (Nat.find_spec hsome) hlow

/-- The register after bytes of which one has one bit flipped differs from that without the flip. -/
theorem foldl_crcByte_modify_ne {wd p c e n : Nat} {bs : List Nat} (hwd : 8 ≤ wd) (hpos : 0 < p) (hp : p < 2 ^ wd)
    (hc : c < 2 ^ wd) (hbs : ∀ b ∈ bs, b < 256) (he : e < 8) (hn : n < bs.length) :
    (bs.modify n (· ^^^ 2 ^ e)).foldl (crcByte wd p) c ≠ bs.foldl (crcByte wd p) c := by
  obtain ⟨before, b, after, rfl, -, hmod⟩ := List.exists_of_modify (· ^^^ 2 ^ e) hn
  have hb : b < 256 := hbs b (by simp)
  have hpow : 2 ^ e < 2 ^ 8 := Nat.pow_lt_pow_right (by decide) he
  have hreg := foldl_crcByte_lt hc p before
  have htop : 2 ^ e * 2 ^ (wd - 8) = 2 ^ (e + (wd - 8)) := (Nat.pow_add 2 _ _).symm
  have hstep : crcByte wd p (before.foldl (crcByte wd p) c) (b ^^^ 2 ^ e) =
      crcByte wd p (before.foldl (crcByte wd p) c) b ^^^ (crcShift wd p)^[8] (2 ^ (e + (wd - 8))) := by
    rw [crcByte_eq_iterate hwd hreg (Nat.xor_lt_two_pow (n := 8) hb hpow), crcByte_eq_iterate hwd hreg hb,
      xor_mul_two_pow, ← Nat.xor_assoc, crcShift_iterate_xor, htop]
  have hdiff : (crcShift wd p)^[8] (2 ^ (e + (wd - 8))) < 2 ^ wd :=
    crcShift_iterate_lt (Nat.pow_lt_pow_right (by decide) (by omega)) p 8
  rw [hmod, List.foldl_append, List.foldl_append, List.foldl_cons, List.foldl_cons, hstep,
    foldl_crcByte_xor hwd (crcByte_lt wd p _ b) hdiff p fun b' hb' => hbs b' (by simp [hb']),
    ← Function.iterate_add_apply]
  intro heq
  refine crcShift_iterate_two_pow_ne_zero hpos hp (by omega : e + (wd - 8) < wd) (8 * after.length + 8) ?_
  simpa using heq

/-! ### A flipped bit in a byte and in the field -/

theorem bitsOfNat_xor_two_pow {w k : Nat} (hk : k < w) (v : Nat) :
    bitsOfNat (v ^^^ 2 ^ (w - 1 - k)) w = (bitsOfNat v w).modify k not := by
  refine List.ext_getElem (by simp) fun i h1 h2 => ?_
  have hi : i < w := by simpa using h1
  simp only [bitsOfNat, List.getElem_map, List.getElem_range, List.getElem_modify, Nat.testBit_xor, Nat.testBit_two_pow]
  by_cases hki : k = i
  · simp [hki]
  · have hne : w - 1 - k ≠ w - 1 - i := by omega
    simp [hki, hne]

/-- Flipping one bit of a sequence flips one binary digit of its number (20_memory.md R71). -/
theorem natOfBits_modify_not {s : List Bit} {k : Nat} (hk : k < s.length) :
    natOfBits (s.modify k not) = natOfBits s ^^^ 2 ^ (s.length - 1 - k) := by
  have hlt : natOfBits s ^^^ 2 ^ (s.length - 1 - k) < 2 ^ s.length :=
    Nat.xor_lt_two_pow (natOfBits_lt s) (Nat.pow_lt_pow_right (by decide) (by omega))
  have hbits := bitsOfNat_xor_two_pow hk (natOfBits s)
  rw [bitsOfNat_natOfBits] at hbits
  rw [← hbits, natOfBits_bitsOfNat, Nat.mod_eq_of_lt hlt]

/-- The block that holds a changed element is changed there, and no other block is. -/
theorem take_drop_modify {α : Type} (f : α → α) {p : Nat} (hp : 0 < p) (s : List α) (k i : Nat) :
    ((s.modify k f).drop (p * i)).take p =
      if k / p = i then ((s.drop (p * i)).take p).modify (k % p) f else (s.drop (p * i)).take p := by
  have hk : p * (k / p) + k % p = k := Nat.div_add_mod k p
  refine List.ext_getElem? fun j => ?_
  by_cases hj : j < p
  · have hiff : k = p * i + j ↔ k / p = i ∧ k % p = j := by
      constructor
      · rintro rfl
        exact ⟨by rw [Nat.mul_add_div hp, Nat.div_eq_of_lt hj, Nat.add_zero], by
          rw [Nat.mul_add_mod, Nat.mod_eq_of_lt hj]⟩
      · rintro ⟨rfl, rfl⟩
        exact hk.symm
    by_cases hi : k / p = i <;> simp [List.getElem?_modify, hj, hiff, hi]
  · have hnone : ∀ l : List α, (l.take p)[j]? = none := fun l => by simp [hj]
    split <;> simp [hnone, List.getElem?_modify]

theorem bytesOf_modify_not (s : List Bit) (k : Nat) :
    bytesOf (s.modify k not) = (bytesOf s).modify (k / 8) (· ^^^ 2 ^ (7 - k % 8)) := by
  refine List.ext_getElem (by simp) fun i h1 h2 => ?_
  have hi : i < s.length / 8 := by simpa using h1
  have hlen := length_take_drop_of_lt_div hi
  simp only [bytesOf, blocks_eq_map_take_drop, List.getElem_map, List.getElem_range, List.getElem_modify,
    take_drop_modify not (by decide : 0 < 8)]
  split
  · rw [natOfBits_modify_not (by rw [hlen]; exact Nat.mod_lt _ (by decide)), hlen]
  · rfl

theorem modify_append_of_lt {α : Type} {f : α → α} {l : List α} {k : Nat} (h : k < l.length) (r : List α) :
    (l ++ r).modify k f = l.modify k f ++ r := by
  induction l generalizing k with
  | nil => exact absurd h (Nat.not_lt_zero k)
  | cons x l ih =>
    cases k with
    | zero => rfl
    | succ k => simpa using ih (by simpa using h)

theorem modify_append_of_le {α : Type} {f : α → α} {l : List α} {k : Nat} (h : l.length ≤ k) (r : List α) :
    (l ++ r).modify k f = l ++ r.modify (k - l.length) f := by
  induction l generalizing k with
  | nil => rfl
  | cons x l ih =>
    cases k with
    | zero => exact absurd h (Nat.not_succ_le_zero _)
    | succ k => simpa using ih (by simpa using h)

/-- The bits a check covers, zero-padded under `zeropad` (R185). -/
def coveredBits (t : EdcTail) (b : List Bit) : List Bit :=
  if t = .zeropad then b ++ List.replicate ((8 - b.length % 8) % 8) false else b

/-- A flipped bit of W is a flipped covered bit. -/
theorem coveredBits_modify_not {b : List Bit} {k : Nat} (hk : k < b.length) (t : EdcTail) :
    coveredBits t (b.modify k not) = (coveredBits t b).modify k not := by
  unfold coveredBits
  split
  · rw [List.length_modify, modify_append_of_lt hk]
  · rfl

/-- The last byte is covered whole under `zeropad`, else the complete bytes are (R185). -/
theorem lt_covered {t : EdcTail} {b : List Bit} {k : Nat}
    (hk : k < 8 * (b.length / 8) ∨ (t = .zeropad ∧ k < b.length)) : k / 8 < (coveredBits t b).length / 8 := by
  unfold coveredBits
  cases t with
  | exclude =>
    have hk := hk.resolve_right fun h => nomatch h.1
    rw [if_neg nofun]
    omega
  | zeropad =>
    rw [if_pos rfl, List.length_append, List.length_replicate]
    omega

/-- With a covered bit flipped the CRC is another one. -/
theorem crc_modify_not_ne {q : Params} {p wd k : Nat} {b : List Bit} (hwd : 8 ≤ wd) (hpos : 0 < p) (hp : p < 2 ^ wd)
    (hk : k < b.length) (hcov : k < 8 * (b.length / 8) ∨ (q.edcTail = .zeropad ∧ k < b.length)) :
    crc q p (b.modify k not) wd ≠ crc q p b wd := by
  have hbytes (s : List Bit) : edcBytes q.edcTail s = bytesOf (coveredBits q.edcTail s) := edcBytes_eq _ s
  have hne := foldl_crcByte_modify_ne (c := q.crcInit % 2 ^ wd) (e := 7 - k % 8) hwd hpos hp
    (Nat.mod_lt _ (Nat.two_pow_pos wd)) (fun v hv => lt_of_mem_bytesOf hv) (by omega)
    ((lt_covered hcov).trans_eq (length_bytesOf _).symm)
  rw [crc_eq, crc_eq, hbytes, hbytes, coveredBits_modify_not hk, bytesOf_modify_not]
  exact fun heq => hne (Nat.xor_left_inj.1 heq)

/-- With a covered bit or a bit of the field flipped the check reports an error. -/
theorem edcError_crc_modify_not {q : Params} {p wd k : Nat} {b : List Bit} (hwd : 8 ≤ wd) (hpos : 0 < p)
    (hp : p < 2 ^ wd) (hk : k < b.length + wd)
    (hcov : k < 8 * (b.length / 8) ∨ (q.edcTail = .zeropad ∧ k < b.length) ∨ b.length ≤ k) :
    edcError (fun s => crc q p s wd) wd ((b ++ bitsOfNat (crc q p b wd) wd).modify k not) = true := by
  have hfield : natOfBits (bitsOfNat (crc q p b wd) wd) = crc q p b wd := by
    rw [natOfBits_bitsOfNat, Nat.mod_eq_of_lt (crc_lt q p b wd)]
  rcases Nat.lt_or_ge k b.length with hlt | hge
  · have hcov := (or_assoc.2 hcov).resolve_right (Nat.not_le.2 hlt)
    rw [modify_append_of_lt hlt, edcError_append (length_bitsOfNat _ _), hfield]
    exact bne_iff_ne.2 (crc_modify_not_ne hwd hpos hp hlt hcov)
  · rw [modify_append_of_le hge, edcError_append (by simp),
      natOfBits_modify_not (by rw [length_bitsOfNat]; omega), hfield]
    refine bne_iff_ne.2 fun heq => ?_
    have hzero : 0 = 2 ^ (wd - 1 - (k - b.length)) := by
      simpa [← Nat.xor_assoc] using congrArg (crc q p b wd ^^^ ·) heq
    exact (Nat.two_pow_pos _).ne hzero

/-- The width and the polynomial in use are legal when CRC.ADD is ready (R45, R46). -/
theorem crc_config_of_ready {s : State} (hs : s.Ready .crcAdd) :
    8 ≤ regNat s.cfg.edcWidth ∧ 0 < s.cfg.polyFor (regNat s.cfg.edcWidth) ∧
      s.cfg.polyFor (regNat s.cfg.edcWidth) < 2 ^ regNat s.cfg.edcWidth := by
  obtain ⟨_, hwidth⟩ := hs.2 .edcWidth (by decide)
  obtain ⟨_, hpoly⟩ := hs.2 .crcPoly (by decide)
  have hwd : regNat s.cfg.edcWidth = 8 ∨ regNat s.cfg.edcWidth = 16 ∨ regNat s.cfg.edcWidth = 24 ∨
      regNat s.cfg.edcWidth = 32 := by simpa [Cfg.isLegal] using hwidth
  refine ⟨by omega, ?_⟩
  unfold Cfg.polyFor
  cases hc : s.cfg.crcPoly with
  | std => rcases hwd with h | h | h | h <;> rw [h] <;> decide
  | poly v => simpa [Cfg.isLegal, hc, Nat.succ_le_iff] using hpoly

end Sys2Proof.Machine

namespace Sys2Proof.Proofs

open Sys2Proof.Machine

/-- Settles O34: a flipped covered bit leaves a difference in the register that no later byte takes away, and a flipped
bit of the field changes the field's number. -/
theorem crcDetectsSingleBit : Obligations.CrcDetectsSingleBit := by
  unfold Obligations.CrcDetectsSingleBit
  intro s t b c k hs hw h ht hc hk hcov
  rw [exec_crcAdd_of_ready hs hw rfl] at h
  obtain ⟨hfits, rfl⟩ := of_runCommand_bufWrite hs.1 h ht
  cases hc
  obtain ⟨hwd, hpos, hp⟩ := crc_config_of_ready hs
  have hlen : (b ++ bitsOfNat (crc s.params (s.cfg.polyFor (regNat s.cfg.edcWidth)) b (regNat s.cfg.edcWidth))
      (regNat s.cfg.edcWidth)).length = b.length + regNat s.cfg.edcWidth := by simp
  refine ⟨_, exec_crcChk_of_ready (hs.withW (fun _ hf => hf) rfl _) rfl rfl ?_, not_not.2 hs.1,
    edcError_crc_modify_not hwd hpos hp (hlen ▸ hk) hcov⟩
  refine bufFits_mono (length_edcPayload_le _ _) ?_
  rwa [List.length_modify]

end Sys2Proof.Proofs
end

section
/-!
SUPPORT. The reverse framers on frames of any length, and each after its forward framer (spec 42_framers.md R232 to
R242).
-/

namespace Sys2Proof.Machine

/-! ### Reverse framers (R232, R237, R241) -/

theorem ready_of_fieldsRead_nil {i : Instr} {s : State} (hi : fieldsRead i = []) (hs : s.st.fault = .none) :
    s.Ready i :=
  ⟨hs, fun _ hf => absurd (hi ▸ hf) List.not_mem_nil⟩

section
variable {s : State} {f : List Bit} (hs : s.st.fault = .none) (hw : s.w = .bits f)
include hs hw

theorem exec_bcfUnf_of_bits (hfits : bufFits s.params (bcfUnframe f).length = true) :
    exec .bcfUnf s = .next { s with w := .bits (bcfUnframe f) } :=
  (runCommand_bits_of_ready (ready_of_fieldsRead_nil (i := .bcfUnf) rfl hs) hw _).trans
    (runCommand_bufWrite_bits hs hfits)

theorem exec_bsfUnf_of_bits (hfits : bufFits s.params (bsfUnframe f).length = true) :
    exec .bsfUnf s = .next { s with w := .bits (bsfUnframe f) } :=
  (runCommand_bits_of_ready (ready_of_fieldsRead_nil (i := .bsfUnf) rfl hs) hw _).trans
    (runCommand_bufWrite_bits hs hfits)

theorem exec_ysfUnf_of_bits (hfits : bufFits s.params (ysfUnframe f).length = true) :
    exec .ysfUnf s = .next { s with w := .bits (ysfUnframe f) } :=
  (runCommand_bits_of_ready (ready_of_fieldsRead_nil (i := .ysfUnf) rfl hs) hw _).trans
    (runCommand_bufWrite_bits hs hfits)

end

theorem bcfUnframe_eq (f : List Bit) :
    bcfUnframe f = if f.length < 16 then [] else (f.drop 16).take (numberOf (f.take 16)) := by
  rw [bcfUnframe, slice_add, slice_zero, natOfBits_eq_numberOf]

theorem stripFlags_eq (f : List Bit) : stripFlags f = (f.drop 8).take (f.length - 16) := by
  rw [stripFlags, slice, Nat.sub_sub]

/-- R240's scan has one solution, the model's `unescape`. -/
theorem eq_unescape_of_scan {scan : List Bit → List Bit}
    (h : ∀ r, scan r = if r.length < 8 then r
      else if r.take 8 = escBits then
        (if r.length < 16 then [] else xorBits ((r.drop 8).take 8) maskBits ++ scan (r.drop 16))
      else r.take 8 ++ scan (r.drop 8)) (r : List Bit) : scan r = unescape r := by
  induction hn : r.length using Nat.strong_induction_on generalizing r with
  | _ n ih =>
    rw [h r, unescape_eq r]
    split
    · rfl
    · rw [ih (r.drop 8).length (by simp; omega) _ rfl, ih (r.drop 16).length (by simp; omega) _ rfl]

/-! ### Frames that are complete -/

theorem length_wrapFlags (b : List Bit) : (wrapFlags b).length = b.length + 16 := by
  simp [wrapFlags, flagBits]

/-- Stripping the flags by position takes off the two that were put on. -/
theorem stripFlags_wrapFlags (b : List Bit) : stripFlags (wrapFlags b) = b := by
  rw [stripFlags_eq, length_wrapFlags, Nat.add_sub_cancel, wrapFlags, List.append_assoc,
    List.drop_left' (show flagBits.length = 8 from rfl), List.take_left]

theorem bsfUnframe_wrapFlags (b : List Bit) : bsfUnframe (wrapFlags b) = unstuff b := by
  rw [bsfUnframe, stripFlags_wrapFlags, length_wrapFlags]
  cases b with
  | nil => rfl
  | cons x b => rw [if_neg (by simp)]

theorem ysfUnframe_wrapFlags (b : List Bit) : ysfUnframe (wrapFlags b) = unescape b := by
  rw [ysfUnframe, stripFlags_wrapFlags, length_wrapFlags]
  cases b with
  | nil => rfl
  | cons x b => rw [if_neg (by simp)]

/-- A forward framer that completed had a payload within the largest limit and wrote its frame. -/
theorem of_runCommand_frameBody {i : Instr} {s t : State} {b : List Bit} {frame : List Bit → List Bit}
    (hi : .maxFrameBytes ∈ fieldsRead i) (hs : s.Ready i) (hw : s.w = .bits b)
    (h : runCommand s (frameBody i frame s) = .next t) (ht : ¬ t.Faulted) :
    b.length ≤ 8192 ∧ bufFits s.params (frame b).length = true ∧ t = { s with w := .bits (frame b) } := by
  obtain ⟨_, hlegal⟩ := hs.2 .maxFrameBytes hi
  obtain ⟨_, hmax⟩ := isLegal_maxFrameBytes_iff.1 hlegal
  rw [runCommand_frameBody_of_ready hi hs hw rfl] at h
  rcases Nat.lt_or_ge (8 * regNat s.cfg.maxFrameBytes) b.length with hover | hle
  · rw [checkFrameSize_of_over hover, error_bind] at h
    exact absurd (faulted_of_runCommand_error hs.1 (by simp) h) ht
  · rw [checkFrameSize_of_le hle, ok_bind] at h
    exact ⟨by omega, of_runCommand_bufWrite hs.1 h ht⟩

theorem State.withW_self {s : State} {v : Buffer} (h : s.w = v) : { s with w := v } = s := by
  subst h
  rfl

/-! ### Byte count (R231, R232) -/

theorem bcfUnframe_bcfFrame {b : List Bit} (h : b.length ≤ 8192) : bcfUnframe (bcfFrame b) = b := by
  have hlt : b.length % 2 ^ 16 = b.length := Nat.mod_eq_of_lt (by omega)
  rw [bcfUnframe, length_bcfFrame, if_neg (by omega), slice_zero, slice_add, bcfFrame,
    List.take_left' (length_bitsOfNat _ _), List.drop_left' (length_bitsOfNat _ _), natOfBits_bitsOfNat, hlt,
    List.take_length]

/-! ### Bit stuffing (R234 to R237) -/

theorem unstuffFrom_stuffFrom (s : List Bit) {c : Nat} (hc : c < 5) : unstuffFrom c (stuffFrom c s) = s := by
  induction s generalizing c with
  | nil => rfl
  | cons x s ih =>
    have hne : c ≠ 5 := Nat.ne_of_lt hc
    cases x with
    | false => simp [stuffFrom, unstuffFrom, hne, ih]
    | true =>
      by_cases h : c + 1 = 5
      · simp [stuffFrom, unstuffFrom, hne, h, ih]
      · simp [stuffFrom, unstuffFrom, hne, h, ih (by omega : c + 1 < 5)]

theorem unstuff_stuff (s : List Bit) : unstuff (stuff s) = s := unstuffFrom_stuffFrom s (by decide)

theorem length_unstuffFrom_le (c : Nat) (b : List Bit) : (unstuffFrom c b).length ≤ b.length := by
  induction b generalizing c with
  | nil => exact le_rfl
  | cons x b ih =>
    unfold unstuffFrom
    split
    · exact (ih 0).trans (Nat.le_succ _)
    · exact Nat.succ_le_succ (ih _)

theorem eq_zero_of_replicate_prefix_false_cons {m : Nat} {s : List Bit}
    (h : List.replicate m true <+: false :: s) : m = 0 := by
  cases m with
  | zero => rfl
  | succ m => exact absurd (List.cons_prefix_cons.1 h).1 nofun

/-- After `c` 1-bits, at most `5 - c` more come before a 0 or the end. -/
theorem add_le_of_replicate_prefix_stuffFrom {s : List Bit} {c m : Nat} (hc : c < 5)
    (h : List.replicate m true <+: stuffFrom c s) : m + c ≤ 5 := by
  induction s generalizing c m with
  | nil =>
    obtain rfl : m = 0 := by simpa [stuffFrom] using h.length_le
    omega
  | cons x s ih =>
    cases x with
    | false =>
      obtain rfl := eq_zero_of_replicate_prefix_false_cons h
      omega
    | true =>
      cases m with
      | zero => omega
      | succ m =>
        unfold stuffFrom at h
        split at h
        · obtain rfl := eq_zero_of_replicate_prefix_false_cons (List.cons_prefix_cons.1 h).2
          omega
        · have hle := ih (by omega) (List.cons_prefix_cons.1 h).2
          omega

/-- Stuffed bits have no more than five 1-bits in a row anywhere (R234). -/
theorem le_of_replicate_infix_stuffFrom {s : List Bit} {c m : Nat} (hc : c < 5)
    (h : List.replicate m true <:+: stuffFrom c s) : m ≤ 5 := by
  induction s generalizing c with
  | nil =>
    have hle := h.length_le
    simp [stuffFrom] at hle
    omega
  | cons x s ih =>
    have hprefix (hp : List.replicate m true <+: stuffFrom c (x :: s)) : m ≤ 5 :=
      (Nat.le_add_right m c).trans (add_le_of_replicate_prefix_stuffFrom hc hp)
    cases x with
    | false => exact (List.infix_cons_iff.1 h).elim hprefix (ih (by decide))
    | true =>
      by_cases hlast : c + 1 = 5
      · rw [stuffFrom, if_pos hlast] at h hprefix
        rcases List.infix_cons_iff.1 h with hp | hi
        · exact hprefix hp
        rcases List.infix_cons_iff.1 hi with hp | hi
        · exact (eq_zero_of_replicate_prefix_false_cons hp).le.trans (Nat.zero_le 5)
        · exact ih (by decide) hi
      · rw [stuffFrom, if_neg hlast] at h hprefix
        exact (List.infix_cons_iff.1 h).elim hprefix (ih (by omega))

/-- Between the flags no six 1-bits follow each other (R235). -/
theorem no_six_ones_stuff (s : List Bit) (k : Nat) : ((stuff s).drop k).take 6 ≠ List.replicate 6 true := by
  intro h
  have hinfix : List.replicate 6 true <:+: stuff s :=
    h ▸ ((List.take_prefix 6 _).isInfix.trans (List.drop_suffix k _).isInfix)
  have hle := le_of_replicate_infix_stuffFrom (by decide) hinfix
  omega

/-! ### Byte stuffing (R238 to R241) -/

/-- Induction over the complete bytes of a sequence, from its tail. -/
theorem byteInduction {P : List Bit → Prop} (short : ∀ r, r.length < 8 → P r)
    (byte : ∀ a s, a.length = 8 → P s → P (a ++ s)) (r : List Bit) : P r := by
  induction hn : r.length using Nat.strong_induction_on generalizing r with
  | _ n ih =>
    rcases Nat.lt_or_ge r.length 8 with h | h
    · exact short r h
    · rw [← List.take_append_drop 8 r]
      exact byte _ _ (by simpa using h) (ih _ (by simp; omega) _ rfl)

theorem escape_of_short {r : List Bit} (h : r.length < 8) : escape r = r := by
  rw [escape, blocks_of_lt h, tailBits_eq, Nat.div_eq_of_lt h]
  rfl

theorem escape_append {a : List Bit} (ha : a.length = 8) (s : List Bit) :
    escape (a ++ s) = escapeByte a ++ escape s := by
  rw [escape, blocks_append (by decide) ha, tailBits_append ha, List.flatMap_cons, List.append_assoc, escape]

/-- A byte FLAG or ESC becomes two bytes, ESC and one that is neither; another byte stays. -/
theorem escapeByte_cases (a : List Bit) :
    ((a = flagBits ∨ a = escBits) ∧ escapeByte a = escBits ++ xorBits a maskBits) ∨
    (a ≠ flagBits ∧ a ≠ escBits ∧ escapeByte a = a) := by
  by_cases h : a = flagBits ∨ a = escBits
  · exact .inl ⟨h, if_pos h⟩
  · exact .inr ⟨fun hf => h (.inl hf), fun he => h (.inr he), if_neg h⟩

theorem unescape_escBits_append {y : List Bit} (hy : y.length = 8) (x : List Bit) :
    unescape (escBits ++ (y ++ x)) = xorBits y maskBits ++ unescape x := by
  rw [unescape_append rfl, blocks_append (by decide) hy, tailBits_append hy, unescapeBytes.eq_def]
  rfl

theorem unescape_escapeByte_append {a : List Bit} (ha : a.length = 8) (x : List Bit) :
    unescape (escapeByte a ++ x) = a ++ unescape x := by
  rcases escapeByte_cases a with ⟨h, he⟩ | ⟨_, hesc, he⟩
  · rw [he, List.append_assoc, unescape_escBits_append (by simp [xorBits, ha, maskBits])]
    rcases h with rfl | rfl <;> rfl
  · rw [he, unescape_append ha, unescapeBytes.eq_def]
    simp only [if_neg hesc]
    rfl

theorem unescape_escape (b : List Bit) : unescape (escape b) = b := by
  induction b using byteInduction with
  | short r h => rw [escape_of_short h, unescape_of_short h]
  | byte a s ha ih => rw [escape_append ha, unescape_escapeByte_append ha, ih]

theorem length_le_length_escape (b : List Bit) : b.length ≤ (escape b).length := by
  induction b using byteInduction with
  | short r h => rw [escape_of_short h]
  | byte a s ha ih =>
    have hle : a.length ≤ (escapeByte a).length := by
      rcases escapeByte_cases a with ⟨_, he⟩ | ⟨_, _, he⟩
      · rw [he, ha]
        simp [escBits]
      · rw [he]
    rw [escape_append ha, List.length_append, List.length_append]
    omega

/-- No byte counted from the first is FLAG. -/
def HasNoFlagByte (x : List Bit) : Prop := ∀ k, (x.drop (8 * k)).take 8 ≠ flagBits

theorem hasNoFlagByte_of_short {x : List Bit} (h : x.length < 8) : HasNoFlagByte x := fun k hk => by
  have hlen := congrArg List.length hk
  simp [flagBits] at hlen
  omega

theorem HasNoFlagByte.append {a x : List Bit} (ha : a.length = 8) (hne : a ≠ flagBits) (h : HasNoFlagByte x) :
    HasNoFlagByte (a ++ x) := by
  intro k
  cases k with
  | zero => rwa [Nat.mul_zero, List.drop_zero, List.take_left' ha]
  | succ k =>
    rw [Nat.mul_succ, Nat.add_comm, ← List.drop_drop, List.drop_left' ha]
    exact h k

theorem hasNoFlagByte_escape (b : List Bit) : HasNoFlagByte (escape b) := by
  induction b using byteInduction with
  | short r h =>
    rw [escape_of_short h]
    exact hasNoFlagByte_of_short h
  | byte a s ha ih =>
    rw [escape_append ha]
    rcases escapeByte_cases a with ⟨h, he⟩ | ⟨hflag, _, he⟩
    · rw [he, List.append_assoc]
      refine .append rfl (by decide) (.append (by simp [xorBits, ha, maskBits]) ?_ ih)
      rcases h with rfl | rfl <;> decide
    · rw [he]
      exact ih.append ha hflag

end Sys2Proof.Machine

namespace Sys2Proof.Proofs

open Sys2Proof.Machine

/-- Settles O38: the model's cut, its unstuffing loop and its scan are those of R232, R236 and R240. -/
theorem unframeResults : Obligations.UnframeResults := by
  unfold Obligations.UnframeResults
  intro s f body out esc mask scan hs hw hbody hfits
  have hs := not_not.1 hs
  rw [← stripFlags_eq] at hbody
  refine ⟨fun hout => ?_, fun hout => ?_, fun hesc hmask hscan hout => ?_⟩
  · rw [← bcfUnframe_eq] at hout
    subst hout
    exact exec_bcfUnf_of_bits hs hw hfits
  · rw [← unstuff_eq_foldl, hbody] at hout
    subst hout
    exact exec_bsfUnf_of_bits hs hw hfits
  · subst hesc hmask
    rw [eq_unescape_of_scan hscan, hbody] at hout
    subst hout
    exact exec_ysfUnf_of_bits hs hw hfits

/-- Settles O39: the length field of 16 bits holds every length the frame limit lets through. -/
theorem bcfRoundTrip : Obligations.BcfRoundTrip := by
  unfold Obligations.BcfRoundTrip
  intro s t b hs hw h ht
  obtain ⟨hlen, hfits, rfl⟩ := of_runCommand_frameBody (by decide) hs hw h ht
  have hback := bcfUnframe_bcfFrame hlen
  have hfits : bufFits s.params b.length = true := bufFits_mono (by simp) hfits
  rw [exec_bcfUnf_of_bits (by exact hs.1) rfl (by rwa [hback]), hback]
  exact congrArg _ (State.withW_self hw)

/-- Settles O40: unstuffing skips exactly the 0-bits that stuffing put in, which end every run of five 1-bits. -/
theorem bsfRoundTrip : Obligations.BsfRoundTrip := by
  unfold Obligations.BsfRoundTrip
  intro s t b f hs hw h ht hf
  obtain ⟨_, hfits, rfl⟩ := of_runCommand_frameBody (by decide) hs hw h ht
  cases hf
  have hback : bsfUnframe (wrapFlags (stuff b)) = b := by rw [bsfUnframe_wrapFlags, unstuff_stuff]
  have hle : b.length ≤ (wrapFlags (stuff b)).length := by
    have := length_unstuffFrom_le 0 (stuff b)
    rw [show unstuffFrom 0 (stuff b) = b from unstuff_stuff b] at this
    rw [length_wrapFlags]
    omega
  constructor
  · rw [exec_bsfUnf_of_bits (by exact hs.1) rfl (by rw [hback]; exact bufFits_mono hle hfits), hback]
    exact congrArg _ (State.withW_self hw)
  · rw [← stripFlags_eq, stripFlags_wrapFlags]
    exact no_six_ones_stuff b

/-- Settles O41: unescaping takes off exactly the ESC bytes that escaping put in, which leave no byte FLAG. -/
theorem ysfRoundTrip : Obligations.YsfRoundTrip := by
  unfold Obligations.YsfRoundTrip
  intro s t b f hs hw h ht hf
  obtain ⟨_, hfits, rfl⟩ := of_runCommand_frameBody (by decide) hs hw h ht
  cases hf
  have hback : ysfUnframe (wrapFlags (escape b)) = b := by rw [ysfUnframe_wrapFlags, unescape_escape]
  have hle : b.length ≤ (wrapFlags (escape b)).length := by
    rw [length_wrapFlags]
    exact (length_le_length_escape b).trans (Nat.le_add_right _ _)
  constructor
  · rw [exec_ysfUnf_of_bits (by exact hs.1) rfl (by rw [hback]; exact bufFits_mono hle hfits), hback]
    exact congrArg _ (State.withW_self hw)
  · rw [← stripFlags_eq, stripFlags_wrapFlags]
    exact hasNoFlagByte_escape b

end Sys2Proof.Proofs
end

section
/-!
SUPPORT. The baseband modulators and demodulators (spec 43_baseband.md): what a ready demodulator decides for each
window, the marks of AMI, and a demodulator right after its modulator (R285).
-/

namespace Sys2Proof.Machine

/-! ### Demodulators that are ready -/

/-- A demodulator that reads both rates and is ready runs the rest of its body on the samples and SPB (R422). -/
theorem runCommand_samples_spb_of_ready {i : Instr} {s : State} {x : List Sample} (hfs : .samplingRate ∈ fieldsRead i)
    (hbr : .bitRate ∈ fieldsRead i) (hs : s.Ready i) (hw : s.w = .samples x)
    (rest : List Sample → Nat → CmdResult State) :
    runCommand s (configCheck i s >>= fun _ => needSamples s >>= fun x => readSpb s >>= rest x) =
      runCommand s (rest x s.spb) := by
  obtain ⟨hfsSet, _⟩ := hs.2 .samplingRate hfs
  obtain ⟨hbrSet, _⟩ := hs.2 .bitRate hbr
  rw [configCheck_of_legal hs.2, ok_bind, needSamples_of_samples hw, ok_bind, readSpb_of_set hfsSet hbrSet, ok_bind,
    State.spb]

theorem exec_nrzMod_of_ready {s : State} {b : List Bit} (hs : s.Ready .nrzMod) (hw : s.w = .bits b) :
    exec .nrzMod s =
      runCommand s (bufWrite s (.samples (b.flatMap (nrzSymbol s.params.arith s.spb s.cfg.amplitude)))) :=
  runCommand_bits_spb_of_ready (by decide) (by decide) hs hw _

theorem exec_amiMod_of_ready {s : State} {b : List Bit} (hs : s.Ready .amiMod) (hw : s.w = .bits b) :
    exec .amiMod s =
      runCommand s (bufWrite s (.samples (amiModulate s.params.arith s.spb s.cfg.amplitude b))) :=
  runCommand_bits_spb_of_ready (by decide) (by decide) hs hw _

theorem exec_nrzDem_of_ready {s : State} {x : List Sample} (hs : s.Ready .nrzDem) (hw : s.w = .samples x) :
    exec .nrzDem s = runCommand s (bufWrite s (.bits ((windows s.spb x).map (nrzDecide s.params.arith)))) :=
  runCommand_samples_spb_of_ready (by decide) (by decide) hs hw _

theorem exec_manDem_of_ready {s : State} {x : List Sample} (hs : s.Ready .manDem) (hw : s.w = .samples x) :
    exec .manDem s = runCommand s (bufWrite s
      (.bits ((windows s.spb x).map (manDecide s.params.arith s.params.manDecide s.spb)))) :=
  runCommand_samples_spb_of_ready (by decide) (by decide) hs hw _

theorem exec_amiDem_of_ready {s : State} {x : List Sample} (hs : s.Ready .amiDem) (hw : s.w = .samples x) :
    exec .amiDem s = runCommand s (bufWrite s
      (.bits ((windows s.spb x).map (amiDecide s.params.arith s.cfg.amplitude)))) :=
  runCommand_samples_spb_of_ready (by decide) (by decide) hs hw _

@[simp] theorem length_windows (p : Nat) (x : List Sample) : (windows p x).length = x.length / p := length_blocks p x

/-- What a demodulator decides, window by window. -/
theorem map_windows_eq {β : Type} {p : Nat} {x : List Sample} {decision : List Sample → β} {g : Nat → β}
    (h : ∀ i < x.length / p, decision ((x.drop (p * i)).take p) = g i) :
    (windows p x).map decision = (List.range (x.length / p)).map g := by
  rw [windows, blocks_eq_map_take_drop, List.map_map]
  exact List.map_congr_left fun i hi => h i (List.mem_range.1 hi)

theorem eq_decide_of_iff {b : Bool} {P : Prop} [Decidable P] (h : b = true ↔ P) : b = decide P := by
  rw [Bool.eq_iff_iff, h, decide_eq_true_iff]

/-! ### The decisions on the real numbers -/

section
variable {ar : Arith} {ρ : Sample → ℝ} (h : ar.IsReal ρ)
include h

theorem nrzDecide_iff (w : List Sample) : nrzDecide ar w = true ↔ 0 < realMean (w.map ρ) := by
  rw [nrzDecide, h.isPos, h.mean]

/-- The two halves of a whole window are its first SPB div 2 samples and the rest (R275). -/
theorem manDecide_eq {p : Nat} {w : List Sample} (hw : w.length = p) (d : ManDecide) :
    manDecide ar d p w = if d = .compare then
        decide (realMean ((w.map ρ).take (p / 2)) < realMean ((w.map ρ).drop (p / 2)))
      else decide (realMean ((w.map ρ).take (p / 2)) < 0 ∧ 0 < realMean ((w.map ρ).drop (p / 2))) := by
  have h1 : ρ (ar.mean (slice w 0 (p / 2))) = realMean ((w.map ρ).take (p / 2)) := by
    rw [h.mean, slice_zero, List.map_take]
  have h2 : ρ (ar.mean (slice w (p / 2) p)) = realMean ((w.map ρ).drop (p / 2)) := by
    rw [← hw, h.mean, slice_all, List.map_drop]
  rw [← h1, ← h2]
  cases d with
  | compare => exact eq_decide_of_iff (h.lt _ _)
  | signs =>
    refine eq_decide_of_iff ?_
    simp only [manDecide, Bool.and_eq_true, h.isNeg, h.isPos]

theorem amiDecide_iff (a : Sample) (w : List Sample) :
    amiDecide ar a w = true ↔ ρ a / 2 < realMean ((w.map ρ).map fun v => |v|) := by
  rw [amiDecide, h.lt, h.divNat, h.mean, List.map_map, List.map_map]
  simp only [Function.comp_def, h.abs, Nat.cast_ofNat]

end

/-! ### NRZ and AMI modulation (R271, R283) -/

theorem map_nrzSymbol {ar : Arith} {ρ : Sample → ℝ} (h : ar.IsReal ρ) (p : Nat) (a : Sample) (x : Bit) :
    (nrzSymbol ar p a x).map ρ = List.replicate p (if x then ρ a else -ρ a) := by
  rw [nrzSymbol, map_hold, apply_ite ρ, h.neg]

/-- The level AMI.MOD sends for the bit at index `i`, its polarity starting at + if `pos`: the marks before it decide
(R283). -/
def amiLevel (ar : Arith) (a : Sample) (pos : Bool) (b : List Bit) (i : Nat) : Sample :=
  if b.getD i false = false then Sample.ofRat 0
  else if decide ((b.take i).count true % 2 = 0) = pos then a
  else ar.neg a

theorem amiFrom_eq (ar : Arith) (p : Nat) (a : Sample) (pos : Bool) (b : List Bit) :
    amiFrom ar p a pos b = (List.range b.length).flatMap fun i => List.replicate p (amiLevel ar a pos b i) := by
  induction b generalizing pos with
  | nil => rfl
  | cons x b ih =>
    rw [List.length_cons, List.range_succ_eq_map, List.flatMap_cons, List.flatMap_map]
    cases x with
    | false =>
      have hrest (i : Nat) : amiLevel ar a pos (false :: b) (i + 1) = amiLevel ar a pos b i := by
        simp [amiLevel]
      simp only [amiFrom, ih, hrest, Nat.succ_eq_add_one]
      rfl
    | true =>
      have hrest (i : Nat) : amiLevel ar a pos (true :: b) (i + 1) = amiLevel ar a (!pos) b i := by
        have hflip : decide (((b.take i).count true + 1) % 2 = 0) = !decide ((b.take i).count true % 2 = 0) := by
          rw [← decide_not]
          exact decide_eq_decide.2 (by omega)
        simp only [amiLevel, List.getD_cons_succ, List.take_succ_cons, List.count_cons_self, hflip,
          Bool.not_eq_eq_eq_not]
      have hfirst : amiLevel ar a pos (true :: b) 0 = if pos then a else ar.neg a := by
        cases pos <;> rfl
      simp only [amiFrom, ih, hrest, hfirst, Nat.succ_eq_add_one]
      rfl

theorem real_amiLevel {ar : Arith} {ρ : Sample → ℝ} (h : ar.IsReal ρ) (a : Sample) (b : List Bit) (i : Nat) :
    ρ (amiLevel ar a true b i) = if b.getD i false then (-1) ^ (b.take i).count true * ρ a else 0 := by
  unfold amiLevel
  cases b.getD i false with
  | false => simp [h.ofRat]
  | true =>
    by_cases heven : (b.take i).count true % 2 = 0
    · simp [heven, (Nat.even_iff.2 heven).neg_one_pow]
    · have hodd : Odd ((b.take i).count true) := Nat.odd_iff.2 (by omega)
      simp [heven, hodd.neg_one_pow, h.neg]

/-! ### A demodulator right after its modulator (R285) -/

theorem minSpb_le_spb_of_ready {i : Instr} {s : State} (hi : .bitRate ∈ fieldsRead i) (hs : s.Ready i) :
    minSpb i ≤ s.spb := by
  obtain ⟨_, hlegal⟩ := hs.2 .bitRate hi
  simp only [Cfg.isLegal, decide_eq_true_eq] at hlegal
  obtain ⟨_, _, _, hspb⟩ := hlegal
  exact hspb

theorem amplitude_pos_of_ready {i : Instr} {s : State} {ρ : Sample → ℝ} (hρ : s.params.arith.IsReal ρ)
    (hi : .amplitude ∈ fieldsRead i) (hs : s.Ready i) : 0 < ρ s.cfg.amplitude := by
  obtain ⟨_, hlegal⟩ := hs.2 .amplitude hi
  exact (hρ.isPos _).1 hlegal

theorem realMean_replicate {p : Nat} (hp : 0 < p) (v : ℝ) : realMean (List.replicate p v) = v := by
  have hne : (p : ℝ) ≠ 0 := Nat.cast_ne_zero.2 hp.ne'
  rw [realMean, List.sum_replicate, List.length_replicate, nsmul_eq_mul, mul_div_cancel_left₀ v hne]

/-- Windows of equal length, each decided as the bit it was made for, give the bits back. -/
theorem map_windows_flatMap {α : Type} {p : Nat} (hp : 0 < p) {symbol : α → List Sample}
    {decision : List Sample → Bit} {bit : α → Bit} (hlen : ∀ a, (symbol a).length = p)
    (hback : ∀ a, decision (symbol a) = bit a) (l : List α) :
    (windows p (l.flatMap symbol)).map decision = l.map bit := by
  rw [windows, blocks_flatMap hp fun a _ => hlen a, List.map_map]
  exact List.map_congr_left fun a _ => hback a

section
variable {ar : Arith} {ρ : Sample → ℝ} (h : ar.IsReal ρ) {a : Sample} (ha : 0 < ρ a)
include h ha

theorem nrzDecide_nrzSymbol {p : Nat} (hp : 1 ≤ p) (x : Bit) : nrzDecide ar (nrzSymbol ar p a x) = x := by
  rw [eq_decide_of_iff (nrzDecide_iff h _), map_nrzSymbol h, realMean_replicate hp]
  cases x <;> simp [ha, ha.le]

/-- Either decision sees a low and a high half, in the order of the bit. -/
theorem manDecide_manSymbol {p : Nat} (hp : 2 ≤ p) (d : ManDecide) (x : Bit) :
    manDecide ar d p (manSymbol ar p a x) = x := by
  have h1 : 0 < p / 2 := by omega
  have h2 : 0 < p - p / 2 := by omega
  rw [manDecide_eq h (length_manSymbol ar p a x), map_manSymbol h, List.take_left' List.length_replicate,
    List.drop_left' List.length_replicate, realMean_replicate h1, realMean_replicate h2]
  have hneg : -ρ a < ρ a := by linarith
  cases d <;> cases x <;> simp [ha, ha.le, hneg]

theorem amiDecide_amiLevel {p : Nat} (hp : 1 ≤ p) (b : List Bit) (i : Nat) :
    amiDecide ar a (List.replicate p (amiLevel ar a true b i)) = b.getD i false := by
  rw [eq_decide_of_iff (amiDecide_iff h _ _), List.map_replicate, List.map_replicate, realMean_replicate hp,
    real_amiLevel h]
  cases b.getD i false with
  | false => simpa using (half_pos ha).le
  | true => simp [abs_mul, abs_of_pos ha, ha]

theorem map_amiDecide_amiModulate {p : Nat} (hp : 1 ≤ p) (b : List Bit) :
    (windows p (amiModulate ar p a b)).map (amiDecide ar a) = b := by
  rw [amiModulate, amiFrom_eq, map_windows_flatMap hp (fun _ => List.length_replicate) (amiDecide_amiLevel h ha hp b)]
  exact List.ext_getElem (by simp) fun i h1 h2 => by simp [h2]

end

/-- A demodulator whose decisions give the bits back restores the state before the modulator. -/
theorem runCommand_demodulated {s : State} {b : List Bit} {y : List Sample} {decision : List Sample → Bit}
    (hs : s.st.fault = .none) (hw : s.w = .bits b) (hfits : bufFits s.params y.length = true)
    (hle : b.length ≤ y.length) (hback : (windows s.spb y).map decision = b) :
    runCommand { s with w := .samples y }
        (bufWrite { s with w := .samples y } (.bits ((windows s.spb y).map decision))) = .next s := by
  rw [hback, runCommand_bufWrite_bits (s := { s with w := .samples y }) hs (bufFits_mono hle hfits)]
  exact congrArg _ (State.withW_self hw)

end Sys2Proof.Machine

namespace Sys2Proof.Proofs

open Sys2Proof.Machine

/-- Settles O42: one window of SPB equal samples for each bit. -/
theorem nrzModResult : Obligations.NrzModResult := by
  unfold Obligations.NrzModResult
  intro s b hs hw hfits
  have hlen := length_flatMap_window (length_nrzSymbol s.params.arith s.spb s.cfg.amplitude) b
  refine ⟨b.flatMap (nrzSymbol s.params.arith s.spb s.cfg.amplitude), ?_, rfl, fun ρ hρ => ?_⟩
  · rw [exec_nrzMod_of_ready hs hw, runCommand_bufWrite_samples hs.1 (hlen ▸ hfits)]
  · simp only [List.map_flatMap, map_nrzSymbol hρ]

/-- Settles O43: one decision for each complete window, over the reals by its mean. -/
theorem nrzDemResult : Obligations.NrzDemResult := by
  unfold Obligations.NrzDemResult
  intro s x hs hw hfits
  refine ⟨(windows s.spb x).map (nrzDecide s.params.arith), ?_, by simp, fun ρ hρ => ?_⟩
  · rw [exec_nrzDem_of_ready hs hw, runCommand_bufWrite_bits hs.1 (by simpa using hfits)]
  · exact map_windows_eq fun i _ => eq_decide_of_iff (nrzDecide_iff hρ _)

/-- Settles O45: one decision for each complete window, over the reals by the means of its halves. -/
theorem manDemResult : Obligations.ManDemResult := by
  unfold Obligations.ManDemResult
  intro s x hs hw hfits
  refine ⟨(windows s.spb x).map (manDecide s.params.arith s.params.manDecide s.spb), ?_, by simp,
    fun ρ m1 m2 hρ hm1 hm2 => ?_⟩
  · rw [exec_manDem_of_ready hs hw, runCommand_bufWrite_bits hs.1 (by simpa using hfits)]
  · obtain rfl := funext hm1
    obtain rfl := funext hm2
    exact map_windows_eq fun i hi => manDecide_eq hρ (length_take_drop_of_lt_div hi) _

/-- Settles O46: the polarity of a mark is the parity of the marks before it. -/
theorem amiModResult : Obligations.AmiModResult := by
  unfold Obligations.AmiModResult
  intro s b hs hw hfits
  have hlen := length_amiFrom s.params.arith s.spb s.cfg.amplitude true b
  have hout := amiFrom_eq s.params.arith s.spb s.cfg.amplitude true b
  refine ⟨amiModulate s.params.arith s.spb s.cfg.amplitude b, ?_, ?_, fun ρ hρ => ?_⟩
  · rw [exec_amiMod_of_ready hs hw, runCommand_bufWrite_samples hs.1 (by rwa [amiModulate, hlen])]
  · simpa only [amiModulate, amiLevel, decide_eq_true_eq] using hout
  · simp only [amiModulate, hout, List.map_flatMap, List.map_replicate, real_amiLevel hρ]

/-- Settles O47: one decision for each complete window, over the reals by its mean magnitude. -/
theorem amiDemResult : Obligations.AmiDemResult := by
  unfold Obligations.AmiDemResult
  intro s x hs hw hfits
  refine ⟨(windows s.spb x).map (amiDecide s.params.arith s.cfg.amplitude), ?_, by simp, fun ρ hρ => ?_⟩
  · rw [exec_amiDem_of_ready hs hw, runCommand_bufWrite_bits hs.1 (by simpa using hfits)]
  · exact map_windows_eq fun i _ => eq_decide_of_iff (amiDecide_iff hρ _ _)

/-- Settles O48: each window has the mean, the half means or the mean magnitude that its bit's decision looks for. -/
theorem basebandRoundTrip : Obligations.BasebandRoundTrip := by
  unfold Obligations.BasebandRoundTrip
  intro s t ρ b md dm hρ hpair hs hw h ht
  have hle {n : Nat} (hspb : 1 ≤ s.spb) (hn : n = b.length * s.spb) : b.length ≤ n :=
    hn ▸ Nat.le_mul_of_pos_right _ hspb
  simp only [List.mem_cons, Prod.mk.injEq, List.not_mem_nil, or_false] at hpair
  rcases hpair with ⟨rfl, rfl⟩ | ⟨rfl, rfl⟩ | ⟨rfl, rfl⟩
  · have hspb : 1 ≤ s.spb := minSpb_le_spb_of_ready (by decide) hs
    have ha := amplitude_pos_of_ready hρ (by decide) hs
    rw [exec_nrzMod_of_ready hs hw] at h
    obtain ⟨hfits, rfl⟩ := of_runCommand_bufWrite hs.1 h ht
    rw [exec_nrzDem_of_ready (hs.withW (j := .nrzDem) (by decide) rfl _) rfl]
    refine runCommand_demodulated hs.1 hw hfits (hle hspb (length_flatMap_window (length_nrzSymbol _ _ _) b)) ?_
    exact (map_windows_flatMap hspb (length_nrzSymbol _ _ _) (nrzDecide_nrzSymbol hρ ha hspb) b).trans b.map_id
  · have hspb : 2 ≤ s.spb := minSpb_le_spb_of_ready (by decide) hs
    have ha := amplitude_pos_of_ready hρ (by decide) hs
    rw [exec_manMod_of_ready hs hw] at h
    obtain ⟨hfits, rfl⟩ := of_runCommand_bufWrite hs.1 h ht
    rw [exec_manDem_of_ready (hs.withW (j := .manDem) (by decide) rfl _) rfl]
    refine runCommand_demodulated hs.1 hw hfits
      (hle (by omega) (length_flatMap_window (length_manSymbol _ _ _) b)) ?_
    exact (map_windows_flatMap (by omega) (length_manSymbol _ _ _) (manDecide_manSymbol hρ ha hspb _) b).trans b.map_id
  · have hspb : 1 ≤ s.spb := minSpb_le_spb_of_ready (by decide) hs
    have ha := amplitude_pos_of_ready hρ (by decide) hs
    rw [exec_amiMod_of_ready hs hw] at h
    obtain ⟨hfits, rfl⟩ := of_runCommand_bufWrite hs.1 h ht
    rw [exec_amiDem_of_ready (hs.withW (j := .amiDem) (by decide) rfl _) rfl]
    exact runCommand_demodulated hs.1 hw hfits (hle hspb (length_amiFrom _ _ _ _ b))
      (map_amiDecide_amiModulate hρ ha hspb b)

end Sys2Proof.Proofs
end

section
/-!
SUPPORT. The carrier modulators and demodulators (spec 44_carrier.md): what they run when they are ready, and their
samples, correlations and energies on the real numbers.
-/

namespace Sys2Proof.Machine

/-! ### Commands that are ready -/

/-- A modulator that reads the rates and the carrier and is ready runs the rest of its body on their values (R422). -/
theorem runCommand_bits_carrier_of_ready {i : Instr} {s : State} {b : List Bit} (hfs : .samplingRate ∈ fieldsRead i)
    (hbr : .bitRate ∈ fieldsRead i) (hf : .carrierFreq ∈ fieldsRead i) (hs : s.Ready i) (hw : s.w = .bits b)
    (rest : List Bit → Nat → Nat → Nat → CmdResult State) :
    runCommand s (configCheck i s >>= fun _ => needBits s >>= fun b => readSamplingRate s >>= fun fs =>
        readSpb s >>= fun p => readCarrierFreq s >>= rest b fs p) =
      runCommand s (rest b (regNat s.cfg.samplingRate) s.spb (regNat s.cfg.carrierFreq)) := by
  obtain ⟨hfsSet, _⟩ := hs.2 .samplingRate hfs
  obtain ⟨hbrSet, _⟩ := hs.2 .bitRate hbr
  obtain ⟨hfSet, _⟩ := hs.2 .carrierFreq hf
  rw [runCommand_bits_of_ready hs hw, readSamplingRate_of_set hfsSet, ok_bind, readSpb_of_set hfsSet hbrSet, ok_bind,
    readCarrierFreq_of_set hfSet, ok_bind, State.spb]

/-- A demodulator that reads the rates and the carrier and is ready runs the rest of its body on their values. -/
theorem runCommand_samples_carrier_of_ready {i : Instr} {s : State} {x : List Sample}
    (hfs : .samplingRate ∈ fieldsRead i) (hbr : .bitRate ∈ fieldsRead i) (hf : .carrierFreq ∈ fieldsRead i)
    (hs : s.Ready i) (hw : s.w = .samples x) (rest : List Sample → Nat → Nat → Nat → CmdResult State) :
    runCommand s (configCheck i s >>= fun _ => needSamples s >>= fun x => readSamplingRate s >>= fun fs =>
        readSpb s >>= fun p => readCarrierFreq s >>= rest x fs p) =
      runCommand s (rest x (regNat s.cfg.samplingRate) s.spb (regNat s.cfg.carrierFreq)) := by
  obtain ⟨hfsSet, _⟩ := hs.2 .samplingRate hfs
  obtain ⟨hbrSet, _⟩ := hs.2 .bitRate hbr
  obtain ⟨hfSet, _⟩ := hs.2 .carrierFreq hf
  rw [configCheck_of_legal hs.2, ok_bind, needSamples_of_samples hw, ok_bind, readSamplingRate_of_set hfsSet, ok_bind,
    readSpb_of_set hfsSet hbrSet, ok_bind, readCarrierFreq_of_set hfSet, ok_bind, State.spb]

section
variable {s : State} {b : List Bit} {x : List Sample}

theorem exec_askMod_of_ready (hs : s.Ready .askMod) (hw : s.w = .bits b) :
    exec .askMod s = runCommand s (bufWrite s (.samples (b.flatMap (askSymbol s.params.arith (regNat s.cfg.samplingRate)
      (regNat s.cfg.carrierFreq) s.spb s.cfg.amplitude)))) :=
  runCommand_bits_carrier_of_ready (by decide) (by decide) (by decide) hs hw _

theorem exec_askDem_of_ready (hs : s.Ready .askDem) (hw : s.w = .samples x) :
    exec .askDem s = runCommand s (bufWrite s
      (.bits ((windows s.spb x).map (askDecide s.params.arith s.spb s.cfg.amplitude)))) :=
  runCommand_samples_spb_of_ready (by decide) (by decide) hs hw _

theorem exec_fskMod_of_ready (hs : s.Ready .fskMod) (hw : s.w = .bits b) :
    exec .fskMod s = runCommand s (bufWrite s (.samples (b.flatMap (fskSymbol s.params.arith (regNat s.cfg.samplingRate)
      (regNat s.cfg.carrierFreq) s.spb s.cfg.amplitude)))) :=
  runCommand_bits_carrier_of_ready (by decide) (by decide) (by decide) hs hw _

theorem exec_fskDem_of_ready (hs : s.Ready .fskDem) (hw : s.w = .samples x) :
    exec .fskDem s = runCommand s (bufWrite s (.bits ((windows s.spb x).map (fskDecide s.params.arith
      (regNat s.cfg.samplingRate) (regNat s.cfg.carrierFreq) s.spb)))) :=
  runCommand_samples_carrier_of_ready (by decide) (by decide) (by decide) hs hw _

theorem exec_qpskMod_of_ready (hs : s.Ready .qpskMod) (hw : s.w = .bits b) :
    exec .qpskMod s = runCommand s (bufWrite s (.samples ((blocks 2 b).flatMap (qpskSymbol s.params.arith
      (regNat s.cfg.samplingRate) (regNat s.cfg.carrierFreq) s.spb s.cfg.amplitude)))) :=
  runCommand_bits_carrier_of_ready (by decide) (by decide) (by decide) hs hw _

theorem exec_qpskDem_of_ready (hs : s.Ready .qpskDem) (hw : s.w = .samples x) :
    exec .qpskDem s = runCommand s (bufWrite s (.bits ((windows s.spb x).flatMap (qpskDecide s.params.arith
      (regNat s.cfg.samplingRate) (regNat s.cfg.carrierFreq) s.spb)))) :=
  runCommand_samples_carrier_of_ready (by decide) (by decide) (by decide) hs hw _

theorem exec_qamMod_of_ready (hs : s.Ready .qamMod) (hw : s.w = .bits b) :
    exec .qamMod s = runCommand s (bufWrite s (.samples ((blocks 4 (padZeros 4 b)).flatMap (qamSymbol s.params.arith
      (regNat s.cfg.samplingRate) (regNat s.cfg.carrierFreq) s.spb s.cfg.amplitude s.params.qamScale)))) :=
  runCommand_bits_carrier_of_ready (by decide) (by decide) (by decide) hs hw _

end

/-- What a demodulator of several bits per window decides, window by window. -/
theorem flatMap_windows_eq {p : Nat} {x : List Sample} {decision : List Sample → List Bit} {g : Nat → List Bit}
    (h : ∀ i < x.length / p, decision ((x.drop (p * i)).take p) = g i) :
    (windows p x).flatMap decision = (List.range (x.length / p)).flatMap g := by
  rw [List.flatMap_def, map_windows_eq h, List.flatMap_def]

theorem getD_take_drop (b : List Bit) {p j : Nat} (h : j < p) (i : Nat) :
    ((b.drop (p * i)).take p).getD j false = b.getD (p * i + j) false := by
  simp [List.getD_eq_getElem?_getD, List.getElem?_drop, h]

/-! ### Samples on the real numbers -/

theorem qpskPhase_mul (b0 b1 : Bit) : (qpskPhase b0 b1 : ℝ) * (Real.pi / 4) = realPhase b0 b1 := by
  cases b0 <;> cases b1 <;> simp only [qpskPhase, realPhase] <;> push_cast <;> ring

section
variable {ar : Arith} {ρ : Sample → ℝ} (h : ar.IsReal ρ)
include h

theorem map_askSymbol (fs f p : Nat) (a : Sample) (x : Bit) : (askSymbol ar fs f p a x).map ρ =
    (List.range p).map fun k => if x then ρ a * Real.sin (theta fs f k) else 0 := by
  cases x with
  | false => simp [askSymbol, map_hold, h.zero]
  | true => simp [askSymbol, sinRef, Function.comp_def, h.mul, h.sinAt]

theorem map_fskSymbol (fs f p : Nat) (a : Sample) (x : Bit) : (fskSymbol ar fs f p a x).map ρ =
    (List.range p).map fun k => ρ a * Real.sin (theta fs (if x then 2 * f else f) k) := by
  simp [fskSymbol, sinRef, Function.comp_def, h.mul, h.sinAt]

theorem map_qpskSymbol (fs f p : Nat) (a : Sample) (b : List Bit) : (qpskSymbol ar fs f p a b).map ρ =
    (List.range p).map fun k =>
      ρ a * Real.cos (theta fs f k + realPhase (b.getD 0 false) (b.getD 1 false)) := by
  simp only [qpskSymbol, List.map_map, Function.comp_def, h.mul, h.cosShiftAt, qpskPhase_mul]

theorem real_qamValue (a : Sample) (b0 b1 : Bit) : ρ (qamValue ar a b0 b1) = realLevel (ρ a) b0 b1 := by
  rw [qamValue, real_scaled h]
  cases b0 <;> cases b1 <;> simp [qamLevel, realLevel]

theorem map_qamSymbol (fs f p : Nat) (a g : Sample) (b : List Bit) : (qamSymbol ar fs f p a g b).map ρ =
    (List.range p).map fun k => ρ g *
      (realLevel (ρ a) (b.getD 0 false) (b.getD 1 false) * Real.cos (theta fs f k)
        - realLevel (ρ a) (b.getD 2 false) (b.getD 3 false) * Real.sin (theta fs f k)) := by
  simp only [qamSymbol, List.map_map, Function.comp_def, h.mul, h.sub, h.cosAt, h.sinAt, real_qamValue h]

/-! ### Correlations and energies on the real numbers -/

theorem real_dot_sinRef {p : Nat} {w : List Sample} (hw : w.length = p) (fs f : Nat) :
    ρ (ar.dot w (sinRef ar fs f p)) = realCorrelation (w.map ρ) fun k => Real.sin (theta fs f k) :=
  hw ▸ h.dot_map_range w _ _ (h.sinAt fs f)

theorem real_corrI {p : Nat} {w : List Sample} (hw : w.length = p) (fs f : Nat) :
    ρ (corrI ar fs f p w) = realCorrelation (w.map ρ) fun k => Real.cos (theta fs f k) :=
  hw ▸ h.dot_map_range w _ _ (h.cosAt fs f)

theorem real_corrQ {p : Nat} {w : List Sample} (hw : w.length = p) (fs f : Nat) :
    ρ (corrQ ar fs f p w) = realCorrelation (w.map ρ) fun k => -Real.sin (theta fs f k) := by
  rw [corrQ, sinRef, List.map_map, ← hw]
  exact h.dot_map_range w _ _ fun k => by rw [Function.comp_apply, h.neg, h.sinAt]

theorem askDecide_iff (p : Nat) (a : Sample) (w : List Sample) : askDecide ar p a w = true ↔
    0.25 * (ρ a * ρ a * p * 0.5) < ((w.map ρ).map fun v => v * v).sum := by
  have hthreshold : ρ (askThreshold ar p a) = 0.25 * (ρ a * ρ a * p * 0.5) := by
    simp only [askThreshold, h.mul, h.ofRat, h.ofNat]
    norm_num
  rw [askDecide, h.lt, hthreshold, h.dot, List.zipWith_self]

theorem fskDecide_iff {p : Nat} {w : List Sample} (hw : w.length = p) (fs f : Nat) : fskDecide ar fs f p w = true ↔
    |realCorrelation (w.map ρ) (fun k => Real.sin (theta fs f k))| <
      |realCorrelation (w.map ρ) (fun k => Real.sin (theta fs (2 * f) k))| := by
  rw [fskDecide, h.lt, h.abs, h.abs, real_dot_sinRef h hw, real_dot_sinRef h hw]

theorem sector_eq (i q : Sample) : sector ar i q = realSector (ρ i) (ρ q) := by
  simp only [sector, realSector, Bool.or_eq_true, Bool.and_eq_true, h.isPos, h.isNeg, h.isZero, h.le, h.zero]

theorem qpskDecide_eq {p : Nat} {w : List Sample} (hw : w.length = p) (fs f : Nat) : qpskDecide ar fs f p w =
    realSector (realCorrelation (w.map ρ) fun k => Real.cos (theta fs f k))
      (realCorrelation (w.map ρ) fun k => -Real.sin (theta fs f k)) := by
  rw [qpskDecide, sector_eq h, real_corrI h hw, real_corrQ h hw]

/-- The slicer's level mapped back to bits is R330's, for a positive denominator. -/
theorem qamUnlevel_qamSlice (a num den : Sample) (hden : 0 < ρ den) :
    qamUnlevel (qamSlice ar a num den) = realSlice (ρ a) (ρ num / ρ den) := by
  simp only [qamSlice, realSlice, h.ltQuot _ _ _ hden, real_scaled h, h.zero]
  push_cast
  split_ifs <;> rfl

theorem real_energyC (fs f p : Nat) :
    ρ (energyC ar fs f p) = ((List.range p).map fun k => Real.cos (theta fs f k) ^ 2).sum := by
  rw [energyC, h.dot, map_cosRef h, List.zipWith_self, List.map_map]
  simp only [Function.comp_def, sq]

theorem real_energyQ (fs f p : Nat) :
    ρ (energyQ ar fs f p) = ((List.range p).map fun k => Real.sin (theta fs f k) ^ 2).sum := by
  rw [energyQ, h.dot, map_sinRef h, List.zipWith_self, List.map_map]
  simp only [Function.comp_def, sq]

end

theorem length_sector (ar : Arith) (i q : Sample) : (sector ar i q).length = 2 := by
  unfold sector
  split_ifs <;> rfl

theorem length_qpskDecide (ar : Arith) (fs f p : Nat) (w : List Sample) : (qpskDecide ar fs f p w).length = 2 :=
  length_sector ar _ _

theorem length_qamUnlevel (n : Int) : (qamUnlevel n).length = 2 := by
  unfold qamUnlevel
  split_ifs <;> rfl

theorem length_qamDecide (ar : Arith) (fs f p : Nat) (a g : Sample) (w : List Sample) :
    (qamDecide ar fs f p a g w).length = 4 := by
  rw [qamDecide, List.length_append, length_qamUnlevel, length_qamUnlevel]

/-! ### Zero energy (R331) -/

theorem sum_sq_nonneg (n : Nat) (g : Nat → ℝ) : 0 ≤ ((List.range n).map fun k => g k ^ 2).sum :=
  List.sum_nonneg fun v hv => by
    obtain ⟨k, _, rfl⟩ := List.mem_map.1 hv
    exact sq_nonneg (g k)

theorem sum_sq_eq_zero_iff (n : Nat) (g : Nat → ℝ) :
    ((List.range n).map fun k => g k ^ 2).sum = 0 ↔ ∀ k < n, g k = 0 := by
  induction n with
  | zero => simp
  | succ n ih =>
    rw [List.range_succ, List.map_append, List.sum_append, List.map_singleton, List.sum_singleton,
      add_eq_zero_iff_of_nonneg (sum_sq_nonneg n g) (sq_nonneg _), ih, sq_eq_zero_iff, Nat.forall_lt_succ_right]

theorem zeroEnergy_iff_real {s : State} {ρ : Sample → ℝ} (hρ : s.params.arith.IsReal ρ) :
    s.ZeroEnergy ↔ s.cosEnergy = 0 ∨ s.sinEnergy = 0 := by
  rw [← zeroEnergy_iff, zeroEnergy, Bool.or_eq_true, hρ.isZero, hρ.isZero, real_energyC hρ, real_energyQ hρ]
  rfl

/-- The first sample of the cosine is 1, so its energy is not zero. -/
theorem cosEnergy_ne_zero {s : State} (hspb : 1 ≤ s.spb) : s.cosEnergy ≠ 0 := fun hzero => by
  have hfirst := (sum_sq_eq_zero_iff s.spb _).1 hzero 0 hspb
  simp [theta] at hfirst

theorem theta_mul_eq (fs f k m : Nat) (hfs : fs ≠ 0) (hm : 2 * f = fs * m) :
    theta fs f k = ((m * k : Nat) : ℝ) * Real.pi := by
  have hfs : (fs : ℝ) ≠ 0 := Nat.cast_ne_zero.2 hfs
  have hm : (2 : ℝ) * f = fs * m := by exact_mod_cast hm
  rw [theta, div_eq_iff hfs]
  push_cast
  linear_combination (Real.pi * k) * hm

theorem sin_theta_of_dvd {fs f : Nat} (hfs : fs ≠ 0) (h : fs ∣ 2 * f) (k : Nat) : Real.sin (theta fs f k) = 0 := by
  obtain ⟨m, hm⟩ := h
  rw [theta_mul_eq fs f k m hfs hm, Real.sin_nat_mul_pi]

/-- "SIN(θ(f,1)) = 0 iff 2f/fs ∈ ℤ" (R331). -/
theorem sin_theta_one_eq_zero_iff {fs f : Nat} (hfs : fs ≠ 0) : Real.sin (theta fs f 1) = 0 ↔ fs ∣ 2 * f := by
  refine ⟨fun h => ?_, fun h => sin_theta_of_dvd hfs h 1⟩
  obtain ⟨n, hn⟩ := Real.sin_eq_zero_iff.1 h
  have hfs' : (fs : ℝ) ≠ 0 := Nat.cast_ne_zero.2 hfs
  have hreal : (2 : ℝ) * f = fs * n := by
    rw [theta, eq_div_iff hfs', Nat.cast_one, mul_one] at hn
    refine mul_left_cancel₀ Real.pi_ne_zero ?_
    linear_combination -hn
  have hint : ((2 * f : Nat) : ℤ) = fs * n := by
    push_cast
    exact_mod_cast hreal
  exact Int.natCast_dvd_natCast.1 ⟨n, hint⟩

theorem sinEnergy_eq_zero_iff {s : State} (hfs : regNat s.cfg.samplingRate ≠ 0) (hspb : 1 ≤ s.spb) :
    s.sinEnergy = 0 ↔ s.spb = 1 ∨ regNat s.cfg.samplingRate ∣ 2 * regNat s.cfg.carrierFreq := by
  rw [State.sinEnergy, sum_sq_eq_zero_iff]
  constructor
  · intro h
    rcases Nat.eq_or_lt_of_le hspb with hone | htwo
    · exact .inl hone.symm
    · exact .inr ((sin_theta_one_eq_zero_iff hfs).1 (h 1 htwo))
  · rintro (hone | hdvd) k hk
    · obtain rfl : k = 0 := by omega
      simp [theta]
    · exact sin_theta_of_dvd hfs hdvd k

theorem samplingRate_ne_zero_of_ready {i : Instr} {s : State} (hi : .samplingRate ∈ fieldsRead i) (hs : s.Ready i) :
    regNat s.cfg.samplingRate ≠ 0 := by
  obtain ⟨_, hlegal⟩ := hs.2 .samplingRate hi
  simp only [Cfg.isLegal, decide_eq_true_eq] at hlegal
  omega

/-- QAM.DEM that is ready and refuses no energy runs the kind check and the decisions. -/
theorem exec_qamDem_of_samples {s : State} {x : List Sample} (hs : s.Ready .qamDem) (hz : ¬ s.ZeroEnergy)
    (hw : s.w = .samples x) :
    exec .qamDem s = runCommand s (bufWrite s (.bits ((windows s.spb x).flatMap (qamDecide s.params.arith
      (regNat s.cfg.samplingRate) (regNat s.cfg.carrierFreq) s.spb s.cfg.amplitude s.params.qamScale)))) := by
  rw [exec_qamDem_of_ready hs, energyCheck_of_not_zeroEnergy hz, ok_bind, needSamples_of_samples hw, ok_bind]

theorem exec_qamDem_of_zeroEnergy {s : State} (hs : s.Ready .qamDem) (hz : s.ZeroEnergy) :
    exec .qamDem s = .next (s.raise ⟨.cfgInvalid, 0x12, 0⟩) := by
  rw [exec_qamDem_of_ready hs, energyCheck, if_pos ((zeroEnergy_iff s).2 hz), error_bind, runCommand_error hs.1]

/-- Past the zero-energy check QAM.DEM finds nothing wrong with the configuration. -/
theorem exec_qamDem_ne_cfgInvalid {s : State} (hs : s.Ready .qamDem) (hz : ¬ s.ZeroEnergy) (i0 i1 : Nat) :
    exec .qamDem s ≠ .next (s.raise ⟨.cfgInvalid, i0, i1⟩) := by
  intro h
  cases hw : s.w with
  | bits b =>
    rw [exec_of_needs_samples_of_bits rfl hs hw fun _ => hz] at h
    cases congrArg (·.st.fault) (Host.Outcome.next.inj h)
  | samples x =>
    rw [exec_qamDem_of_samples hs hz hw] at h
    rcases bufWrite_cases s (.bits _) with ⟨_, hok⟩ | ⟨cap, _, _, herr⟩
    · rw [hok, runCommand_ok hs.1] at h
      have hfault : s.st.fault = .cfgInvalid := congrArg (·.st.fault) (Host.Outcome.next.inj h)
      cases hs.1.symm.trans hfault
    · rw [herr, runCommand_error hs.1] at h
      cases congrArg (·.st.fault) (Host.Outcome.next.inj h)

/-- Both normalised correlations of a window, sliced (R330, R331). -/
theorem qamDecide_eq {s : State} {ρ : Sample → ℝ} (hρ : s.params.arith.IsReal ρ) (hz : ¬ s.ZeroEnergy)
    (hg : 0 < ρ s.params.qamScale) {w : List Sample} (hw : w.length = s.spb) {fs f : Nat}
    (hfs : fs = regNat s.cfg.samplingRate) (hf : f = regNat s.cfg.carrierFreq) :
    qamDecide s.params.arith fs f s.spb s.cfg.amplitude s.params.qamScale w =
      realSlice (ρ s.cfg.amplitude)
          (realCorrelation (w.map ρ) (fun k => Real.cos (theta fs f k)) / (ρ s.params.qamScale * s.cosEnergy)) ++
        realSlice (ρ s.cfg.amplitude)
          (realCorrelation (w.map ρ) (fun k => -Real.sin (theta fs f k)) / (ρ s.params.qamScale * s.sinEnergy)) := by
  subst hfs hf
  rw [zeroEnergy_iff_real hρ, not_or] at hz
  obtain ⟨hcos, hsin⟩ := hz
  have hc : ρ (s.params.arith.mul s.params.qamScale (energyC s.params.arith (regNat s.cfg.samplingRate)
      (regNat s.cfg.carrierFreq) s.spb)) = ρ s.params.qamScale * s.cosEnergy := by
    rw [hρ.mul, real_energyC hρ, State.cosEnergy]
  have hq : ρ (s.params.arith.mul s.params.qamScale (energyQ s.params.arith (regNat s.cfg.samplingRate)
      (regNat s.cfg.carrierFreq) s.spb)) = ρ s.params.qamScale * s.sinEnergy := by
    rw [hρ.mul, real_energyQ hρ, State.sinEnergy]
  have hcpos : 0 < ρ s.params.qamScale * s.cosEnergy := mul_pos hg ((sum_sq_nonneg _ _).lt_of_ne' hcos)
  have hqpos : 0 < ρ s.params.qamScale * s.sinEnergy := mul_pos hg ((sum_sq_nonneg _ _).lt_of_ne' hsin)
  rw [qamDecide, qamUnlevel_qamSlice hρ _ _ _ (hc ▸ hcpos), qamUnlevel_qamSlice hρ _ _ _ (hq ▸ hqpos), hc, hq,
    real_corrI hρ hw, real_corrQ hρ hw]

end Sys2Proof.Machine

namespace Sys2Proof.Proofs

open Sys2Proof.Machine

/-- Settles O16: the energy check is what raises the fault; the cosine's energy has a 1 in it, and the sine's is zero
exactly if every sample is at a multiple of π. -/
theorem qamZeroEnergy : Obligations.QamZeroEnergy := by
  unfold Obligations.QamZeroEnergy
  intro s hs
  have hspb : 1 ≤ s.spb := minSpb_le_spb_of_ready (by decide) hs
  have hfs := samplingRate_ne_zero_of_ready (by decide) hs
  refine ⟨⟨fun h => ?_, exec_qamDem_of_zeroEnergy hs⟩, fun ρ hρ => ⟨zeroEnergy_iff_real hρ, ?_⟩⟩
  · by_contra hz
    exact exec_qamDem_ne_cfgInvalid hs hz _ _ h
  · rw [zeroEnergy_iff_real hρ, or_iff_right (cosEnergy_ne_zero hspb), sinEnergy_eq_zero_iff hfs hspb]

/-- Settles O49: one window for each bit, over the reals the sine's or zeros. -/
theorem askModResult : Obligations.AskModResult := by
  unfold Obligations.AskModResult
  intro s b fs f hs hw hfs hf hfits
  subst hfs hf
  have hlen := length_flatMap_window (length_askSymbol s.params.arith (regNat s.cfg.samplingRate)
    (regNat s.cfg.carrierFreq) s.spb s.cfg.amplitude) b
  refine ⟨_, ?_, hlen, fun ρ hρ => ?_⟩
  · rw [exec_askMod_of_ready hs hw, runCommand_bufWrite_samples hs.1 (hlen ▸ hfits)]
  · simp only [List.map_flatMap, map_askSymbol hρ]

/-- Settles O50: one decision for each complete window, over the reals by its energy. -/
theorem askDemResult : Obligations.AskDemResult := by
  unfold Obligations.AskDemResult
  intro s x hs hw hfits
  refine ⟨(windows s.spb x).map (askDecide s.params.arith s.spb s.cfg.amplitude), ?_, by simp, fun ρ hρ => ?_⟩
  · rw [exec_askDem_of_ready hs hw, runCommand_bufWrite_bits hs.1 (by simpa using hfits)]
  · exact map_windows_eq fun i _ => eq_decide_of_iff (askDecide_iff hρ _ _ _)

/-- Settles O51: one window for each bit, over the reals the sine of the bit's frequency. -/
theorem fskModResult : Obligations.FskModResult := by
  unfold Obligations.FskModResult
  intro s b fs f hs hw hfs hf hfits
  subst hfs hf
  have hlen := length_flatMap_window (length_fskSymbol s.params.arith (regNat s.cfg.samplingRate)
    (regNat s.cfg.carrierFreq) s.spb s.cfg.amplitude) b
  refine ⟨_, ?_, hlen, fun ρ hρ => ?_⟩
  · rw [exec_fskMod_of_ready hs hw, runCommand_bufWrite_samples hs.1 (hlen ▸ hfits)]
  · simp only [List.map_flatMap, map_fskSymbol hρ]

/-- Settles O52: one decision for each complete window, over the reals by its two correlations. -/
theorem fskDemResult : Obligations.FskDemResult := by
  unfold Obligations.FskDemResult
  intro s x fs f hs hw hfs hf hfits
  subst hfs hf
  refine ⟨_, ?_, ?_, fun ρ hρ => map_windows_eq (decision := fskDecide s.params.arith (regNat s.cfg.samplingRate)
    (regNat s.cfg.carrierFreq) s.spb) fun i hi => ?_⟩
  · rw [exec_fskDem_of_ready hs hw, runCommand_bufWrite_bits hs.1 (by simpa using hfits)]
  · simp
  · exact eq_decide_of_iff (fskDecide_iff hρ (length_take_drop_of_lt_div hi) _ _)

/-- Settles O53: one window for each complete bit pair, over the reals the cosine at the pair's phase. -/
theorem qpskModResult : Obligations.QpskModResult := by
  unfold Obligations.QpskModResult
  intro s b fs f hs hw hfs hf hfits
  subst hfs hf
  have hlen : ((blocks 2 b).flatMap (qpskSymbol s.params.arith (regNat s.cfg.samplingRate)
      (regNat s.cfg.carrierFreq) s.spb s.cfg.amplitude)).length = b.length / 2 * s.spb := by
    rw [length_flatMap_of_forall fun _ _ => length_qpskSymbol _ _ _ _ _ _, length_blocks]
  refine ⟨_, ?_, hlen, fun ρ hρ => ?_⟩
  · rw [exec_qpskMod_of_ready hs hw, runCommand_bufWrite_samples hs.1 (hlen ▸ hfits)]
  · simp only [List.map_flatMap, blocks_eq_map_take_drop, List.flatMap_map, map_qpskSymbol hρ,
      getD_take_drop b (show 0 < 2 by decide), getD_take_drop b (show 1 < 2 by decide), Nat.add_zero]

/-- Settles O54: two bits for each complete window, over the reals the sector of its two correlations. -/
theorem qpskDemResult : Obligations.QpskDemResult := by
  unfold Obligations.QpskDemResult
  intro s x fs f hs hw hfs hf hfits
  subst hfs hf
  have hlen : ((windows s.spb x).flatMap (qpskDecide s.params.arith (regNat s.cfg.samplingRate)
      (regNat s.cfg.carrierFreq) s.spb)).length = 2 * (x.length / s.spb) := by
    rw [length_flatMap_of_forall fun _ _ => length_qpskDecide _ _ _ _ _, length_windows, Nat.mul_comm]
  refine ⟨_, ?_, hlen, fun ρ hρ => flatMap_windows_eq fun i hi => ?_⟩
  · rw [exec_qpskDem_of_ready hs hw, runCommand_bufWrite_bits hs.1 (hlen ▸ hfits)]
  · exact qpskDecide_eq hρ (length_take_drop_of_lt_div hi) _ _

/-- Settles O55: one window for each four bits of the padded W, over the reals at the levels of its two pairs. -/
theorem qamModResult : Obligations.QamModResult := by
  unfold Obligations.QamModResult
  intro s b q fs f hs hw hfs hf hq hfits
  rw [← padZeros_eq] at hq
  subst hfs hf hq
  have hlen : ((blocks 4 (padZeros 4 b)).flatMap (qamSymbol s.params.arith (regNat s.cfg.samplingRate)
      (regNat s.cfg.carrierFreq) s.spb s.cfg.amplitude s.params.qamScale)).length =
        (padZeros 4 b).length / 4 * s.spb := by
    rw [length_flatMap_of_forall fun _ _ => length_qamSymbol _ _ _ _ _ _ _, length_blocks]
  refine ⟨_, ?_, hlen, fun ρ hρ => ?_⟩
  · rw [exec_qamMod_of_ready hs hw, runCommand_bufWrite_samples hs.1 (hlen ▸ hfits)]
  · simp only [List.map_flatMap, blocks_eq_map_take_drop, List.flatMap_map, map_qamSymbol hρ,
      getD_take_drop _ (show 0 < 4 by decide), getD_take_drop _ (show 1 < 4 by decide),
      getD_take_drop _ (show 2 < 4 by decide), getD_take_drop _ (show 3 < 4 by decide), Nat.add_zero]

/-- Settles O56: four bits for each complete window, over the reals its two normalised correlations, sliced. -/
theorem qamDemResult : Obligations.QamDemResult := by
  unfold Obligations.QamDemResult
  intro s x fs f hs hw hfs hf hz hfits
  have hexec := exec_qamDem_of_samples hs hz hw
  rw [← hfs, ← hf] at hexec
  have hlen : ((windows s.spb x).flatMap (qamDecide s.params.arith fs f s.spb s.cfg.amplitude
      s.params.qamScale)).length = 4 * (x.length / s.spb) := by
    rw [length_flatMap_of_forall fun _ _ => length_qamDecide _ _ _ _ _ _ _, length_windows, Nat.mul_comm]
  refine ⟨_, hexec.trans (runCommand_bufWrite_bits hs.1 (hlen ▸ hfits)), hlen, fun ρ a g hρ ha hg hpos => ?_⟩
  subst ha hg
  exact flatMap_windows_eq fun i hi => qamDecide_eq hρ hz hpos (length_take_drop_of_lt_div hi) hfs hf

end Sys2Proof.Proofs
end
